-- ==== Sys2Proof/Word.lean ====
section
/-! DEFINITION. The word of the port and of every register and cell (20_memory.md R54: 64 bits is the only access width). -/

namespace Sys2Proof

/-- A word is 64 bits, unsigned (00_scope.md section 6). -/
abbrev Word := BitVec 64

/-- Eight bits: an opcode, an error code, a byte of a byte-addressed bus. -/
abbrev Byte := BitVec 8

end Sys2Proof
end

