-- ==== Sys2Proof/Config.lean ====
section
/-! DEFINITION. What an instance fixes (00_scope.md R4 to R9) and the free values.
The parameters are OPEN in the spec, so they are plain data that every claim quantifies over. -/

namespace Sys2Proof

/-- The parameter set of one instance (00_scope.md, summary table of parameters). `S` and `CAPN` are derived,
see Machine/Params.lean. -/
structure Params where
  /-- the prime modulus `P` (R4) -/
  p : Word
  /-- the generator `G` (R5) -/
  g : Word
  /-- `LOGN_MAX` (R6) -/
  lognMax : Nat
  /-- the number of butterfly cores `LANES` (R7) -/
  lanes : Nat
  /-- whether the model admits the DEVICE failure, `DEVFAIL` (R9) -/
  devfail : Bool
  deriving DecidableEq, Repr

/-- PRESUMED (log 2): the recommended `P` and `G` of R4 and R5, with the `LOGN_MAX`, `LANES` and `DEVFAIL` of
95_test_vectors.md section 1. Unsafe for a claim about `State.reset` alone. -/
def Params.recommended : Params where
  p := 0xFFFFFFFF00000001#64
  g := 7#64
  lognMax := 4
  lanes := 4
  devfail := false

/-- FREE VALUE (log 3, safe): the word that draw number `draw` puts in a cell of unspecified bits
(10_state.md R39, 93_implementation_defined.md U3, U5, U18). No body: nothing can be proved of it. -/
opaque Config.freeWord (draw cell : Nat) : Word

end Sys2Proof
end

