-- ==== Sys2Proof/Machine/Params.lean ====
section
/-! DEFINITION. The derived parameters of an instance (00_scope.md R4 to R7). -/

namespace Sys2Proof

/-- `P` as a number (R4). -/
def Params.modulus (c : Params) : Nat := c.p.toNat

/-- The largest `e ≤ fuel` with `2^e` dividing `n`, for `n ≠ 0`. -/
def twoAdicityUpTo : Nat → Nat → Nat
  | 0, _ => 0
  | fuel + 1, n => if n % 2 = 0 then twoAdicityUpTo fuel (n / 2) + 1 else 0

/-- `S`, the largest integer with `2^S` dividing `P - 1` (R6). `P - 1 < 2^64`, so 64 halvings suffice. -/
def Params.twoAdicity (c : Params) : Nat := twoAdicityUpTo 64 (c.modulus - 1)

/-- `CAPN = 2^LOGN_MAX`, the number of cells of each data memory (R6). -/
def Params.capn (c : Params) : Nat := 2 ^ c.lognMax

/-- CAP: `CAP[5:0] = LOGN_MAX`, `CAP[13:8] = S`, `CAP[31:16] = LANES` (10_state.md R27). -/
def Params.capWord (c : Params) : Word :=
  (0#32 ++ BitVec.ofNat 16 c.lanes ++ 0#2 ++ BitVec.ofNat 6 c.twoAdicity ++ 0#2 ++ BitVec.ofNat 6 c.lognMax : BitVec 64)

end Sys2Proof
end

