-- ==== Sys2Proof/Machine/Field.lean ====
section
/-! DEFINITION. The field-arithmetic units as functions (40_field_arithmetic.md R90 to R97). `P` is the modulus.
Outside the domain R90 gives a unit, the function has some value that no command reaches (log 26). -/

namespace Sys2Proof.Machine

/-- The modular adder: the sum in 65 bits, less `P` if it is at least `P` (R91). -/
def fadd (P : Nat) (a b : Word) : Word :=
  let s := a.toNat + b.toNat
  BitVec.ofNat 64 (if P ≤ s then s - P else s)

/-- The modular subtractor (R92). -/
def fsub (P : Nat) (a b : Word) : Word :=
  BitVec.ofNat 64 (if b.toNat ≤ a.toNat then a.toNat - b.toNat else a.toNat + P - b.toNat)

/-- The exact 128-bit product (R93). -/
def mulw (a b : Word) : BitVec 128 := BitVec.ofNat 128 (a.toNat * b.toNat)

/-- Bits 63:0 of a 128-bit word (R93). -/
def lowHalf (x : BitVec 128) : Word := x.extractLsb' 0 64

/-- Bits 127:64 of a 128-bit word (R93). -/
def highHalf (x : BitVec 128) : Word := x.extractLsb' 64 64

/-- The 128-bit reducer, by its result (R94). -/
def fred (P : Nat) (x : BitVec 128) : Word := BitVec.ofNat 64 (x.toNat % P)

/-- The modular multiplier: multiply, then reduce (R95). -/
def fmul (P : Nat) (a b : Word) : Word := fred P (mulw a b)

/-- Square-and-multiply over `fmul` with at most `fuel` halvings of the exponent (R96). -/
def fpowUpTo (P : Nat) : Nat → Word → Nat → Word
  | 0, _, _ => 1#64
  | fuel + 1, a, e =>
    if e = 0 then 1#64
    else if e % 2 = 0 then fpowUpTo P fuel (fmul P a a) (e / 2)
    else fmul P a (fpowUpTo P fuel (fmul P a a) (e / 2))

/-- `a^e mod P` (R96); `log2 e + 1` halvings bring any exponent to 0. -/
def fpow (P : Nat) (a : Word) (e : Nat) : Word := fpowUpTo P (Nat.log2 e + 1) a e

/-- The modular inverse, by the Fermat form (R97). -/
def finv (P : Nat) (a : Word) : Word := fpow P a (P - 2)

/-- `ispow2` of 00_scope.md section 6. -/
def ispow2 (v : Nat) : Bool := decide (v ≠ 0) && decide (v &&& (v - 1) = 0)

/-- The root of unity `omega_k` of the instance (41_twiddle_init.md R110). -/
def omega (c : Params) (k : Nat) : Word := fpow c.modulus c.g ((c.modulus - 1) / 2 ^ k)

/-- The `k`-bit reversal of `i` (41_twiddle_init.md R115). -/
def bitReverse (k i : Nat) : Nat := ((List.range k).map fun b => (i / 2 ^ b % 2) * 2 ^ (k - 1 - b)).sum

/-- The value a butterfly of stage `T` of a size-`2^L` transform leaves in cell `i` of the destination buffer, from the
twiddle table `tw` and the source buffer `src` (42_transform.md R132, R133). Cell `i` belongs to butterfly `i` or
`i - m/2`. -/
def stageCell (P : Nat) (tw : Nat → Word) (L T : Nat) (src : Nat → Word) (i : Nat) : Word :=
  let half := 2 ^ L / 2
  let s := 2 ^ (L - 1 - T)
  let j := if i < half then i else i - half
  let e := j - j % s
  let a := src (j + e)
  let tb := fmul P (tw e) (src (j + e + s))
  if i < half then fadd P a tb else fsub P a tb

/-- The buffer after the first `T` stages (42_transform.md R130). -/
def stockham (P : Nat) (tw : Nat → Word) (L : Nat) : Nat → (Nat → Word) → Nat → Word
  | 0, c => c
  | T + 1, c => stageCell P tw L T (stockham P tw L T c)

end Sys2Proof.Machine
end

