-- ==== Sys2Proof/Machine/Instance.lean ====
section
/-! DEFINITION. The constraints on an instance (00_scope.md R4 to R7), as the check that `step` makes
(93_implementation_defined.md U15) and as the proposition it decides. -/

namespace Sys2Proof

/-- The distinct prime factors of `n`, when no prime below `d` divides `n`: trial division from `d` on, with `fuel`
divisions. -/
def primeFactorsFrom : Nat → Nat → Nat → List Nat
  | 0, _, _ => []
  | fuel + 1, d, n =>
    if n < d * d then if 1 < n then [n] else []
    else if n % d ≠ 0 then primeFactorsFrom fuel (d + 1) n
    else if n / d % d = 0 then primeFactorsFrom fuel d (n / d)
    else d :: primeFactorsFrom fuel d (n / d)

/-- The distinct prime factors of `P - 1`. Below `2^64` no trial divisor exceeds `2^32` and at most 64 divisions come
out even. -/
def Params.orderFactors (c : Params) : List Nat := primeFactorsFrom (2 ^ 32 + 64) 2 (c.modulus - 1)

/-- `P` is prime and the multiplicative order of `G` is `P - 1` (R4, R5), by Lucas's test: `G^(P-1) = 1` modulo `P`,
and `G^((P-1)/q)` is not 1 for any prime factor `q` of `P - 1`. -/
def Params.primeWithGenerator (c : Params) : Bool :=
  decide (Machine.fpow c.modulus c.g (c.modulus - 1) = 1#64)
    && c.orderFactors.all fun q => decide (Machine.fpow c.modulus c.g ((c.modulus - 1) / q) ≠ 1#64)

/-- The check of an instance: every constraint of R4 to R7, the comparisons first. The recommended `P` and `G` are
recognised by their values, which saves a run the test and does not change its outcome
(Laws/Instance.lean, `recommended_primeWithGenerator`). -/
def Params.wellFormed (c : Params) : Bool :=
  decide (2 ^ 63 < c.modulus) && decide (0 < c.g.toNat) && decide (c.g.toNat < c.modulus)
    && decide (c.lognMax ≤ c.twoAdicity) && decide (c.lognMax ≤ 62)
    && decide (1 ≤ c.lanes) && decide (c.lanes ≤ 65535)
    && (decide (c.p = Params.recommended.p ∧ c.g = Params.recommended.g) || c.primeWithGenerator)

/-- Every constraint of R4 to R7, as the rules say it: a conforming instance. `wellFormed` decides it
(Laws/Instance.lean, `Params.wellFormed_iff`). -/
structure Params.Conforms (c : Params) : Prop where
  modulus_large : 2 ^ 63 < c.modulus
  prime : Nat.Prime c.modulus
  generator_pos : 0 < c.g.toNat
  generator_lt : c.g.toNat < c.modulus
  generator : orderOf (c.g.toNat : ZMod c.modulus) = c.modulus - 1
  size_adicity : c.lognMax ≤ c.twoAdicity
  size : c.lognMax ≤ 62
  lanes_pos : 1 ≤ c.lanes
  lanes_le : c.lanes ≤ 65535

end Sys2Proof
end

