-- ==== Sys2Proof/Syntax.lean ====
section
/-! DEFINITION. The twelve commands of 30_encoding.md R74. No operand is carried in the command word (R71),
so no constructor has an argument: a command's operands are the ARG registers at issue (R72). -/

namespace Sys2Proof

/-- One constructor per row of spec/opcode_table.json. -/
inductive Instr where
  | fadd | fsub | fmul | mulw | fred | finv
  | init | teardown
  | ntt | nttc | intt | inttc
  deriving DecidableEq, Repr

end Sys2Proof
end

