-- ==== Sys2Proof/WellFormed.lean ====
section
/-! DEFINITION. Well-formedness of instructions. The checks on an instance's parameters are `Params.wellFormed`
(Machine/Instance.lean). -/

namespace Sys2Proof

/-- A command word carries nothing but its opcode (30_encoding.md R71), so every command is well formed;
R77: there are no other forms. -/
def Instr.wellFormed : Instr → Bool
  | .fadd => true
  | .fsub => true
  | .fmul => true
  | .mulw => true
  | .fred => true
  | .finv => true
  | .init => true
  | .teardown => true
  | .ntt => true
  | .nttc => true
  | .intt => true
  | .inttc => true

end Sys2Proof
end

