-- ==== Sys2Proof/Decode.lean ====
section
/-! DEFINITION. Decoding of command words (30_encoding.md R71, R74 to R77) and the encoder. -/

namespace Sys2Proof

/-- Why a command word is illegal. -/
inductive DecodeError where
  /-- some bit of 63:8 is set (R76) -/
  | reservedBits
  /-- bits 63:8 are zero and the opcode is in no row (R75) -/
  | reservedOpcode
  /-- fewer than the eight bytes of one word -/
  | truncated
  deriving DecidableEq, Repr

/-- One row of the opcode map of R74: a word `w` selects it when `w &&& mask = pattern`. -/
structure OpcodeRow where
  instr : Instr
  pattern : Word
  mask : Word
  deriving DecidableEq, Repr

/-- "Every mask is all ones" (R74). -/
def fullMask : Word := 0xFFFFFFFFFFFFFFFF#64

/-- The rows FADD to FINV of R74. -/
def scalarRows : List OpcodeRow :=
  [ ⟨.fadd, 0x0000000000000001#64, fullMask⟩, ⟨.fsub, 0x0000000000000002#64, fullMask⟩,
    ⟨.fmul, 0x0000000000000003#64, fullMask⟩, ⟨.mulw, 0x0000000000000004#64, fullMask⟩,
    ⟨.fred, 0x0000000000000005#64, fullMask⟩, ⟨.finv, 0x0000000000000006#64, fullMask⟩ ]

/-- The rows INIT and TEARDOWN of R74. -/
def tableRows : List OpcodeRow :=
  [ ⟨.init, 0x0000000000000010#64, fullMask⟩, ⟨.teardown, 0x0000000000000011#64, fullMask⟩ ]

/-- The rows NTT to INTTC of R74. -/
def transformRows : List OpcodeRow :=
  [ ⟨.ntt, 0x0000000000000020#64, fullMask⟩, ⟨.nttc, 0x0000000000000021#64, fullMask⟩,
    ⟨.intt, 0x0000000000000022#64, fullMask⟩, ⟨.inttc, 0x0000000000000023#64, fullMask⟩ ]

/-- The opcode map of R74. -/
def opcodeTable : List OpcodeRow := scalarRows ++ tableRows ++ transformRows

/-- Row selection of R74. -/
def OpcodeRow.selects (r : OpcodeRow) (w : Word) : Bool := decide (w &&& r.mask = r.pattern)

/-- A command word selects one of the twelve commands or is illegal (R77). -/
def decode (w : Word) : Except DecodeError Instr :=
  match opcodeTable.find? (fun r => r.selects w) with
  | some r => .ok r.instr
  | none => .error (if w >>> 8 = 0#64 then .reservedOpcode else .reservedBits)

/-- The column OPC of R74. -/
def Instr.opcode : Instr → Byte
  | .fadd => 0x01#8
  | .fsub => 0x02#8
  | .fmul => 0x03#8
  | .mulw => 0x04#8
  | .fred => 0x05#8
  | .finv => 0x06#8
  | .init => 0x10#8
  | .teardown => 0x11#8
  | .ntt => 0x20#8
  | .nttc => 0x21#8
  | .intt => 0x22#8
  | .inttc => 0x23#8

/-- The encoder: format `CW` of R71, OPC in bits 7:0 and the reserved bits 63:8 zero. -/
def encode (i : Instr) : Word := (0#56 ++ i.opcode : BitVec 64)

/-- The command an opcode byte (the register CUR, 10_state.md R26) stands for. -/
def decodeOpcode (o : Byte) : Option Instr := (decode (0#56 ++ o : BitVec 64)).toOption

/-- A list of bytes as a number, first byte lowest (little-endian, 20_memory.md R55). -/
def natOfBytes : List Byte → Nat
  | [] => 0
  | b :: bs => b.toNat + 256 * natOfBytes bs

/-- The first `n` bytes of a number, lowest first (little-endian, 20_memory.md R55). -/
def bytesOfNat : Nat → Nat → List Byte
  | 0, _ => []
  | n + 1, v => BitVec.ofNat 8 v :: bytesOfNat n (v / 256)

/-- One command word from a stream of bytes, with the rest of the stream (R77: the length is one word). -/
def decodeBytes (bs : List Byte) : Except DecodeError (Instr × List Byte) :=
  if bs.length < 8 then .error .truncated
  else (decode (BitVec.ofNat 64 (natOfBytes (bs.take 8)))).map (fun i => (i, bs.drop 8))

/-- The instruction the decoder reads from the word whose low `nbits` bits are `w` and whose other bits are zero,
laid out little-endian (20_memory.md R55; log 25). A word wider than 64 bits is no command word. -/
def decodeTableWord (nbits w : Nat) : Option Instr :=
  let v := w % 2 ^ nbits
  if v < 2 ^ 64 then (decodeBytes (bytesOfNat 8 v)).toOption.map Prod.fst else none

end Sys2Proof
end

