-- ==== Sys2Proof/Machine/State.lean ====
section
/-! DEFINITION. Every piece of state the spec gives the block (10_state.md R20 to R36), the model's own fields
(INVENTORY.md, "The model's own fields"), the reset state (R39), and the reasons a step can stop. -/

namespace Sys2Proof.Machine

/-- A memory of 64-bit cells: the listed cells hold their word, every other cell holds the free word of draw number
`draw` (R39, log 3). The unit is the word because the only access width is 64 bits (20_memory.md R54, log 1). -/
structure Memory where
  draw : Nat
  cells : List (Nat × Word)
  deriving DecidableEq, Repr

/-- A memory of unspecified bits (R39). -/
def Memory.unspecified (draw : Nat) : Memory := ⟨draw, []⟩

/-- Bundle `k` of the registry: `VALID[k]`, `ROOT[k]`, `ROOTINV[k]`, `NINV[k]` (R33), `TWF[k]` (R34), `TWI[k]` (R35),
`BREV[k]` (R36). -/
structure Bundle where
  valid : Bool
  root : Word
  rootinv : Word
  ninv : Word
  twf : Memory
  twi : Memory
  brev : Memory
  deriving DecidableEq, Repr

/-- An invalid bundle whose other fields are unspecified bits (R37, R39): draws `draw` to `draw + 3`. -/
def Bundle.unspecified (draw : Nat) : Bundle where
  valid := false
  root := Config.freeWord draw 0
  rootinv := Config.freeWord draw 1
  ninv := Config.freeWord draw 2
  twf := Memory.unspecified (draw + 1)
  twi := Memory.unspecified (draw + 2)
  brev := Memory.unspecified (draw + 3)

/-- `n` bundles of unspecified bits: `4 * n` draws from `draw` on. -/
def bundlesUnspecified (n draw : Nat) : List Bundle :=
  (List.range n).map fun k => Bundle.unspecified (draw + 4 * k)

/-- The field PHASE of the sequencer state (R26). -/
inductive Phase where
  | idle | check | load | stage | store | exec
  deriving DecidableEq, Repr

/-- The result held inside the block between the execute step and the commit step (42_transform.md R138: "`OUT` is
held inside the block until commit"; 30_encoding.md R73 steps 3 and 4). DEDUCED (log 8, safe). -/
inductive Held where
  | nothing
  /-- a value for RES0 -/
  | scalar (lo : Word)
  /-- the two halves of a product for RES0 and RES1 -/
  | wide (lo hi : Word)
  /-- the result vector `OUT` of a transform -/
  | vector (out : List Word)
  /-- bundle `k` is computed and waits for its VALID bit -/
  | validate (k : Nat)
  /-- every VALID bit is to be cleared -/
  | invalidate
  deriving DecidableEq, Repr

/-- A host port transaction (20_memory.md R50). -/
inductive Txn where
  | read (addr : Word)
  | write (addr data : Word)
  deriving DecidableEq, Repr

/-- The response of a transaction: OK or ERR, and the datum of a read (20_memory.md R50). -/
structure Response where
  ok : Bool
  datum : Word
  deriving DecidableEq, Repr

/-- An access on a byte-addressed bus that carries the port (20_memory.md R55, R56): byte addresses have 67 bits
because word address `w` is byte address `8·w`. -/
inductive BusAccess where
  | read (addr : BitVec 67) (size : Nat)
  | write (addr : BitVec 67) (bytes : List Byte)
  deriving DecidableEq, Repr

/-- One entry of the host script: what moves next (00_scope.md R11, 10_state.md R38; log 4). -/
inductive Event where
  /-- the environment asserts `rst` (70_reset_and_hazards.md R201) -/
  | rst
  /-- the host performs one port transaction (20_memory.md R50) -/
  | txn (t : Txn)
  /-- the host performs one access through the byte-bus bridge (20_memory.md R56) -/
  | bus (a : BusAccess)
  /-- the host writes `w` to CMD and does nothing until the command has ended: the architectural level (00_scope.md
  R10; log 5) -/
  | call (w : Word)
  /-- the host polls STATUS until BUSY = 0 (30_encoding.md R85, `wait`; log 15) -/
  | wait
  /-- the sequencer takes its enabled step -/
  | seq
  /-- butterfly cores take these butterflies of the current stage (42_transform.md R137; log 17) -/
  | cores (js : List Nat)
  /-- a device execution failure of the environment (60_exceptions.md R179; log 10) -/
  | devFault
  deriving DecidableEq, Repr

/-- The whole state. Plain data. -/
structure State where
  /-- the constants of the instance: PARAM_P, PARAM_G, the fields of CAP (R27, R28) and DEVFAIL; never written -/
  params : Params
  /-- ARG0 to ARG3 (R21) -/
  arg0 : Word
  arg1 : Word
  arg2 : Word
  arg3 : Word
  /-- RES0 and RES1 (R22) -/
  res0 : Word
  res1 : Word
  /-- the four bits of STATUS (R23); `busy` is also the BUSY of the sequencer state (R26) -/
  busy : Bool
  done : Bool
  fail : Bool
  fault : Bool
  /-- ERR (R24) -/
  err : Word
  /-- CUR, PHASE, L, T, SEL, DONESET (R26); `sel = true` selects BUF1; `doneset` is strictly rising -/
  cur : Byte
  phase : Phase
  l : Nat
  t : Nat
  sel : Bool
  doneset : List Nat
  /-- the result held until commit (log 8) -/
  held : Held
  /-- VIN (R30), VOUT (R31), BUF0 and BUF1 (R32) -/
  vin : Memory
  vout : Memory
  buf0 : Memory
  buf1 : Memory
  /-- the registry, bundle `k` at position `k` (R33) -/
  bundles : List Bundle
  /-- MODEL: a device execution failure of the environment is pending (log 10) -/
  devFault : Bool
  /-- MODEL: the next draw number of unspecified bits (log 3) -/
  draws : Nat
  /-- MODEL: the response of the last transaction (log 13) -/
  response : Option Response
  /-- MODEL: what moves next, oldest first (log 4) -/
  script : List Event
  deriving DecidableEq, Repr

/-- How the model itself stops. The hardware's own faults (60_exceptions.md R171, R172) are next states. -/
inductive Fault where
  /-- Raised by a step that lets the block run (an empty script, or `wait`) when BUSY = 1 and no step of the block is
  enabled. Safe: no run from reset reaches it (60_exceptions.md R182; log 20). -/
  | stuck
  deriving DecidableEq, Repr

/-- Why the model refuses a step. -/
inductive Refusal where
  /-- Raised by an arm of `exec` whose instruction has no meaning; no arm is such now. Safe. -/
  | notModelled (mnemonic : String)
  /-- Raised by `step` when the instance breaks a constraint of 00_scope.md R4 to R7 (93_implementation_defined.md U15
  `refuse`; log 18). Safe. -/
  | parameters
  deriving DecidableEq, Repr

/-- The reset values of 10_state.md R39 for the instance `c`, with unspecified bits drawn from `draw` on. -/
def State.resetOf (c : Params) (draw : Nat) : State where
  params := c
  arg0 := 0#64
  arg1 := 0#64
  arg2 := 0#64
  arg3 := 0#64
  res0 := 0#64
  res1 := 0#64
  busy := false
  done := false
  fail := false
  fault := false
  err := 0#64
  cur := 0#8
  phase := .idle
  l := 0
  t := 0
  sel := false
  doneset := []
  held := .nothing
  vin := Memory.unspecified draw
  vout := Memory.unspecified (draw + 1)
  buf0 := Memory.unspecified (draw + 2)
  buf1 := Memory.unspecified (draw + 3)
  bundles := bundlesUnspecified (c.lognMax + 1) (draw + 4)
  devFault := false
  draws := draw + 4 + 4 * (c.lognMax + 1)
  response := none
  script := []

/-- The machine right after reset (R39), at the instance of log 2. -/
def State.reset : State := State.resetOf Params.recommended 0

end Sys2Proof.Machine
end

