-- ==== Sys2Proof/Machine/Flags.lean ====
section
/-! DEFINITION. The views of STATUS, ERR, VALID, CAP (10_state.md R23 to R28) and the error codes (60_exceptions.md
R171, R172). There is no arithmetic flag (R23). -/

namespace Sys2Proof.Machine

/-- The fatal faults of 60_exceptions.md R171. -/
inductive FatalCode where
  | illegalCmd | notPow2 | uninit | resultLen | invZero | unreduced | zeroOffset | busyAccess | badAddr
  deriving DecidableEq, Repr

/-- The call failures of 60_exceptions.md R172. -/
inductive FailCode where
  | capacity | device
  deriving DecidableEq, Repr

/-- The two ways a command ends without a result (00_scope.md section 6: `raise Fatal`, `raise Fail`). -/
inductive Raise where
  | fatal (c : FatalCode)
  | fail (c : FailCode)
  deriving DecidableEq, Repr

/-- The column "code" of R171. -/
def FatalCode.code : FatalCode → Byte
  | .illegalCmd => 0x01#8
  | .notPow2 => 0x02#8
  | .uninit => 0x03#8
  | .resultLen => 0x04#8
  | .invZero => 0x05#8
  | .unreduced => 0x06#8
  | .zeroOffset => 0x07#8
  | .busyAccess => 0x08#8
  | .badAddr => 0x09#8

/-- The column "code" of R172. -/
def FailCode.code : FailCode → Byte
  | .capacity => 0x10#8
  | .device => 0x11#8

/-- `ERR = {48 zero bits, opc, code}` (60_exceptions.md R173). -/
def errWord (opc code : Byte) : Word := (0#48 ++ opc ++ code : BitVec 64)

/-- STATUS as a word: BUSY, DONE, FAIL, FAULT in bits 0 to 3, the rest 0 (10_state.md R23). -/
def State.statusWord (s : State) : Word :=
  (0#60 ++ BitVec.ofBool s.fault ++ BitVec.ofBool s.fail ++ BitVec.ofBool s.done ++ BitVec.ofBool s.busy : BitVec 64)

/-- The VALID bits of a list of bundles as a number, the first bundle's bit lowest. -/
def validBits : List Bundle → Nat
  | [] => 0
  | b :: bs => (if b.valid then 1 else 0) + 2 * validBits bs

/-- VALID as a word: bit `k` is `VALID[k]` (10_state.md R25). -/
def State.validWord (s : State) : Word := BitVec.ofNat 64 (validBits s.bundles)

end Sys2Proof.Machine
end

