-- ==== Sys2Proof/Machine/Ops.lean ====
section
/-! DEFINITION. The named operations over memories and registers, taking a fatal fault and a call failure
(60_exceptions.md R174, R175), the life of a command (30_encoding.md R73) and the reset action
(70_reset_and_hazards.md R201). -/

namespace Sys2Proof.Machine

/-! ### Memories -/

/-- The listed word of cell `i`, if any. -/
def cellsGet : List (Nat × Word) → Nat → Option Word
  | [], _ => none
  | (j, v) :: cs, i => if i = j then some v else cellsGet cs i

/-- Lists `v` for cell `i`, keeping the addresses strictly rising. -/
def cellsSet : List (Nat × Word) → Nat → Word → List (Nat × Word)
  | [], i, v => [(i, v)]
  | (j, w) :: cs, i, v =>
    if i < j then (i, v) :: (j, w) :: cs
    else if i = j then (i, v) :: cs
    else (j, w) :: cellsSet cs i v

/-- The addresses of a list of cells are strictly rising and all at least `lo`. -/
def cellsRise : Nat → List (Nat × Word) → Bool
  | _, [] => true
  | lo, (j, _) :: cs => decide (lo ≤ j) && cellsRise (j + 1) cs

/-- The word of cell `i`: the listed one, or the free word of the memory's draw (10_state.md R39; log 3). -/
def Memory.read (m : Memory) (i : Nat) : Word := (cellsGet m.cells i).getD (Config.freeWord m.draw i)

/-- Stores `v` in cell `i`. -/
def Memory.write (m : Memory) (i : Nat) (v : Word) : Memory := { m with cells := cellsSet m.cells i v }

/-- Stores the words `vs` in the cells from `i` on. -/
def Memory.writeFrom (m : Memory) : Nat → List Word → Memory
  | _, [] => m
  | i, v :: vs => (m.write i v).writeFrom (i + 1) vs

/-- The canonical form: addresses strictly rising. A listed cell is a written cell, so no entry equals what an
unlisted cell reads as a matter of form (log 1). -/
def Memory.wf (m : Memory) : Bool := cellsRise 0 m.cells

/-- Every listed cell has an index below `n`. -/
def Memory.below (m : Memory) (n : Nat) : Bool := m.cells.all fun c => decide (c.1 < n)

/-! ### Registers and flags -/

/-- Gives the response of a transaction (20_memory.md R50). -/
def State.respond (s : State) (r : Response) : State := { s with response := some r }

/-- Response OK with a datum. -/
def Response.okWith (v : Word) : Response := ⟨true, v⟩

/-- Response OK of a write. -/
def Response.okay : Response := ⟨true, 0#64⟩

/-- Response ERR: datum 0 (20_memory.md R50). -/
def Response.error : Response := ⟨false, 0#64⟩

/-- Moves the sequencer to a phase. -/
def State.toPhase (s : State) (p : Phase) : State := { s with phase := p }

/-- Holds a result until commit. -/
def State.hold (s : State) (h : Held) : State := { s with held := h }

/-- `VALID[k]`, 0 outside the store (10_state.md R25, R33). -/
def State.validBit (s : State) (k : Nat) : Bool :=
  match s.bundles[k]? with
  | some b => b.valid
  | none => false

/-- Bundle `k`; outside the store (no command goes there, log 23) a bundle of unspecified bits. -/
def State.bundle (s : State) (k : Nat) : Bundle := (s.bundles[k]?).getD (Bundle.unspecified 0)

/-- `BUF[SEL]`, the source of the current stage (42_transform.md R132). -/
def State.src (s : State) : Memory := if s.sel then s.buf1 else s.buf0

/-- `BUF[1-SEL]`, the destination of the current stage (42_transform.md R132). -/
def State.dst (s : State) : Memory := if s.sel then s.buf0 else s.buf1

/-- Replaces the destination buffer. -/
def State.setDst (s : State) (m : Memory) : State :=
  if s.sel then { s with buf0 := m } else { s with buf1 := m }

/-! ### Taking a fatal fault and a call failure -/

/-- The registry after an abandoned command: the non-VALID fields of the bundle an abandoned INIT was writing are
unspecified bits (60_exceptions.md R174; log 11). -/
def State.abandonedBundles (s : State) : List Bundle :=
  if s.busy && decide (s.phase = .exec) && decide (s.cur = Instr.opcode .init) then
    s.bundles.modify (Nat.log2 s.arg0.toNat) fun b => { Bundle.unspecified (s.draws + 2) with valid := b.valid }
  else s.bundles

/-- `raise Fatal(code)`: the fatal path of 60_exceptions.md R174. There is no handler, no saved state and no return:
only reset leaves FAULT. -/
def State.takeFatal (s : State) (c : FatalCode) (opc : Byte) : State :=
  if s.fault then s
  else
    { s with
      busy := false, done := false, fail := false, fault := true
      err := errWord opc c.code
      phase := .idle
      held := .nothing
      buf0 := Memory.unspecified s.draws
      buf1 := Memory.unspecified (s.draws + 1)
      bundles := s.abandonedBundles
      draws := s.draws + 6 }

/-- `raise Fail(code)`: the call-failure path of 60_exceptions.md R175. -/
def State.takeFail (s : State) (c : FailCode) : State :=
  { s with
    busy := false, done := false, fail := true, fault := false
    err := errWord s.cur c.code
    phase := .idle
    held := .nothing }

/-- The extra effect of `raise Fail(DEVICE)`: `VOUT[0..len-1]` become unspecified bits (60_exceptions.md R179). -/
def State.takeDevice (s : State) (len : Nat) : State :=
  { s with
    vout := s.vout.writeFrom 0 ((List.range len).map (Config.freeWord s.draws))
    draws := s.draws + 1
    devFault := false }.takeFail .device

/-- A command ends by its first failing check; `opc` is CUR (60_exceptions.md R173). -/
def State.raise (s : State) (r : Raise) : State :=
  match r with
  | .fatal c => s.takeFatal c s.cur
  | .fail c => s.takeFail c

/-- A device execution failure hits the transform in flight, if the model admits it (60_exceptions.md R179). -/
def State.devicePending (s : State) : Bool := s.params.devfail && s.devFault

/-! ### The life of a command -/

/-- The issue step of 30_encoding.md R73 for a legal command. -/
def State.issue (s : State) (i : Instr) : State :=
  { s with
    done := false, fail := false
    err := 0#64
    busy := true
    cur := i.opcode
    phase := .check
    held := .nothing }

/-- The registry with bundle `k` valid (41_twiddle_init.md R116, commit). -/
def State.validated (s : State) (k : Nat) : List Bundle := s.bundles.modify k fun b => { b with valid := true }

/-- Every bundle invalid and its other fields unspecified bits (41_twiddle_init.md R118; log 22). -/
def State.invalidated (s : State) : List Bundle := bundlesUnspecified s.bundles.length s.draws

/-- The result is written to its destination (30_encoding.md R73 step 4; R139 for a vector). -/
def State.writeResult (s : State) : State :=
  match s.held with
  | .nothing => s
  | .scalar lo => { s with res0 := lo }
  | .wide lo hi => { s with res0 := lo, res1 := hi }
  | .vector out => { s with vout := s.vout.writeFrom 0 out }
  | .validate k => { s with bundles := s.validated k }
  | .invalidate => { s with bundles := s.invalidated, draws := s.draws + 4 * s.bundles.length }

/-- `BUSY <- 0; DONE <- 1; PHASE <- IDLE` (30_encoding.md R73 step 4). -/
def State.finish (s : State) : State :=
  { s with busy := false, done := true, phase := .idle, held := .nothing }

/-- The commit step of 30_encoding.md R73, in one step. -/
def State.commit (s : State) : State := s.writeResult.finish

/-- One command from issue to completion (00_scope.md R10, architectural level): refused by the port while
FAULT = 1 (20_memory.md R59), a BUSY_ACCESS fault while BUSY = 1 (R58), otherwise issued, checked, executed and
committed (30_encoding.md R73). `check` is the ordered list of 60_exceptions.md R177, `body` all that follows it. -/
def command (i : Instr) (check : State → Option Raise) (body : State → State) (s : State) :
    Host.Outcome State Fault Refusal :=
  if s.fault then .next (s.respond Response.error)
  else if s.busy then .next ((s.takeFatal .busyAccess 0#8).respond Response.error)
  else
    match check ((s.respond Response.okay).issue i) with
    | some r => .next (((s.respond Response.okay).issue i).raise r)
    | none => .next (body ((s.respond Response.okay).issue i))

/-! ### Reset -/

/-- The reset action (70_reset_and_hazards.md R201): every piece of state takes its value of 10_state.md R39. The
constants stay, new draws make the unspecified bits, and the script goes on (log 12). -/
def State.rstAction (s : State) : State := { State.resetOf s.params s.draws with script := s.script }

end Sys2Proof.Machine
end

