-- ==== Sys2Proof/Machine/Operands.lean ====
section
/-! DEFINITION. Operand assembly (30_encoding.md R72) and the shared checks of 60_exceptions.md R177.
Every operand is the full unsigned value of an ARG register. -/

namespace Sys2Proof.Machine

/-- `P` of the instance, as the units take it. -/
def State.modulus (s : State) : Nat := s.params.modulus

/-- `a` of FADD, FSUB, FMUL, MULW, FINV and `lo` of FRED. -/
def State.opA (s : State) : Word := s.arg0

/-- `b` of FADD, FSUB, FMUL, MULW and `hi` of FRED. -/
def State.opB (s : State) : Word := s.arg1

/-- `n` of INIT and the transforms. -/
def State.opN (s : State) : Nat := s.arg0.toNat

/-- `domain_offset` of NTTC and INTTC. -/
def State.opOffset (s : State) : Word := s.arg1

/-- `blowup_factor` of NTTC. -/
def State.opBlowup (s : State) : Nat := s.arg2.toNat

/-- `result_len` of NTTC. -/
def State.opResultLen (s : State) : Nat := s.arg3.toNat

/-- `m = n * b` of NTTC, exact (43_coset.md R152). -/
def State.opM (s : State) : Nat := s.opN * s.opBlowup

/-- A word is reduced when it is below `P` (00_scope.md section 7). -/
def reduced (P : Nat) (v : Word) : Bool := decide (v.toNat < P)

/-- The next check of a list, unless one has already failed. -/
def orElseCheck (first : Option Raise) (rest : Unit → Option Raise) : Option Raise :=
  match first with
  | some r => some r
  | none => rest ()

/-- Fails with `r` when `bad` holds. -/
def failIf (bad : Bool) (r : Raise) : Option Raise := if bad then some r else none

/-- `not ispow2(n): NOT_POW2` (R177). -/
def checkPow2 (n : Nat) : Option Raise := failIf (!ispow2 n) (.fatal .notPow2)

/-- `L > LOGN_MAX or VALID[L] == 0: UNINIT` (R177; 41_twiddle_init.md R119). -/
def State.checkBundle (s : State) (L : Nat) : Option Raise :=
  failIf (decide (s.params.lognMax < L) || !s.validBit L) (.fatal .uninit)

/-- The two lines of 43_coset.md R150 on the domain offset. -/
def State.checkOffset (s : State) : Option Raise :=
  orElseCheck (failIf (!reduced s.modulus s.opOffset) (.fatal .unreduced)) fun _ =>
    failIf (decide (s.opOffset = 0#64)) (.fatal .zeroOffset)

/-- Some `VIN[i] >= P`, `i < n`: UNREDUCED (42_transform.md R129). -/
def State.checkInput (s : State) (n : Nat) : Option Raise :=
  failIf (!(List.range n).all fun i => reduced s.modulus (s.vin.read i)) (.fatal .unreduced)

/-- `x[0] >= P or x[1] >= P: UNREDUCED` (R177, FADD, FSUB, FMUL). -/
def State.checkTwoReduced (s : State) : Option Raise :=
  failIf (!reduced s.modulus s.opA || !reduced s.modulus s.opB) (.fatal .unreduced)

end Sys2Proof.Machine
end

