-- ==== Sys2Proof/Machine/Transform.lean ====
section
/-! DEFINITION. The Stockham pipeline (42_transform.md R130 to R141) and the commands NTT and INTT (R127, R128). -/

namespace Sys2Proof.Machine

/-- What a transform command gives the pipeline: its size, its direction, its input map `pre` and its output map
`post` (R131, R132, R138). -/
structure Kernel where
  logSize : Nat
  inverse : Bool
  pre : Nat → Word
  post : Nat → Word → Word

/-- The twiddle table of the direction: `TWF[L]` or `TWI[L]` (R132). -/
def State.twiddle (s : State) (inverse : Bool) (e : Nat) : Word :=
  if inverse then (s.bundle s.l).twi.read e else (s.bundle s.l).twf.read e

/-- The load step (R131). L is set here (log 9). -/
def State.loadStep (s : State) (k : Kernel) : State :=
  { s with
    buf0 := s.buf0.writeFrom 0 ((List.range (2 ^ k.logSize)).map k.pre)
    l := k.logSize
    sel := false
    t := 0
    doneset := []
    phase := if k.logSize = 0 then .store else .stage }

/-- Adds `j` to a strictly rising list without repeats. -/
def insertIndex : Nat → List Nat → List Nat
  | j, [] => [j]
  | j, i :: is => if j < i then j :: i :: is else if j = i then i :: is else i :: insertIndex j is

/-- Butterfly `j` of the current stage, one step of a butterfly core (R133, R134). -/
def State.butterfly (s : State) (inverse : Bool) (j : Nat) : State :=
  let half := 2 ^ s.l / 2
  let stride := 2 ^ (s.l - 1 - s.t)
  let q := j % stride
  let e := j - q
  let a := s.src.read (j + e)
  let b := s.src.read (j + e + stride)
  let tb := fmul s.modulus (s.twiddle inverse e) b
  { s.setDst ((s.dst.write j (fadd s.modulus a tb)).write (j + half) (fsub s.modulus a tb)) with
    doneset := insertIndex j s.doneset }

/-- The barrier step (R135). -/
def State.barrierStep (s : State) : State :=
  { s with
    sel := !s.sel
    t := s.t + 1
    doneset := []
    phase := if s.t + 1 = s.l then .store else s.phase }

/-- The store step: `OUT[i] = post(i, BUF[SEL][i])` is held (R138). -/
def State.storeStep (s : State) (k : Kernel) : State :=
  s.hold (.vector ((List.range (2 ^ s.l)).map fun i => k.post i (s.src.read i)))

/-- All butterflies of a stage and its barrier at once: what any order of them leaves (R136). -/
def State.wholeStage (s : State) (inverse : Bool) : State :=
  (s.setDst (s.dst.writeFrom 0 ((List.range (2 ^ s.l)).map
    (stageCell s.modulus (s.twiddle inverse) s.l s.t s.src.read)))).barrierStep

/-- `n` stages one after another (R130). -/
def State.runStages (inverse : Bool) : Nat → State → State
  | 0, s => s
  | n + 1, s => State.runStages inverse n (s.wholeStage inverse)

/-- All that follows the check of a transform: load, stages, store, commit (R130), or a device execution failure
(60_exceptions.md R179). -/
def runTransform (k : Kernel) (s : State) : State :=
  if s.devicePending then (s.toPhase .load).takeDevice (2 ^ k.logSize)
  else ((State.runStages k.inverse k.logSize ((s.toPhase .load).loadStep k)).storeStep k).commit

/-- NTT, check (R129 with `m = n`). -/
def checkNtt (s : State) : Option Raise :=
  orElseCheck (checkPow2 s.opN) fun _ =>
  orElseCheck (s.checkBundle (Nat.log2 s.opN)) fun _ => s.checkInput s.opN

/-- NTT: `pre(i) = VIN[i]`, table `TWF[L]`, `post(i, v) = v` (R127). -/
def kernelNtt (s : State) : Kernel where
  logSize := Nat.log2 s.opN
  inverse := false
  pre := fun i => s.vin.read i
  post := fun _ v => v

/-- NTT (R127). -/
def execNtt (s : State) : Host.Outcome State Fault Refusal :=
  command .ntt checkNtt (fun s => runTransform (kernelNtt s) s) s

/-- INTT, check (R129 with `m = n`). -/
def checkIntt (s : State) : Option Raise :=
  orElseCheck (checkPow2 s.opN) fun _ =>
  orElseCheck (s.checkBundle (Nat.log2 s.opN)) fun _ => s.checkInput s.opN

/-- INTT: `pre(i) = VIN[i]`, table `TWI[L]`, `post(i, v) = fmul(v, NINV[L])` (R128). -/
def kernelIntt (s : State) : Kernel where
  logSize := Nat.log2 s.opN
  inverse := true
  pre := fun i => s.vin.read i
  post := fun _ v => fmul s.modulus v (s.bundle (Nat.log2 s.opN)).ninv

/-- INTT (R128). -/
def execIntt (s : State) : Host.Outcome State Fault Refusal :=
  command .intt checkIntt (fun s => runTransform (kernelIntt s) s) s

end Sys2Proof.Machine
end

