-- ==== Sys2Proof/Machine/Coset.lean ====
section
/-! DEFINITION. The coset-shift and blow-up adapter and the commands NTTC and INTTC (43_coset.md R150 to R155). -/

namespace Sys2Proof.Machine

/-- Element `i` of `shift(v, g)` (R150). -/
def shiftElement (P : Nat) (g : Word) (i : Nat) (v : Word) : Word := fmul P v (fpow P g i)

/-- NTTC, check: R129 with the NTTC-only lines of R152 and the offset lines of R150 (60_exceptions.md R177). -/
def checkNttc (s : State) : Option Raise :=
  orElseCheck (checkPow2 s.opN) fun _ =>
  orElseCheck (failIf (decide (2 ^ 64 ≤ s.opM) || !ispow2 s.opM) (.fatal .notPow2)) fun _ =>
  orElseCheck (failIf (!decide (s.opResultLen = s.opM)) (.fatal .resultLen)) fun _ =>
  orElseCheck (s.checkBundle (Nat.log2 s.opM)) fun _ =>
  orElseCheck s.checkOffset fun _ => s.checkInput s.opN

/-- NTTC: the shifted coefficients, zero-padded at the high end; table `TWF[L]`; `post(i, v) = v` (R152, R153). -/
def kernelNttc (s : State) : Kernel where
  logSize := Nat.log2 s.opM
  inverse := false
  pre := fun i => if i < s.opN then shiftElement s.modulus s.opOffset i (s.vin.read i) else 0#64
  post := fun _ v => v

/-- NTTC (R152). -/
def execNttc (s : State) : Host.Outcome State Fault Refusal :=
  command .nttc checkNttc (fun s => runTransform (kernelNttc s) s) s

/-- INTTC, check: R129 with `m = n` and the offset lines of R150 (60_exceptions.md R177). -/
def checkInttc (s : State) : Option Raise :=
  orElseCheck (checkPow2 s.opN) fun _ =>
  orElseCheck (s.checkBundle (Nat.log2 s.opN)) fun _ =>
  orElseCheck s.checkOffset fun _ => s.checkInput s.opN

/-- INTTC: `pre(i) = VIN[i]`, table `TWI[L]`, `post(i, v) = fmul(fmul(v, NINV[L]), fpow(hinv, i))` (R155). -/
def kernelInttc (s : State) : Kernel where
  logSize := Nat.log2 s.opN
  inverse := true
  pre := fun i => s.vin.read i
  post := fun i v =>
    shiftElement s.modulus (finv s.modulus s.opOffset) i (fmul s.modulus v (s.bundle (Nat.log2 s.opN)).ninv)

/-- INTTC (R155). -/
def execInttc (s : State) : Host.Outcome State Fault Refusal :=
  command .inttc checkInttc (fun s => runTransform (kernelInttc s) s) s

end Sys2Proof.Machine
end

