-- ==== Sys2Proof/Machine/Scalar.lean ====
section
/-! DEFINITION. The scalar commands FADD, FSUB, FMUL, MULW, FRED, FINV (40_field_arithmetic.md R98 to R103): for each,
its ordered checks, its execute step and its meaning. -/

namespace Sys2Proof.Machine

/-- FADD, check (R98). -/
def checkFadd (s : State) : Option Raise := s.checkTwoReduced

/-- FADD, execute (R98). -/
def executeFadd (s : State) : State := s.hold (.scalar (fadd s.modulus s.opA s.opB))

/-- FADD (R98). -/
def execFadd (s : State) : Host.Outcome State Fault Refusal :=
  command .fadd checkFadd (fun s => (executeFadd (s.toPhase .exec)).commit) s

/-- FSUB, check (R99). -/
def checkFsub (s : State) : Option Raise := s.checkTwoReduced

/-- FSUB, execute (R99). -/
def executeFsub (s : State) : State := s.hold (.scalar (fsub s.modulus s.opA s.opB))

/-- FSUB (R99). -/
def execFsub (s : State) : Host.Outcome State Fault Refusal :=
  command .fsub checkFsub (fun s => (executeFsub (s.toPhase .exec)).commit) s

/-- FMUL, check (R100). -/
def checkFmul (s : State) : Option Raise := s.checkTwoReduced

/-- FMUL, execute (R100). -/
def executeFmul (s : State) : State := s.hold (.scalar (fmul s.modulus s.opA s.opB))

/-- FMUL (R100). -/
def execFmul (s : State) : Host.Outcome State Fault Refusal :=
  command .fmul checkFmul (fun s => (executeFmul (s.toPhase .exec)).commit) s

/-- MULW, check: none (R101). -/
def checkMulw (_ : State) : Option Raise := none

/-- MULW, execute (R101). -/
def executeMulw (s : State) : State :=
  s.hold (.wide (lowHalf (mulw s.opA s.opB)) (highHalf (mulw s.opA s.opB)))

/-- MULW (R101). -/
def execMulw (s : State) : Host.Outcome State Fault Refusal :=
  command .mulw checkMulw (fun s => (executeMulw (s.toPhase .exec)).commit) s

/-- FRED, check: none (R102). -/
def checkFred (_ : State) : Option Raise := none

/-- FRED, execute: reduces `{hi, lo}` (R102). -/
def executeFred (s : State) : State := s.hold (.scalar (fred s.modulus (s.opB ++ s.opA : BitVec 128)))

/-- FRED (R102). -/
def execFred (s : State) : Host.Outcome State Fault Refusal :=
  command .fred checkFred (fun s => (executeFred (s.toPhase .exec)).commit) s

/-- FINV, check: reduced, then nonzero (R103). -/
def checkFinv (s : State) : Option Raise :=
  orElseCheck (failIf (!reduced s.modulus s.opA) (.fatal .unreduced)) fun _ =>
    failIf (decide (s.opA = 0#64)) (.fatal .invZero)

/-- FINV, execute (R103). -/
def executeFinv (s : State) : State := s.hold (.scalar (finv s.modulus s.opA))

/-- FINV (R103). -/
def execFinv (s : State) : Host.Outcome State Fault Refusal :=
  command .finv checkFinv (fun s => (executeFinv (s.toPhase .exec)).commit) s

end Sys2Proof.Machine
end

