-- ==== Sys2Proof/Machine/Tables.lean ====
section
/-! DEFINITION. The twiddle generator and the commands INIT and TEARDOWN (41_twiddle_init.md R110 to R118). -/

namespace Sys2Proof.Machine

/-- `TWF[k]`: `fpow(ROOT[k], j)` for `0 <= j < 2^k div 2` (R113); with the inverse root, `TWI[k]` (R114). -/
def powerTable (P : Nat) (root : Word) (k : Nat) : List Word := (List.range (2 ^ k / 2)).map (fpow P root)

/-- `BREV[k]` (R115). -/
def bitReverseTable (k : Nat) : List Word := (List.range (2 ^ k)).map fun i => BitVec.ofNat 64 (bitReverse k i)

/-- `NINV[k]` (R112). -/
def ninvOf (P k : Nat) : Word := finv P (BitVec.ofNat 64 (2 ^ k % P))

/-- Bundle `k` with the values of R110 to R115; `VALID[k]` is not touched before commit (R116). -/
def Bundle.generate (c : Params) (k : Nat) (b : Bundle) : Bundle :=
  { b with
    root := omega c k
    rootinv := finv c.modulus (omega c k)
    ninv := ninvOf c.modulus k
    twf := b.twf.writeFrom 0 (powerTable c.modulus (omega c k) k)
    twi := b.twi.writeFrom 0 (powerTable c.modulus (finv c.modulus (omega c k)) k)
    brev := b.brev.writeFrom 0 (bitReverseTable k) }

/-- INIT, check (R116). -/
def checkInit (s : State) : Option Raise :=
  orElseCheck (checkPow2 s.opN) fun _ =>
    failIf (decide (s.params.lognMax < Nat.log2 s.opN)) (.fail .capacity)

/-- INIT, execute: the bundle is computed (R116). -/
def executeInit (s : State) : State :=
  { s with bundles := s.bundles.modify (Nat.log2 s.opN) (Bundle.generate s.params (Nat.log2 s.opN)) }.hold
    (.validate (Nat.log2 s.opN))

/-- INIT (R116). -/
def execInit (s : State) : Host.Outcome State Fault Refusal :=
  command .init checkInit (fun s => (executeInit (s.toPhase .exec)).commit) s

/-- TEARDOWN, check: none (R118). -/
def checkTeardown (_ : State) : Option Raise := none

/-- TEARDOWN, execute (R118). -/
def executeTeardown (s : State) : State := s.hold .invalidate

/-- TEARDOWN (R118). -/
def execTeardown (s : State) : Host.Outcome State Fault Refusal :=
  command .teardown checkTeardown (fun s => (executeTeardown (s.toPhase .exec)).commit) s

end Sys2Proof.Machine
end

