-- ==== Sys2Proof/Machine/Dispatch.lean ====
section
/-! DEFINITION. One arm per constructor of Instr. -/

namespace Sys2Proof.Machine

def exec (i : Instr) (s : State) : Host.Outcome State Fault Refusal :=
  match i with
  | .fadd => Sys2Proof.Machine.execFadd s
  | .fsub => Sys2Proof.Machine.execFsub s
  | .fmul => Sys2Proof.Machine.execFmul s
  | .mulw => Sys2Proof.Machine.execMulw s
  | .fred => Sys2Proof.Machine.execFred s
  | .finv => Sys2Proof.Machine.execFinv s
  | .init => Sys2Proof.Machine.execInit s
  | .teardown => Sys2Proof.Machine.execTeardown s
  | .ntt => Sys2Proof.Machine.execNtt s
  | .nttc => Sys2Proof.Machine.execNttc s
  | .intt => Sys2Proof.Machine.execIntt s
  | .inttc => Sys2Proof.Machine.execInttc s

end Sys2Proof.Machine
end

