-- ==== Sys2Proof/Machine/Port.lean ====
section
/-! DEFINITION. The host port (20_memory.md R50 to R60), the issue of a command by a write to CMD (30_encoding.md R73
step 1), the HT notation (R70) and the byte-bus bridge (20_memory.md R55, R56). -/

namespace Sys2Proof.Machine

/-- `addr[63:62]` (R51). -/
def space (addr : Word) : Nat := (addr.extractLsb' 62 2).toNat

/-- `addr[61:0]` (R51). -/
def index (addr : Word) : Nat := (addr.extractLsb' 0 62).toNat

/-- The word address of STATUS (R52). -/
def statusAddr : Word := 0x0000000000000000#64

/-- The word address of CMD (R52). -/
def cmdAddr : Word := 0x000000000000000F#64

/-- The word address of `VIN[i]` (R53). -/
def vinAddr (i : Nat) : Word := 0x4000000000000000#64 + BitVec.ofNat 64 i

/-- The word address of `VOUT[i]` (R53). -/
def voutAddr (i : Nat) : Word := 0x8000000000000000#64 + BitVec.ofNat 64 i

/-- The readable registers of the CSR space (R52); `none` is an access violation (R57). -/
def State.csrRead (s : State) : Nat → Option Word
  | 0x0 => some s.statusWord
  | 0x1 => some s.err
  | 0x2 => some s.validWord
  | 0x3 => some s.params.capWord
  | 0x4 => some s.params.p
  | 0x5 => some s.params.g
  | 0x8 => some s.arg0
  | 0x9 => some s.arg1
  | 0xA => some s.arg2
  | 0xB => some s.arg3
  | 0xC => some s.res0
  | 0xD => some s.res1
  | _ => none

/-- The word at a mapped readable address (R51 to R53); `none` is an access violation (R57). -/
def State.portRead (s : State) (addr : Word) : Option Word :=
  match space addr with
  | 0 => s.csrRead (index addr)
  | 1 => if index addr < s.params.capn then some (s.vin.read (index addr)) else none
  | 2 => if index addr < s.params.capn then some (s.vout.read (index addr)) else none
  | _ => none

/-- The issue step of 30_encoding.md R73: a legal word issues its command, any other raises ILLEGAL_CMD with
`ERR[15:8] = w[7:0]`. -/
def State.issueWord (s : State) (w : Word) : State :=
  match decode w with
  | .ok i => s.issue i
  | .error _ => s.takeFatal .illegalCmd (w.extractLsb' 0 8)

/-- The writable registers of the CSR space (R52); `none` is an access violation (R57). -/
def State.csrWrite (s : State) (i : Nat) (v : Word) : Option State :=
  match i with
  | 0x8 => some { s with arg0 := v }
  | 0x9 => some { s with arg1 := v }
  | 0xA => some { s with arg2 := v }
  | 0xB => some { s with arg3 := v }
  | 0xF => some (s.issueWord v)
  | _ => none

/-- A write to a mapped writable address (R51 to R53); `none` is an access violation (R57). -/
def State.portWrite (s : State) (addr v : Word) : Option State :=
  match space addr with
  | 0 => s.csrWrite (index addr) v
  | 1 => if index addr < s.params.capn then some { s with vin := s.vin.write (index addr) v } else none
  | _ => none

/-- A transaction while FAULT = 1: reads of readable addresses work, all else answers ERR, nothing changes (R59). -/
def State.transactFaulted (s : State) (t : Txn) : State :=
  match t with
  | .read addr =>
    match s.portRead addr with
    | some v => s.respond (Response.okWith v)
    | none => s.respond Response.error
  | .write _ _ => s.respond Response.error

/-- A transaction while BUSY = 1: a read of STATUS, or the fatal fault BUSY_ACCESS (R58; 60_exceptions.md R180). -/
def State.transactBusy (s : State) (t : Txn) : State :=
  if t = .read statusAddr then s.respond (Response.okWith s.statusWord)
  else (s.takeFatal .busyAccess 0#8).respond Response.error

/-- A transaction while the block is idle: a legal access, or the fatal fault BAD_ADDR (R57; 60_exceptions.md R180). -/
def State.transactIdle (s : State) (t : Txn) : State :=
  match t with
  | .read addr =>
    match s.portRead addr with
    | some v => s.respond (Response.okWith v)
    | none => (s.takeFatal .badAddr 0#8).respond Response.error
  | .write addr v =>
    match s.portWrite addr v with
    | some s' => s'.respond Response.okay
    | none => (s.takeFatal .badAddr 0#8).respond Response.error

/-- One host transaction (R50, R57 to R60). -/
def State.transact (s : State) (t : Txn) : State :=
  if s.fault then s.transactFaulted t
  else if s.busy then s.transactBusy t
  else s.transactIdle t

/-- The HT record of a transaction: RW in bit 128, ADDR in 127:64, DATA in 63:0, 0 in a read (30_encoding.md R70). -/
def Txn.toHT (t : Txn) : BitVec 129 :=
  match t with
  | .read addr => (0#1 ++ addr ++ 0#64 : BitVec 129)
  | .write addr data => (1#1 ++ addr ++ data : BitVec 129)

/-- The transaction an HT record writes; a read request with a nonzero datum is none (log 19). -/
def Txn.ofHT (r : BitVec 129) : Option Txn :=
  if r.extractLsb' 128 1 = 1#1 then some (.write (r.extractLsb' 64 64) (r.extractLsb' 0 64))
  else if r.extractLsb' 0 64 = 0#64 then some (.read (r.extractLsb' 64 64))
  else none

/-- The transaction a byte-bus access becomes: word address `w` is byte address `8·w`, the word is little-endian
(R55); a misaligned address or a size other than 8 is refused by the bridge (R56; log 16). -/
def BusAccess.toTxn (a : BusAccess) : Option Txn :=
  match a with
  | .read addr size =>
    if addr.toNat % 8 = 0 ∧ size = 8 then some (.read (BitVec.ofNat 64 (addr.toNat / 8))) else none
  | .write addr bytes =>
    if addr.toNat % 8 = 0 ∧ bytes.length = 8 then
      some (.write (BitVec.ofNat 64 (addr.toNat / 8)) (BitVec.ofNat 64 (natOfBytes bytes)))
    else none

/-- An access through the bridge: refused with ERR and no change of the block, or a port transaction (R56). -/
def State.busTransact (s : State) (a : BusAccess) : State :=
  match a.toTxn with
  | some t => s.transact t
  | none => s.respond Response.error

end Sys2Proof.Machine
end

