-- ==== Sys2Proof/Machine/Sequencer.lean ====
section
/-! DEFINITION. The micro level (00_scope.md R10): the steps of the sequencer and of the butterfly cores between issue
and completion (30_encoding.md R73, 42_transform.md R130 to R139). -/

namespace Sys2Proof.Machine

/-- The ordered checks of each command (60_exceptions.md R177). -/
def checkOf (i : Instr) (s : State) : Option Raise :=
  match i with
  | .fadd => checkFadd s
  | .fsub => checkFsub s
  | .fmul => checkFmul s
  | .mulw => checkMulw s
  | .fred => checkFred s
  | .finv => checkFinv s
  | .init => checkInit s
  | .teardown => checkTeardown s
  | .ntt => checkNtt s
  | .nttc => checkNttc s
  | .intt => checkIntt s
  | .inttc => checkInttc s

/-- The pipeline parameters of a transform command; `none` for the other eight. -/
def kernelOf (i : Instr) (s : State) : Option Kernel :=
  match i with
  | .fadd => none
  | .fsub => none
  | .fmul => none
  | .mulw => none
  | .fred => none
  | .finv => none
  | .init => none
  | .teardown => none
  | .ntt => some (kernelNtt s)
  | .nttc => some (kernelNttc s)
  | .intt => some (kernelIntt s)
  | .inttc => some (kernelInttc s)

/-- The EXEC step of the eight commands that are no transform (30_encoding.md R73 step 3); `none` for a transform. -/
def executeOf (i : Instr) (s : State) : Option State :=
  match i with
  | .fadd => some (executeFadd s)
  | .fsub => some (executeFsub s)
  | .fmul => some (executeFmul s)
  | .mulw => some (executeMulw s)
  | .fred => some (executeFred s)
  | .finv => some (executeFinv s)
  | .init => some (executeInit s)
  | .teardown => some (executeTeardown s)
  | .ntt => none
  | .nttc => none
  | .intt => none
  | .inttc => none

/-- A successful check moves to LOAD for the four transforms and to EXEC for the others (30_encoding.md R73 step 2). -/
def phaseAfterCheck (i : Instr) : Phase :=
  match i with
  | .fadd => .exec
  | .fsub => .exec
  | .fmul => .exec
  | .mulw => .exec
  | .fred => .exec
  | .finv => .exec
  | .init => .exec
  | .teardown => .exec
  | .ntt => .load
  | .nttc => .load
  | .intt => .load
  | .inttc => .load

/-- The check step (30_encoding.md R73 step 2). -/
def State.checkStep (s : State) (i : Instr) : State :=
  match checkOf i s with
  | some r => s.raise r
  | none => s.toPhase (phaseAfterCheck i)

/-- Every butterfly of the current stage is done: `DONESET = {0, ..., m/2 - 1}` (42_transform.md R135). -/
def State.stageDone (s : State) : Bool := decide (s.doneset = List.range (2 ^ s.l / 2))

/-- The sequencer's step in an execute phase of a transform. A pending device failure ends the transform in any of
them (60_exceptions.md R179; log 10). -/
def State.pipelineStep (s : State) (k : Kernel) : Option State :=
  if s.devicePending then some (s.takeDevice (2 ^ k.logSize))
  else
    match s.phase with
    | .load => some (s.loadStep k)
    | .stage => if s.stageDone then some s.barrierStep else none
    | .store => some (if s.held = .nothing then s.storeStep k else s.commit)
    | .idle => none
    | .check => none
    | .exec => none

/-- The one step of the sequencer that is enabled, if any. -/
def State.seqStep (s : State) : Option State :=
  if s.busy then
    match decodeOpcode s.cur with
    | none => none
    | some i =>
      match s.phase with
      | .idle => none
      | .check => some (s.checkStep i)
      | .exec => if s.held = .nothing then executeOf i s else some s.commit
      | .load => (kernelOf i s).bind s.pipelineStep
      | .stage => (kernelOf i s).bind s.pipelineStep
      | .store => (kernelOf i s).bind s.pipelineStep
  else none

/-- Butterfly step `j`, if enabled: "PHASE = STAGE and `j` is not in DONESET" (42_transform.md R133). -/
def State.coreStep (s : State) (j : Nat) : Option State :=
  if s.busy && decide (s.phase = .stage) && decide (j < 2 ^ s.l / 2) && !s.doneset.contains j then
    ((decodeOpcode s.cur).bind fun i => kernelOf i s).map fun k => s.butterfly k.inverse j
  else none

/-- One round of the cores: at most LANES butterflies, one each (42_transform.md R134, R137; log 17). An entry that is
not enabled is skipped. -/
def State.coreRound (s : State) (js : List Nat) : State :=
  (js.take s.params.lanes).foldl (fun s j => (s.coreStep j).getD s) s

/-- The lowest butterfly of the stage that is still to be done. -/
def State.nextButterfly (s : State) : Option Nat :=
  (List.range (2 ^ s.l / 2)).find? fun j => !s.doneset.contains j

/-- One step of the block in the deterministic order `j = 0, 1, ...` that 42_transform.md R137 allows. -/
def State.blockStep (s : State) : Option State :=
  match s.seqStep with
  | some s' => some s'
  | none => s.nextButterfly.bind s.coreStep

end Sys2Proof.Machine
end

