-- ==== Sys2Proof/Machine/Schedule.lean ====
section
/-! DEFINITION. One step of the whole machine: the first entry of the script moves (log 4); with an empty script a
command in flight goes on (log 6). The host-script statements of 30_encoding.md R84 to R86 as script entries. -/

namespace Sys2Proof.Machine

/-- A call of a command: a legal word runs its command to completion, any other is the plain write to CMD (log 5). -/
def State.callWord (s : State) (w : Word) : Host.Outcome State Fault Refusal :=
  match decode w with
  | .ok i => exec i s
  | .error _ => .next (s.transact (.write cmdAddr w))

/-- The block takes one step of its own; none enabled is the model's stop (log 20). -/
def State.runBlock (s : State) : Host.Outcome State Fault Refusal :=
  match s.blockStep with
  | some s' => .next s'
  | none => .fault .stuck

/-- The device execution failure of the environment becomes pending, if the model admits it (60_exceptions.md R179). -/
def State.armDevice (s : State) : State := { s with devFault := s.devFault || s.params.devfail }

/-- What one script entry does; `s` is the state with the entry already taken from the script. -/
def State.perform (e : Event) (s : State) : Host.Outcome State Fault Refusal :=
  match e with
  | .rst => .next s.rstAction
  | .txn t => .next (s.transact t)
  | .bus a => .next (s.busTransact a)
  | .call w => s.callWord w
  | .wait =>
    if s.busy then ({ s with script := .wait :: s.script } : State).runBlock
    else .next (s.transact (.read statusAddr))
  | .seq => .next (s.seqStep.getD s)
  | .cores js => .next (s.coreRound js)
  | .devFault => .next s.armDevice

/-- One step: the first script entry, or the block's own next step, or nothing when the block is idle. -/
def State.advance (s : State) : Host.Outcome State Fault Refusal :=
  match s.script with
  | [] => if s.busy then s.runBlock else .next s
  | e :: rest => State.perform e { s with script := rest }

/-! ### Host-script statements (30_encoding.md R84 to R86) -/

/-- `wr <addr>, <value>` (R84). -/
def wr (addr v : Word) : List Event := [.txn (.write addr v)]

/-- `rd <addr>` (R84). -/
def rd (addr : Word) : List Event := [.txn (.read addr)]

/-- The word address of `ARGi` (20_memory.md R52). -/
def argAddr (i : Nat) : Word := 0x0000000000000008#64 + BitVec.ofNat 64 i

/-- The word address of `RESi` (20_memory.md R52). -/
def resAddr (i : Nat) : Word := 0x000000000000000C#64 + BitVec.ofNat 64 i

/-- `cmd <MNEMONIC>` (R85). -/
def cmd (i : Instr) : List Event := wr cmdAddr (encode i)

/-- `wait` (R85). -/
def waitIdle : List Event := [.wait]

/-- `ldv [v0, v1, ...]` from cell `i` on (R85). -/
def ldvFrom : Nat → List Word → List Event
  | _, [] => []
  | i, v :: vs => wr (vinAddr i) v ++ ldvFrom (i + 1) vs

/-- `ldv [v0, v1, ...]` (R85). -/
def ldv (vs : List Word) : List Event := ldvFrom 0 vs

/-- `rdv k` (R85). -/
def rdv (k : Nat) : List Event := (List.range k).flatMap fun i => rd (voutAddr i)

/-- `fadd a, b`, `fsub a, b`, `fmul a, b` (R85). -/
def scalarScript (i : Instr) (a b : Word) : List Event :=
  wr (argAddr 0) a ++ wr (argAddr 1) b ++ cmd i ++ waitIdle ++ rd (resAddr 0)

/-- `mulw a, b` (R85). -/
def mulwScript (a b : Word) : List Event := scalarScript .mulw a b ++ rd (resAddr 1)

/-- `fred lo, hi` (R85). -/
def fredScript (lo hi : Word) : List Event := scalarScript .fred lo hi

/-- `finv a` (R85). -/
def finvScript (a : Word) : List Event := wr (argAddr 0) a ++ cmd .finv ++ waitIdle ++ rd (resAddr 0)

/-- `GPU_init(n)` (R86). -/
def gpuInit (n : Word) : List Event := wr (argAddr 0) n ++ cmd .init ++ waitIdle

/-- teardown (R86). -/
def teardownScript : List Event := cmd .teardown ++ waitIdle

/-- `evaluate_poly(n)` (R86). -/
def evaluatePoly (n : Word) : List Event := wr (argAddr 0) n ++ cmd .ntt ++ waitIdle

/-- `evaluate_poly_with_offset(n, h, b, rlen)` (R86). -/
def evaluatePolyWithOffset (n h b rlen : Word) : List Event :=
  wr (argAddr 0) n ++ wr (argAddr 1) h ++ wr (argAddr 2) b ++ wr (argAddr 3) rlen ++ cmd .nttc ++ waitIdle

/-- `interpolate_poly(n)` (R86). -/
def interpolatePoly (n : Word) : List Event := wr (argAddr 0) n ++ cmd .intt ++ waitIdle

/-- `interpolate_poly_with_offset(n, h)` (R86). -/
def interpolatePolyWithOffset (n h : Word) : List Event :=
  wr (argAddr 0) n ++ wr (argAddr 1) h ++ cmd .inttc ++ waitIdle

/-- The script entry through which an instruction reaches `step`: a call of the word whose low `nbits` bits are `w`
and whose other bits are zero (log 4, log 5). -/
def fetchEvent (nbits w : Nat) : Event := .call (BitVec.ofNat 64 (w % 2 ^ nbits))

end Sys2Proof.Machine
end

