-- ==== Sys2Proof/Machine/Step.lean ====
section
/-! DEFINITION. The step function and how an instruction is put where it fetches. -/

namespace Sys2Proof.Machine

/-- One step of the machine. An instance that breaks a constraint of 00_scope.md R4 to R7 is refused
(93_implementation_defined.md U15; log 18). -/
def step (s : State) : Host.Outcome State Fault Refusal :=
  if s.params.wellFormed then s.advance else .refused .parameters

/-- There is no fetch (10_state.md R26): the host pushes commands. The word becomes the script's first entry, so the
very next step runs it (log 4). -/
def State.withFetchWord (s : State) (nbits w : Nat) : State :=
  { s with script := fetchEvent nbits w :: s.script }

end Sys2Proof.Machine
end

