-- ==== Sys2Proof/Safety.lean ====
section
/-! DEFINITION. What claims are stated in: readiness, how a command ends, a good end of a run (70_reset_and_hazards.md
R209), and the invariants of the machine (10_state.md R23, R26, R40). -/

namespace Sys2Proof.Machine

/-- No command is in flight and no fatal fault was taken: a write to CMD issues (30_encoding.md R73). -/
def State.Ready (s : State) : Prop := s.busy = false ∧ s.fault = false

/-- A host script has ended well (70_reset_and_hazards.md R209). -/
def State.EndedWell (s : State) : Prop := s.script = [] ∧ s.busy = false ∧ s.fault = false

/-- What every command that commits leaves of the status and the sequencer (30_encoding.md R73); CUR keeps the opcode
of the last command, the port has answered OK. -/
def State.completed (s : State) (i : Instr) : State :=
  { s with
    busy := false, done := true, fail := false, err := 0#64, cur := i.opcode, phase := .idle, held := .nothing
    response := some ⟨true, 0#64⟩ }

/-- From `s` to `t` everything the host can see, but STATUS and ERR, is as it was (60_exceptions.md R176). -/
structure HostVisibleKept (s t : State) : Prop where
  params : t.params = s.params
  arg0 : t.arg0 = s.arg0
  arg1 : t.arg1 = s.arg1
  arg2 : t.arg2 = s.arg2
  arg3 : t.arg3 = s.arg3
  res0 : t.res0 = s.res0
  res1 : t.res1 = s.res1
  vin : t.vin = s.vin
  vout : t.vout = s.vout
  validBits : t.bundles.map Bundle.valid = s.bundles.map Bundle.valid

/-- `t` is `s` after the fatal path of 60_exceptions.md R174 with this opcode byte and code. -/
structure FatallyEnded (s t : State) (opc code : Byte) : Prop where
  kept : HostVisibleKept s t
  busy : t.busy = false
  done : t.done = false
  fail : t.fail = false
  fault : t.fault = true
  err : t.err = (0#48 ++ opc ++ code : BitVec 64)
  phase : t.phase = .idle

/-- `t` is `s` after the call-failure path of 60_exceptions.md R175 with nothing else changed. -/
structure CallFailed (s t : State) (opc code : Byte) : Prop where
  kept : HostVisibleKept s t
  busy : t.busy = false
  done : t.done = false
  fail : t.fail = true
  fault : t.fault = false
  err : t.err = (0#48 ++ opc ++ code : BitVec 64)
  phase : t.phase = .idle

/-- `VOUT[0..n-1]` holds the vector `x` and every other cell is as in `s`. -/
structure VoutHolds (s t : State) (n : Nat) (x : Nat → Word) : Prop where
  inside : ∀ j, j < n → t.vout.read j = x j
  outside : ∀ j, n ≤ j → t.vout.read j = s.vout.read j

/-- What a transform that commits leaves: DONE, and nothing changed that the host can see but VOUT (42_transform.md
R127). -/
structure TransformKept (s t : State) : Prop where
  params : t.params = s.params
  arg0 : t.arg0 = s.arg0
  arg1 : t.arg1 = s.arg1
  arg2 : t.arg2 = s.arg2
  arg3 : t.arg3 = s.arg3
  res0 : t.res0 = s.res0
  res1 : t.res1 = s.res1
  vin : t.vin = s.vin
  bundles : t.bundles = s.bundles
  busy : t.busy = false
  done : t.done = true
  fail : t.fail = false
  fault : t.fault = false
  err : t.err = 0#64

/-- The fields of bundle `k` hold the values of 41_twiddle_init.md R110 to R115. -/
structure Bundle.Holds (c : Params) (k : Nat) (b : Bundle) : Prop where
  root : b.root = omega c k
  rootinv : b.rootinv = finv c.modulus (omega c k)
  ninv : b.ninv = finv c.modulus (BitVec.ofNat 64 (2 ^ k % c.modulus))
  twf : ∀ j, j < 2 ^ k / 2 → b.twf.read j = fpow c.modulus (omega c k) j
  twi : ∀ j, j < 2 ^ k / 2 → b.twi.read j = fpow c.modulus (finv c.modulus (omega c k)) j
  brev : ∀ i, i < 2 ^ k → b.brev.read i = BitVec.ofNat 64 (bitReverse k i)

/-- The command ends by the fatal path with this code and its own opcode byte (60_exceptions.md R173, R174). -/
def EndsFatally (i : Instr) (s : State) (code : Byte) : Prop :=
  ∃ t, exec i s = .next t ∧ FatallyEnded s t i.opcode code

/-- `n` is a power of two. -/
def IsPow2 (n : Nat) : Prop := ∃ k, n = 2 ^ k

/-- No bundle of size `2^L` is initialised (41_twiddle_init.md R119). -/
def State.Uninit (s : State) (L : Nat) : Prop := s.params.lognMax < L ∨ s.validBit L = false

/-- No device execution failure hits the next transform (60_exceptions.md R179): the premise a claim that a transform
succeeds must state. -/
def State.NoDeviceFailure (s : State) : Prop := s.params.devfail = false ∨ s.devFault = false

/-- Bundle `L` is initialised and holds the values of 41_twiddle_init.md R110 to R115. -/
def State.BundleReady (s : State) (L : Nat) : Prop :=
  L ≤ s.params.lognMax ∧ s.validBit L = true ∧ (s.bundle L).Holds s.params L

/-- The cells `VIN[0..n-1]` are reduced. -/
def State.InputReduced (s : State) (n : Nat) : Prop := ∀ i, i < n → (s.vin.read i).toNat < s.modulus

/-- `(sum over i in 0..m-1 of c[i] · w^(i·j)) mod P` (42_transform.md R125). -/
def forwardSum (P m : Nat) (w : Word) (c : Nat → Word) (j : Nat) : Nat :=
  (∑ i ∈ Finset.range m, (c i).toNat * w.toNat ^ (i * j)) % P

/-- How many steps the micro level takes from issue to completion (70_reset_and_hazards.md R208); one when the check
fails, two when a device failure is pending. -/
def microSteps (i : Instr) (s : State) : Nat :=
  match checkOf i s with
  | some _ => 1
  | none =>
    match kernelOf i s with
    | none => 3
    | some k =>
      if s.devicePending then 2
      else 1 + 1 + k.logSize * (2 ^ k.logSize / 2) + k.logSize + 1 + 1

/-! ### Invariants -/

/-- The tables of a bundle are canonical memories. -/
def Bundle.wf (b : Bundle) : Bool := b.twf.wf && b.twi.wf && b.brev.wf

/-- Every memory is in canonical form. -/
def State.memoriesWf (s : State) : Bool :=
  s.vin.wf && s.vout.wf && s.buf0.wf && s.buf1.wf && s.bundles.all Bundle.wf

/-- No memory lists a cell at or above CAPN (10_state.md R30 to R32). -/
def State.memoriesBelow (s : State) : Bool :=
  s.vin.below s.params.capn && s.vout.below s.params.capn && s.buf0.below s.params.capn
    && s.buf1.below s.params.capn

/-- The sequencer state while command `i` is in flight (10_state.md R26): the phases of its family, and once the check
is passed its conditions still hold, since nothing it reads changes (20_memory.md R58, R68). -/
def State.sequencing (s : State) (i : Instr) : Prop :=
  match s.phase with
  | .idle => False
  | .check => s.held = .nothing
  | .exec => kernelOf i s = none ∧ checkOf i s = none ∧
      (s.held = .nothing ∨ ∃ u, executeOf i s = some u ∧ s.held = u.held)
  | .load => s.held = .nothing ∧ checkOf i s = none ∧ ∃ k, kernelOf i s = some k
  | .stage => s.held = .nothing ∧ checkOf i s = none ∧ (∃ k, kernelOf i s = some k ∧ s.l = k.logSize) ∧
      s.t < s.l ∧ s.sel = decide (s.t % 2 = 1) ∧
      s.doneset.Pairwise (· < ·) ∧ ∀ j ∈ s.doneset, j < 2 ^ s.l / 2
  | .store => checkOf i s = none ∧ (∃ k, kernelOf i s = some k ∧ s.l = k.logSize) ∧
      s.t = s.l ∧ s.sel = decide (s.t % 2 = 1) ∧
      (s.held = .nothing ∨ ∃ out, s.held = .vector out ∧ out.length = 2 ^ s.l)

/-- The structural invariant: canonical and bounded memories, one bundle per `k` in `0..LOGN_MAX` (10_state.md R33),
the legal STATUS combinations (R23), `BUSY = 1` if and only if `PHASE != IDLE` (R40 c), and a legal sequencer state. -/
structure State.Inv (s : State) : Prop where
  canonical : s.memoriesWf = true
  bounded : s.memoriesBelow = true
  registry : s.bundles.length = s.params.lognMax + 1
  busyAlone : s.busy = true → s.done = false ∧ s.fail = false
  doneAlone : s.done = true → s.fail = false
  faultAlone : s.fault = true → s.busy = false ∧ s.done = false ∧ s.fail = false
  busyPhase : s.busy = true ↔ s.phase ≠ .idle
  inFlight : s.busy = true → ∃ i, decodeOpcode s.cur = some i ∧ s.sequencing i

/-- In a state with FAULT = 0 every valid bundle holds its values (10_state.md R40 b), and so does one that waits for
its VALID bit. -/
def State.BundlesInv (s : State) : Prop :=
  s.fault = false →
    (∀ (k : Nat) (b : Bundle), s.bundles[k]? = some b → b.valid = true → b.Holds s.params k) ∧
    (∀ (k : Nat) (b : Bundle), s.held = .validate k → s.bundles[k]? = some b → b.Holds s.params k)

/-- Without device failures every listed cell of VOUT is reduced (10_state.md R40 a), and so is what a transform in
flight will commit. -/
def State.ReducedInv (s : State) : Prop :=
  s.params.devfail = false →
    (∀ i v, cellsGet s.vout.cells i = some v → v.toNat < s.modulus) ∧
    (s.busy = true → s.phase = .stage →
      (∀ i, i < 2 ^ s.l → (s.src.read i).toNat < s.modulus) ∧
      (∀ j ∈ s.doneset, (s.dst.read j).toNat < s.modulus ∧ (s.dst.read (j + 2 ^ s.l / 2)).toNat < s.modulus)) ∧
    (s.busy = true → s.phase = .store → s.held = .nothing →
      ∀ i, i < 2 ^ s.l → (s.src.read i).toNat < s.modulus) ∧
    (∀ out, s.held = .vector out → ∀ v ∈ out, v.toNat < s.modulus)

end Sys2Proof.Machine
end

