-- ==== Sys2Proof/Certificates/Slice0/Obligations.lean ====
section
/-! DEFINITION. The statements for the provers. Each docstring names the rule of spec/ it formalises. A statement about
an instance holds for every value of the open parameters that its premises allow. -/

open Sys2Proof Sys2Proof.Machine

/-! ### Encoding -/

/-- R74: the twelve words, written out, decode to their commands. -/
def Obligations.DecodesTheTwelveWords : Prop :=
  decode 0x0000000000000001#64 = .ok .fadd ∧ decode 0x0000000000000002#64 = .ok .fsub ∧
  decode 0x0000000000000003#64 = .ok .fmul ∧ decode 0x0000000000000004#64 = .ok .mulw ∧
  decode 0x0000000000000005#64 = .ok .fred ∧ decode 0x0000000000000006#64 = .ok .finv ∧
  decode 0x0000000000000010#64 = .ok .init ∧ decode 0x0000000000000011#64 = .ok .teardown ∧
  decode 0x0000000000000020#64 = .ok .ntt ∧ decode 0x0000000000000021#64 = .ok .nttc ∧
  decode 0x0000000000000022#64 = .ok .intt ∧ decode 0x0000000000000023#64 = .ok .inttc

/-- R71, R74, R77: decoding undoes encoding, and a word that decodes is the encoding of its command, so no bit of a
command word is dropped. -/
def Obligations.DecodeEncodeAgree : Prop :=
  (∀ i : Instr, i.wellFormed = true → decode (encode i) = .ok i) ∧
  ∀ (w : Word) (i : Instr), decode w = .ok i → encode i = w

/-- R75, R76: a word with a bit of 63:8 set or with a reserved opcode is illegal, and its write to CMD raises
ILLEGAL_CMD at issue with `ERR[15:8] = w[7:0]`; the write itself answers OK (R73). -/
def Obligations.IllegalWordsFaultAtIssue : Prop :=
  ∀ (s : State) (w : Word) (rest : List Event), s.params.wellFormed = true → s.Ready →
    s.script = .txn (.write 0x000000000000000F#64 w) :: rest →
    (w.toNat / 256 ≠ 0 ∨ w.toNat % 256 = 0x00 ∨ (0x07 ≤ w.toNat % 256 ∧ w.toNat % 256 ≤ 0x0F) ∨
      (0x12 ≤ w.toNat % 256 ∧ w.toNat % 256 ≤ 0x1F) ∨ 0x24 ≤ w.toNat % 256) →
    ∃ t, step s = .next t ∧ FatallyEnded s t (w.extractLsb' 0 8) 0x01#8 ∧ t.response = some ⟨true, 0#64⟩ ∧
      t.script = rest

/-- R70: the HT record of a transaction has RW in bit 128, ADDR in 127:64 and DATA in 63:0 (0 in a read), and reading
the record gives the transaction back. -/
def Obligations.HostTransactionRecordRoundTrip : Prop :=
  (∀ t : Txn, Txn.ofHT t.toHT = some t) ∧
  (∀ addr : Word, (Txn.read addr).toHT.toNat = addr.toNat * 2 ^ 64) ∧
  ∀ addr data : Word, (Txn.write addr data).toHT.toNat = 2 ^ 128 + addr.toNat * 2 ^ 64 + data.toNat

/-! ### The step and the life of a command -/

/-- A step whose script begins with a call of a legal word runs `exec` of its command on the state with that entry
taken; and a table word put by `withFetchWord` is that entry. The call and the script are the model's (log 4, log 5). -/
def Obligations.StepRunsTheDecodedCommand : Prop :=
  (∀ (s : State) (w : Word) (i : Instr) (rest : List Event), s.params.wellFormed = true →
    s.script = .call w :: rest → decode w = .ok i → step s = exec i { s with script := rest }) ∧
  ∀ (s : State) (w : Nat) (i : Instr), s.params.wellFormed = true → decodeTableWord 64 w = some i →
    step (s.withFetchWord 64 w) = exec i s

/-- R73 step 1: a write of a legal word to CMD while BUSY = 0 and FAULT = 0 answers OK and issues:
`DONE <- 0; FAIL <- 0; ERR <- 0; BUSY <- 1; CUR <- w[7:0]; PHASE <- CHECK`, and nothing else changes but that no result
is held (log 8). -/
def Obligations.CommandWriteIssues : Prop :=
  ∀ (s : State) (w : Word) (i : Instr) (rest : List Event), s.params.wellFormed = true → s.Ready →
    s.script = .txn (.write 0x000000000000000F#64 w) :: rest → decode w = .ok i →
    step s = .next { s with
      done := false, fail := false, err := 0#64, busy := true, cur := w.extractLsb' 0 8, phase := .check
      held := .nothing, response := some ⟨true, 0#64⟩, script := rest }

/-- R58, R59 of a command given to the block while it is not ready: `exec` answers ERR and changes nothing while
FAULT = 1, and takes BUSY_ACCESS (opcode byte 0) while BUSY = 1. -/
def Obligations.CommandOnUnreadyBlock : Prop :=
  ∀ (i : Instr) (s : State),
    (s.fault = true → exec i s = .next { s with response := some ⟨false, 0#64⟩ }) ∧
    (s.fault = false → s.busy = true →
      ∃ t, exec i s = .next t ∧ FatallyEnded s t 0x00#8 0x08#8 ∧ t.response = some ⟨false, 0#64⟩)

/-! ### Field arithmetic -/

/-- R98: FADD. -/
def Obligations.FaddAddsModuloP : Prop :=
  encode .fadd = 0x0000000000000001#64 ∧ ∀ s : State, s.Ready →
    (s.arg0.toNat < s.modulus → s.arg1.toNat < s.modulus →
      exec .fadd s = .next { s.completed .fadd with
        res0 := BitVec.ofNat 64 ((s.arg0.toNat + s.arg1.toNat) % s.modulus) }) ∧
    (s.modulus ≤ s.arg0.toNat ∨ s.modulus ≤ s.arg1.toNat → EndsFatally .fadd s 0x06#8)

/-- R99: FSUB. -/
def Obligations.FsubSubtractsModuloP : Prop :=
  encode .fsub = 0x0000000000000002#64 ∧ ∀ s : State, s.Ready →
    (s.arg0.toNat < s.modulus → s.arg1.toNat < s.modulus →
      exec .fsub s = .next { s.completed .fsub with
        res0 := BitVec.ofNat 64 ((s.arg0.toNat + (s.modulus - s.arg1.toNat)) % s.modulus) }) ∧
    (s.modulus ≤ s.arg0.toNat ∨ s.modulus ≤ s.arg1.toNat → EndsFatally .fsub s 0x06#8)

/-- R100: FMUL. -/
def Obligations.FmulMultipliesModuloP : Prop :=
  encode .fmul = 0x0000000000000003#64 ∧ ∀ s : State, s.Ready →
    (s.arg0.toNat < s.modulus → s.arg1.toNat < s.modulus →
      exec .fmul s = .next { s.completed .fmul with
        res0 := BitVec.ofNat 64 (s.arg0.toNat * s.arg1.toNat % s.modulus) }) ∧
    (s.modulus ≤ s.arg0.toNat ∨ s.modulus ≤ s.arg1.toNat → EndsFatally .fmul s 0x06#8)

/-- R101: MULW, on any words. -/
def Obligations.MulwGivesTheWholeProduct : Prop :=
  encode .mulw = 0x0000000000000004#64 ∧ ∀ s : State, s.Ready →
    exec .mulw s = .next { s.completed .mulw with
      res0 := BitVec.ofNat 64 (s.arg0.toNat * s.arg1.toNat % 2 ^ 64)
      res1 := BitVec.ofNat 64 (s.arg0.toNat * s.arg1.toNat / 2 ^ 64) }

/-- R102: FRED, on any words. -/
def Obligations.FredReduces : Prop :=
  encode .fred = 0x0000000000000005#64 ∧ ∀ s : State, s.Ready →
    exec .fred s = .next { s.completed .fred with
      res0 := BitVec.ofNat 64 ((s.arg1.toNat * 2 ^ 64 + s.arg0.toNat) % s.modulus) }

/-- R103: FINV gives the one reduced word that multiplies with the operand to 1; an unreduced operand raises UNREDUCED
first, then a zero operand raises INV_ZERO. -/
def Obligations.FinvInverts : Prop :=
  encode .finv = 0x0000000000000006#64 ∧ ∀ s : State, s.Ready →
    (s.params.Conforms → s.arg0.toNat < s.modulus → s.arg0 ≠ 0#64 →
      ∃ y : Word, exec .finv s = .next { s.completed .finv with res0 := y } ∧
        y.toNat < s.modulus ∧ s.arg0.toNat * y.toNat % s.modulus = 1 ∧
        ∀ z : Word, z.toNat < s.modulus → s.arg0.toNat * z.toNat % s.modulus = 1 → z = y) ∧
    (s.modulus ≤ s.arg0.toNat → EndsFatally .finv s 0x06#8) ∧
    (s.arg0 = 0#64 → 0 < s.modulus → EndsFatally .finv s 0x05#8)

/-- R96: `fpow(a, e) = a^e mod P` for every exponent, with the square-and-multiply equations. -/
def Obligations.FpowIsPower : Prop :=
  ∀ (P : Nat) (a : Word) (e : Nat), 1 < P → P < 2 ^ 64 → a.toNat < P →
    (fpow P a e).toNat = a.toNat ^ e % P ∧ fpow P a 0 = 1#64 ∧
    fpow P a (2 * e) = fpow P (fmul P a a) e ∧
    fpow P a (2 * e + 1) = fmul P a (fpow P (fmul P a a) e)

/-- R97: for a prime `P` and `0 < a < P`, `finv(a)` is the unique `y < P` with `fmul(a, y) = 1`, and is
`fpow(a, P - 2)`. -/
def Obligations.FinvIsTheUniqueInverse : Prop :=
  ∀ (c : Params) (a : Word), c.Conforms → 0 < a.toNat → a.toNat < c.modulus →
    (finv c.modulus a).toNat < c.modulus ∧ fmul c.modulus a (finv c.modulus a) = 1#64 ∧
    finv c.modulus a = fpow c.modulus a (c.modulus - 2) ∧
    ∀ y : Word, y.toNat < c.modulus → fmul c.modulus a y = 1#64 → y = finv c.modulus a

/-- The laws of R104: commutative, associative, distributive, the identities, inverses, and the extreme values. -/
def Obligations.FieldLaws : Prop :=
  ∀ (C : Params) (a b c : Word), C.Conforms → a.toNat < C.modulus → b.toNat < C.modulus → c.toNat < C.modulus →
    let P := C.modulus
    let top : Word := BitVec.ofNat 64 (P - 1)
    fadd P a b = fadd P b a ∧ fadd P (fadd P a b) c = fadd P a (fadd P b c) ∧
    fmul P a b = fmul P b a ∧ fmul P (fmul P a b) c = fmul P a (fmul P b c) ∧
    fmul P a (fadd P b c) = fadd P (fmul P a b) (fmul P a c) ∧
    fadd P a 0#64 = a ∧ fmul P a 1#64 = a ∧ fmul P a 0#64 = 0#64 ∧
    fsub P a b = fadd P a (fsub P 0#64 b) ∧ fsub P a a = 0#64 ∧ fadd P (fsub P a b) b = a ∧
    (a ≠ 0#64 → fmul P a (finv P a) = 1#64) ∧
    (fadd P top top).toNat = P - 2 ∧ fadd P top 1#64 = 0#64 ∧ fsub P 0#64 1#64 = top ∧
    fsub P 0#64 top = 1#64 ∧ fmul P top top = 1#64 ∧ finv P 1#64 = 1#64 ∧ finv P top = top

/-! ### Tables -/

/-- R110: `omega_k` has order exactly `2^k`, with the consequences the rule lists. -/
def Obligations.RootOfUnityHasItsOrder : Prop :=
  ∀ (c : Params) (k : Nat), c.Conforms → k ≤ c.lognMax →
    (omega c k).toNat = c.g.toNat ^ ((c.modulus - 1) / 2 ^ k) % c.modulus ∧
    (omega c k).toNat ^ 2 ^ k % c.modulus = 1 ∧
    (∀ e, 0 < e → e < 2 ^ k → (omega c k).toNat ^ e % c.modulus ≠ 1) ∧
    (1 ≤ k → (omega c k).toNat ^ 2 ^ (k - 1) % c.modulus = c.modulus - 1) ∧
    omega c 0 = 1#64 ∧
    (∀ d, k + d ≤ c.lognMax → (omega c (k + d)).toNat ^ 2 ^ d % c.modulus = (omega c k).toNat)

/-- R111, R112, R114: the inverse root is `omega_k^(2^k - 1)`, `NINV[k]` inverts `2^k`, and the two tables are inverse
entry by entry. -/
def Obligations.InverseTablesInvert : Prop :=
  ∀ (c : Params) (k : Nat) (b : Bundle), c.Conforms → k ≤ c.lognMax → b.Holds c k →
    fmul c.modulus b.root b.rootinv = 1#64 ∧
    b.rootinv.toNat = (omega c k).toNat ^ (2 ^ k - 1) % c.modulus ∧
    2 ^ k * b.ninv.toNat % c.modulus = 1 ∧
    ∀ j, j < 2 ^ k / 2 → fmul c.modulus (b.twf.read j) (b.twi.read j) = 1#64

/-- R115: `k`-bit reversal reverses the bits and is an involution. -/
def Obligations.BitReversalIsAnInvolution : Prop :=
  ∀ k i : Nat, i < 2 ^ k →
    bitReverse k i < 2 ^ k ∧ bitReverse k (bitReverse k i) = i ∧
    ∀ b, b < k → (bitReverse k i).testBit (k - 1 - b) = i.testBit b

/-- R116: INIT. `n` not a power of two (0 among them) is NOT_POW2; a size above `2^LOGN_MAX` is the call failure
CAPACITY with no other change; otherwise bundle `log2 n` gets the values of R110 to R115 and its VALID bit, and nothing
else changes. -/
def Obligations.InitBuildsItsBundle : Prop :=
  encode .init = 0x0000000000000010#64 ∧ ∀ s : State, s.Ready → s.bundles.length = s.params.lognMax + 1 →
    (¬ IsPow2 s.arg0.toNat → EndsFatally .init s 0x02#8) ∧
    (∀ k, s.arg0.toNat = 2 ^ k → s.params.lognMax < k →
      ∃ t, exec .init s = .next t ∧ CallFailed s t 0x10#8 0x10#8 ∧ t.bundles = s.bundles) ∧
    ∀ k, s.arg0.toNat = 2 ^ k → k ≤ s.params.lognMax →
      ∃ bs b, exec .init s = .next { s.completed .init with bundles := bs } ∧
        bs.length = s.bundles.length ∧ bs[k]? = some b ∧ b.valid = true ∧ b.Holds s.params k ∧
        ∀ j, j ≠ k → bs[j]? = s.bundles[j]?

/-- R117: a repeated INIT of a size rewrites the same values: the second run changes nothing at all. -/
def Obligations.InitIsIdempotent : Prop :=
  ∀ s t : State, s.Inv → s.Ready → s.arg0.toNat = 2 ^ Nat.log2 s.arg0.toNat →
    Nat.log2 s.arg0.toNat ≤ s.params.lognMax → exec .init s = .next t → exec .init t = .next t

/-- R118: TEARDOWN clears every VALID bit, makes the other bundle fields unspecified bits, and changes nothing else; after
it every transform whose earlier checks pass raises UNINIT (R119). That unspecified bits are free words, of four new draws
for each bundle, is the model's choice (log 3). -/
def Obligations.TeardownInvalidatesEveryBundle : Prop :=
  encode .teardown = 0x0000000000000011#64 ∧ ∀ s : State, s.Ready →
    ∃ t, exec .teardown s = .next t ∧
      t = { s.completed .teardown with
        bundles := bundlesUnspecified s.bundles.length s.draws, draws := s.draws + 4 * s.bundles.length } ∧
      (∀ b ∈ t.bundles, b.valid = false) ∧ t.validWord = 0#64 ∧
      (IsPow2 s.arg0.toNat →
        EndsFatally .ntt t 0x03#8 ∧ EndsFatally .intt t 0x03#8 ∧ EndsFatally .inttc t 0x03#8) ∧
      (IsPow2 s.arg0.toNat → IsPow2 (s.arg0.toNat * s.arg2.toNat) → s.arg0.toNat * s.arg2.toNat < 2 ^ 64 →
        s.arg3.toNat = s.arg0.toNat * s.arg2.toNat → EndsFatally .nttc t 0x03#8)

/-! ### Transforms: checks -/

/-- R129, R177: the ordered checks of NTT and INTT. -/
def Obligations.NttAndInttCheckInOrder : Prop :=
  ∀ s : State, s.Ready → ∀ i : Instr, i = .ntt ∨ i = .intt →
    (¬ IsPow2 s.arg0.toNat → EndsFatally i s 0x02#8) ∧
    ∀ L, s.arg0.toNat = 2 ^ L →
      (s.Uninit L → EndsFatally i s 0x03#8) ∧
      (¬ s.Uninit L → (∃ j, j < s.arg0.toNat ∧ s.modulus ≤ (s.vin.read j).toNat) → EndsFatally i s 0x06#8)

/-- R152, R177: the ordered checks of NTTC. -/
def Obligations.NttcChecksInOrder : Prop :=
  ∀ s : State, s.Ready →
    let n := s.arg0.toNat
    let m := s.arg0.toNat * s.arg2.toNat
    (¬ IsPow2 n → EndsFatally .nttc s 0x02#8) ∧
    (IsPow2 n → 2 ^ 64 ≤ m ∨ ¬ IsPow2 m → EndsFatally .nttc s 0x02#8) ∧
    ∀ L, IsPow2 n → m = 2 ^ L → m < 2 ^ 64 →
      (s.arg3.toNat ≠ m → EndsFatally .nttc s 0x04#8) ∧
      (s.arg3.toNat = m → s.Uninit L → EndsFatally .nttc s 0x03#8) ∧
      (s.arg3.toNat = m → ¬ s.Uninit L → s.modulus ≤ s.arg1.toNat → EndsFatally .nttc s 0x06#8) ∧
      (s.arg3.toNat = m → ¬ s.Uninit L → 0 < s.modulus → s.arg1 = 0#64 → EndsFatally .nttc s 0x07#8) ∧
      (s.arg3.toNat = m → ¬ s.Uninit L → s.arg1.toNat < s.modulus → s.arg1 ≠ 0#64 →
        (∃ j, j < n ∧ s.modulus ≤ (s.vin.read j).toNat) → EndsFatally .nttc s 0x06#8)

/-- R155, R177: the ordered checks of INTTC. -/
def Obligations.InttcChecksInOrder : Prop :=
  ∀ s : State, s.Ready →
    (¬ IsPow2 s.arg0.toNat → EndsFatally .inttc s 0x02#8) ∧
    ∀ L, s.arg0.toNat = 2 ^ L →
      (s.Uninit L → EndsFatally .inttc s 0x03#8) ∧
      (¬ s.Uninit L → s.modulus ≤ s.arg1.toNat → EndsFatally .inttc s 0x06#8) ∧
      (¬ s.Uninit L → 0 < s.modulus → s.arg1 = 0#64 → EndsFatally .inttc s 0x07#8) ∧
      (¬ s.Uninit L → s.arg1.toNat < s.modulus → s.arg1 ≠ 0#64 →
        (∃ j, j < s.arg0.toNat ∧ s.modulus ≤ (s.vin.read j).toNat) → EndsFatally .inttc s 0x06#8)

/-! ### Transforms: results -/

/-- R127 by the pipeline of R130 to R139: NTT commits the last stage's buffer, whatever the tables hold, and changes
nothing else the host can see. -/
def Obligations.NttCompletes : Prop :=
  ∀ (s : State) (L : Nat), s.Ready → s.arg0.toNat = 2 ^ L → ¬ s.Uninit L → s.InputReduced (2 ^ L) →
    s.NoDeviceFailure →
    ∃ t, exec .ntt s = .next t ∧ TransformKept s t ∧
      VoutHolds s t (2 ^ L) (stockham s.modulus (s.bundle L).twf.read L L s.vin.read)

/-- R128 by the pipeline of R130 to R139: INTT, with the inverse table and the rescale by `NINV[L]`. -/
def Obligations.InttCompletes : Prop :=
  ∀ (s : State) (L : Nat), s.Ready → s.arg0.toNat = 2 ^ L → ¬ s.Uninit L → s.InputReduced (2 ^ L) →
    s.NoDeviceFailure →
    ∃ t, exec .intt s = .next t ∧ TransformKept s t ∧
      VoutHolds s t (2 ^ L) (fun i =>
        fmul s.modulus (stockham s.modulus (s.bundle L).twi.read L L s.vin.read i) (s.bundle L).ninv)

/-- R152, R153 by the pipeline: NTTC, with the shifted, zero-padded input. -/
def Obligations.NttcCompletes : Prop :=
  ∀ (s : State) (L : Nat), s.Ready → IsPow2 s.arg0.toNat → s.arg0.toNat * s.arg2.toNat = 2 ^ L →
    2 ^ L < 2 ^ 64 → s.arg3.toNat = 2 ^ L → ¬ s.Uninit L → s.arg1.toNat < s.modulus → s.arg1 ≠ 0#64 →
    s.InputReduced s.arg0.toNat → s.NoDeviceFailure →
    ∃ t, exec .nttc s = .next t ∧ TransformKept s t ∧
      VoutHolds s t (2 ^ L) (stockham s.modulus (s.bundle L).twf.read L L (fun i =>
        if i < s.arg0.toNat then fmul s.modulus (s.vin.read i) (fpow s.modulus s.arg1 i) else 0#64))

/-- R155 by the pipeline: INTTC, with the rescale and the inverse offset powers on the output. -/
def Obligations.InttcCompletes : Prop :=
  ∀ (s : State) (L : Nat), s.Ready → s.arg0.toNat = 2 ^ L → ¬ s.Uninit L → s.arg1.toNat < s.modulus →
    s.arg1 ≠ 0#64 → s.InputReduced (2 ^ L) → s.NoDeviceFailure →
    ∃ t, exec .inttc s = .next t ∧ TransformKept s t ∧
      VoutHolds s t (2 ^ L) (fun i =>
        fmul s.modulus
          (fmul s.modulus (stockham s.modulus (s.bundle L).twi.read L L s.vin.read i) (s.bundle L).ninv)
          (fpow s.modulus (finv s.modulus s.arg1) i))

/-- R148: with the powers of a root `w` of order exactly `2^L` as table, the Stockham stages compute the forward sum of
R125. -/
def Obligations.StockhamIsTheForwardSum : Prop :=
  ∀ (c : Params) (L : Nat) (w : Word) (f : Nat → Word), c.Conforms → L ≤ 62 → w.toNat < c.modulus →
    w.toNat ^ 2 ^ L % c.modulus = 1 → (1 ≤ L → w.toNat ^ 2 ^ (L - 1) % c.modulus = c.modulus - 1) →
    (∀ i, i < 2 ^ L → (f i).toNat < c.modulus) →
    ∀ j, j < 2 ^ L →
      (stockham c.modulus (fpow c.modulus w) L L f j).toNat = forwardSum c.modulus (2 ^ L) w f j

/-- R125, R127: NTT evaluates the polynomial with coefficients `VIN[0..n-1]` at the powers of `omega_L`, in natural
order. -/
def Obligations.NttEvaluatesAtRootPowers : Prop :=
  ∀ (s : State) (L : Nat), s.params.Conforms → s.Ready → s.arg0.toNat = 2 ^ L → s.BundleReady L →
    s.InputReduced (2 ^ L) → s.NoDeviceFailure →
    ∃ t, exec .ntt s = .next t ∧ TransformKept s t ∧
      (∀ j, j < 2 ^ L →
        (t.vout.read j).toNat = forwardSum s.modulus (2 ^ L) (omega s.params L) s.vin.read j) ∧
      ∀ j, 2 ^ L ≤ j → t.vout.read j = s.vout.read j

/-- R126, R128: INTT multiplies the inverse sum by the inverse of the size. -/
def Obligations.InttInterpolates : Prop :=
  ∀ (s : State) (L : Nat), s.params.Conforms → s.Ready → s.arg0.toNat = 2 ^ L → s.BundleReady L →
    s.InputReduced (2 ^ L) → s.NoDeviceFailure →
    ∃ t, exec .intt s = .next t ∧ TransformKept s t ∧
      (∀ i, i < 2 ^ L → (t.vout.read i).toNat =
        (s.bundle L).ninv.toNat *
          forwardSum s.modulus (2 ^ L) (s.bundle L).rootinv s.vin.read i % s.modulus) ∧
      ∀ i, 2 ^ L ≤ i → t.vout.read i = s.vout.read i

/-- R151, R152, R153: NTTC evaluates the same polynomial on the coset `h·omega_L^j`, padding at the high end. -/
def Obligations.NttcEvaluatesOnTheCoset : Prop :=
  ∀ (s : State) (L : Nat), s.params.Conforms → s.Ready → IsPow2 s.arg0.toNat →
    s.arg0.toNat * s.arg2.toNat = 2 ^ L → s.arg3.toNat = 2 ^ L → s.BundleReady L →
    s.arg1.toNat < s.modulus → s.arg1 ≠ 0#64 → s.InputReduced s.arg0.toNat → s.NoDeviceFailure →
    ∃ t, exec .nttc s = .next t ∧ TransformKept s t ∧
      (∀ j, j < 2 ^ L → (t.vout.read j).toNat =
        (∑ i ∈ Finset.range s.arg0.toNat,
          (s.vin.read i).toNat * s.arg1.toNat ^ i * (omega s.params L).toNat ^ (i * j)) % s.modulus) ∧
      ∀ j, 2 ^ L ≤ j → t.vout.read j = s.vout.read j

/-- R149 (1): INTT of what NTT wrote, copied to VIN by the host, gives the coefficients back. -/
def Obligations.InttUndoesNtt : Prop :=
  ∀ (s t : State) (v : Memory) (L : Nat), s.params.Conforms → s.Ready → s.arg0.toNat = 2 ^ L → s.BundleReady L →
    s.InputReduced (2 ^ L) → s.NoDeviceFailure → exec .ntt s = .next t →
    (∀ i, i < 2 ^ L → v.read i = t.vout.read i) →
    ∃ u, exec .intt { t with vin := v } = .next u ∧ ∀ i, i < 2 ^ L → u.vout.read i = s.vin.read i

/-- R156: INTTC at the size of the result undoes NTTC with the same offset, whatever the blow-up: the coefficients come
back followed by zeros. -/
def Obligations.InttcUndoesNttc : Prop :=
  ∀ (s t : State) (v : Memory) (L : Nat), s.params.Conforms → s.Ready → IsPow2 s.arg0.toNat →
    s.arg0.toNat * s.arg2.toNat = 2 ^ L → s.arg3.toNat = 2 ^ L → s.BundleReady L →
    s.arg1.toNat < s.modulus → s.arg1 ≠ 0#64 → s.InputReduced s.arg0.toNat → s.NoDeviceFailure →
    exec .nttc s = .next t → (∀ i, i < 2 ^ L → v.read i = t.vout.read i) →
    ∃ u, exec .inttc { t with vin := v, arg0 := t.arg3 } = .next u ∧
      ∀ i, i < 2 ^ L → u.vout.read i = if i < s.arg0.toNat then s.vin.read i else 0#64

/-- R149 (2): the transform of an element-wise sum is the element-wise sum of the transforms. -/
def Obligations.NttIsLinear : Prop :=
  ∀ (s t1 t2 t3 : State) (v1 v2 v3 : Memory) (L : Nat), s.params.Conforms → s.Ready → s.arg0.toNat = 2 ^ L →
    s.BundleReady L → s.NoDeviceFailure →
    (∀ i, i < 2 ^ L → (v1.read i).toNat < s.modulus ∧ (v2.read i).toNat < s.modulus ∧
      v3.read i = fadd s.modulus (v1.read i) (v2.read i)) →
    exec .ntt { s with vin := v1 } = .next t1 → exec .ntt { s with vin := v2 } = .next t2 →
    exec .ntt { s with vin := v3 } = .next t3 →
    ∀ j, j < 2 ^ L → t3.vout.read j = fadd s.modulus (t1.vout.read j) (t2.vout.read j)

/-- R157: every `b`-th output of a blown-up NTTC is the output without blow-up. -/
def Obligations.BlowupSelection : Prop :=
  ∀ (s t t1 : State) (L M : Nat), s.params.Conforms → s.Ready → s.arg0.toNat = 2 ^ M →
    s.arg0.toNat * s.arg2.toNat = 2 ^ L → s.arg3.toNat = 2 ^ L → s.BundleReady L → s.BundleReady M →
    s.arg1.toNat < s.modulus → s.arg1 ≠ 0#64 → s.InputReduced (2 ^ M) → s.NoDeviceFailure →
    exec .nttc s = .next t → exec .nttc { s with arg2 := 1#64, arg3 := s.arg0 } = .next t1 →
    ∀ j, j < 2 ^ M → t.vout.read (s.arg2.toNat * j) = t1.vout.read j

/-- R158: with offset 1 (and blow-up 1, result length `n`) NTTC writes what NTT writes, and INTTC what INTT writes. -/
def Obligations.IdentityOffsetIsNoOffset : Prop :=
  ∀ (s : State) (L : Nat), s.params.Conforms → s.Ready → s.arg0.toNat = 2 ^ L → s.BundleReady L → s.arg1 = 1#64 →
    s.InputReduced (2 ^ L) → s.NoDeviceFailure →
    (s.arg2 = 1#64 → s.arg3 = s.arg0 →
      ∃ t u, exec .nttc s = .next t ∧ exec .ntt s = .next u ∧ t.vout = u.vout) ∧
    ∃ t u, exec .inttc s = .next t ∧ exec .intt s = .next u ∧ t.vout = u.vout

/-- R141: a transform of size 1 copies `VIN[0]` to `VOUT[0]`. -/
def Obligations.SizeOneCopies : Prop :=
  ∀ s : State, s.params.Conforms → s.Ready → s.arg0 = 1#64 → s.BundleReady 0 → s.InputReduced 1 →
    s.NoDeviceFailure → ∀ i : Instr, i = .ntt ∨ i = .intt →
    ∃ t, exec i s = .next t ∧ TransformKept s t ∧ t.vout.read 0 = s.vin.read 0 ∧
      ∀ j, 1 ≤ j → t.vout.read j = s.vout.read j

/-- R179: a device execution failure ends any transform that has passed its check: FAIL, `ERR = opc·256 + 0x11`, the
result cells unspecified (free words of a new draw), and nothing else the host can see changed, so the call may be retried. -/
def Obligations.DeviceFailureEndsATransform : Prop :=
  ∀ (i : Instr) (s : State) (k : Kernel), s.Ready → checkOf i s = none → kernelOf i s = some k →
    s.params.devfail = true → s.devFault = true →
    ∃ t, exec i s = .next t ∧ t.Ready ∧ t.fail = true ∧ t.done = false ∧
      t.err = (0#48 ++ i.opcode ++ 0x11#8 : BitVec 64) ∧ t.phase = .idle ∧
      (∀ j, j < 2 ^ k.logSize → t.vout.read j = Config.freeWord s.draws j) ∧
      (∀ j, 2 ^ k.logSize ≤ j → t.vout.read j = s.vout.read j) ∧
      t.vin = s.vin ∧ t.bundles = s.bundles ∧ t.params = s.params ∧ t.arg0 = s.arg0 ∧ t.arg1 = s.arg1 ∧
      t.arg2 = s.arg2 ∧ t.arg3 = s.arg3 ∧ t.res0 = s.res0 ∧ t.res1 = s.res1 ∧ t.devFault = false

/-! ### The micro level -/

/-- R133: butterfly `j` is enabled exactly when PHASE = STAGE, `j < m/2` and `j` is not in DONESET; it writes
`a + t·b` to cell `j` and `a - t·b` to cell `j + m/2` of the destination, adds `j` to DONESET, and changes nothing
else. -/
def Obligations.ButterflyStepRule : Prop :=
  ∀ (s : State) (j : Nat), s.Inv → s.busy = true →
    ((∃ s', s.coreStep j = some s') ↔ s.phase = .stage ∧ j < 2 ^ s.l / 2 ∧ j ∉ s.doneset) ∧
    ∀ (s' : State) (i : Instr) (k : Kernel), s.coreStep j = some s' → decodeOpcode s.cur = some i →
      kernelOf i s = some k →
      let e := j - j % 2 ^ (s.l - 1 - s.t)
      let a := s.src.read (j + e)
      let tb := fmul s.modulus (if k.inverse then (s.bundle s.l).twi.read e else (s.bundle s.l).twf.read e)
        (s.src.read (j + e + 2 ^ (s.l - 1 - s.t)))
      s'.dst.read j = fadd s.modulus a tb ∧ s'.dst.read (j + 2 ^ s.l / 2) = fsub s.modulus a tb ∧
      (∀ x, x ≠ j → x ≠ j + 2 ^ s.l / 2 → s'.dst.read x = s.dst.read x) ∧ s'.src = s.src ∧
      (∀ x, x ∈ s'.doneset ↔ x = j ∨ x ∈ s.doneset) ∧
      s' = { s with buf0 := s'.buf0, buf1 := s'.buf1, doneset := s'.doneset }

/-- R135: in a stage, with no device failure pending, the sequencer's only step is the barrier, enabled exactly when
every butterfly of the stage is done. -/
def Obligations.BarrierStepRule : Prop :=
  ∀ s : State, s.Inv → s.phase = .stage → s.NoDeviceFailure →
    ((∃ s', s.seqStep = some s') ↔ ∀ j, j < 2 ^ s.l / 2 → j ∈ s.doneset) ∧
    ∀ s', s.seqStep = some s' →
      s' = { s with sel := !s.sel, t := s.t + 1, doneset := [], phase := if s.t + 1 = s.l then .store else .stage }

/-- R136, R137: however the butterflies of a stage are ordered and grouped into rounds of at most LANES, the state
after the barrier is the same: the one `wholeStage` computes from the source buffer. -/
def Obligations.ButterflyOrderIsIrrelevant : Prop :=
  ∀ (s : State) (i : Instr) (k : Kernel) (rounds : List (List Nat)), s.Inv → s.busy = true → s.phase = .stage →
    s.doneset = [] → decodeOpcode s.cur = some i → kernelOf i s = some k →
    (∀ js ∈ rounds, js.length ≤ s.params.lanes) → rounds.flatten.Perm (List.range (2 ^ s.l / 2)) →
    (rounds.foldl State.coreRound s).stageDone = true ∧
    (rounds.foldl State.coreRound s).barrierStep = s.wholeStage k.inverse

/-- R63: while the command stays in flight no step of the sequencer or of a butterfly core changes anything the host can
see; all of it happens in the step that clears BUSY. -/
def Obligations.CommandsCommitAtomically : Prop :=
  ∀ s s' : State, s.busy = true → (s.seqStep = some s' ∨ ∃ j, s.coreStep j = some s') → s'.busy = true →
    HostVisibleKept s s' ∧ s'.done = s.done ∧ s'.fail = s.fail ∧ s'.fault = s.fault ∧ s'.err = s.err

/-- R10, R85, R148, R208: writing a command to CMD and waiting takes exactly the steps R208 counts and ends in the state
`exec` gives at once, the last read of STATUS apart. -/
def Obligations.TheTwoLevelsAgree : Prop :=
  ∀ (s : State) (i : Instr), s.params.wellFormed = true → s.Inv → s.Ready → s.script = [] →
    ∃ u, exec i s = .next u ∧
      Host.Core.run core (1 + microSteps i s + 1)
          ({ s with script := [.txn (.write 0x000000000000000F#64 (encode i)), .wait] } : State) =
        .next ({ u with response := some ⟨true, u.statusWord⟩ } : State)

/-- R137, R148: every schedule of sequencer and core steps that completes the command ends in the state `exec`
gives. -/
def Obligations.EveryScheduleAgreesWithExec : Prop :=
  ∀ (s t : State) (i : Instr) (moves : List Event), s.params.wellFormed = true → s.Inv → s.Ready →
    (∀ e ∈ moves, e = .seq ∨ ∃ js, e = .cores js) →
    Host.Core.run core (1 + moves.length)
        ({ s with script := .txn (.write 0x000000000000000F#64 (encode i)) :: moves } : State) = .next t →
    t.busy = false → exec i ({ s with script := [] } : State) = .next t

/-! ### Invariants -/

/-- The structural invariant (R23, R26, R33, R40 c and the canonical form of the memories, log 1) holds after reset for
every instance, with the other two. -/
def Obligations.ResetMeetsTheInvariants : Prop :=
  (∀ (c : Params) (d : Nat), (State.resetOf c d).Inv ∧ (State.resetOf c d).BundlesInv ∧
    (State.resetOf c d).ReducedInv) ∧ State.reset.Inv ∧ State.reset.params.wellFormed = true

/-- Every step keeps the structural invariant. -/
def Obligations.StepKeepsInv : Prop :=
  ∀ s s' : State, s.Inv → step s = .next s' → s'.Inv

/-- R37, R40 (b): every step keeps each valid bundle at the values of R110 to R115. -/
def Obligations.StepKeepsBundles : Prop :=
  ∀ s s' : State, s.Inv → s.BundlesInv → step s = .next s' → s'.BundlesInv

/-- R40 (a): without device failures every step keeps the cells of VOUT that a transform has written reduced. -/
def Obligations.StepKeepsResultsReduced : Prop :=
  ∀ s s' : State, s.params.Conforms → s.Inv → s.ReducedInv → step s = .next s' → s'.ReducedInv

/-- R4 to R7, U15: a step refuses exactly the instances that break a constraint (`P` not prime or at most `2^63`, `G`
not of order `P - 1`, a `LOGN_MAX` or `LANES` out of range). R182 in the model's terms: in a conforming instance, from a
state that meets the invariant, a step never stops the model (log 18, log 20). -/
def Obligations.StepNeverSticks : Prop :=
  (∀ s : State, step s = .refused .parameters ↔ ¬ s.params.Conforms) ∧
  ∀ s : State, s.params.Conforms → s.Inv → ∃ s', step s = .next s'

/-- R59, R174: while FAULT = 1 no step but reset changes any state of the block, and every write answers ERR. The
fields `script`, `response` and `devFault` are the model's (log 4, log 13, log 10). -/
def Obligations.FaultIsStickyUntilReset : Prop :=
  ∀ s s' : State, s.Inv → s.fault = true → step s = .next s' → (∀ rest, s.script ≠ .rst :: rest) →
    s' = { s with script := s'.script, response := s'.response, devFault := s'.devFault } ∧
    ∀ a v rest, s.script = .txn (.write a v) :: rest → s'.response = some ⟨false, 0#64⟩

/-! ### The port -/

/-- R52, R53, R60: what a read of each readable register, and of a cell of VIN or VOUT below CAPN, gives in an idle
block (FAULT set or not), and nothing but the response changes. -/
def Obligations.PortReads : Prop :=
  (∀ (s : State) (addr v : Word) (rest : List Event), s.params.wellFormed = true → s.busy = false →
    s.script = .txn (.read addr) :: rest →
    ((addr = 0x0#64 ∧ v = s.statusWord) ∨ (addr = 0x1#64 ∧ v = s.err) ∨ (addr = 0x2#64 ∧ v = s.validWord) ∨
      (addr = 0x3#64 ∧ v = s.params.capWord) ∨ (addr = 0x4#64 ∧ v = s.params.p) ∨ (addr = 0x5#64 ∧ v = s.params.g) ∨
      (addr = 0x8#64 ∧ v = s.arg0) ∨ (addr = 0x9#64 ∧ v = s.arg1) ∨ (addr = 0xA#64 ∧ v = s.arg2) ∨
      (addr = 0xB#64 ∧ v = s.arg3) ∨ (addr = 0xC#64 ∧ v = s.res0) ∨ (addr = 0xD#64 ∧ v = s.res1)) →
    step s = .next { s with response := some ⟨true, v⟩, script := rest }) ∧
  ∀ (s : State) (j : Nat) (rest : List Event), s.params.wellFormed = true → s.busy = false → j < s.params.capn →
    (s.script = .txn (.read (0x4000000000000000#64 + BitVec.ofNat 64 j)) :: rest →
      step s = .next { s with response := some ⟨true, s.vin.read j⟩, script := rest }) ∧
    (s.script = .txn (.read (0x8000000000000000#64 + BitVec.ofNat 64 j)) :: rest →
      step s = .next { s with response := some ⟨true, s.vout.read j⟩, script := rest })

/-- R21, R52, R53, R60: a write to an ARG register in a ready block stores its datum and changes nothing else; a write
to VIN stores its datum, reduced or not, in its cell, leaves every other cell alone, and changes nothing else. -/
def Obligations.PortWrites : Prop :=
  ∀ (s : State) (v : Word) (rest : List Event), s.params.wellFormed = true → s.Ready →
    (s.script = .txn (.write 0x8#64 v) :: rest →
      step s = .next { s with arg0 := v, response := some ⟨true, 0#64⟩, script := rest }) ∧
    (s.script = .txn (.write 0x9#64 v) :: rest →
      step s = .next { s with arg1 := v, response := some ⟨true, 0#64⟩, script := rest }) ∧
    (s.script = .txn (.write 0xA#64 v) :: rest →
      step s = .next { s with arg2 := v, response := some ⟨true, 0#64⟩, script := rest }) ∧
    (s.script = .txn (.write 0xB#64 v) :: rest →
      step s = .next { s with arg3 := v, response := some ⟨true, 0#64⟩, script := rest }) ∧
    ∀ j, j < s.params.capn →
      s.script = .txn (.write (0x4000000000000000#64 + BitVec.ofNat 64 j) v) :: rest →
      ∃ m, step s = .next { s with vin := m, response := some ⟨true, 0#64⟩, script := rest } ∧
        m.read j = v ∧ ∀ x, x ≠ j → m.read x = s.vin.read x

/-- R57, R180: every access violation in a ready block answers ERR with datum 0 and takes BAD_ADDR with opcode byte 0;
while FAULT = 1 it only answers ERR. -/
def Obligations.AccessViolationsFault : Prop :=
  ∀ (s : State) (tr : Txn) (rest : List Event), s.params.wellFormed = true → s.busy = false →
    s.script = .txn tr :: rest →
    ((∃ a, tr = .read a ∧
        (3 * 2 ^ 62 ≤ a.toNat ∨ (a.toNat < 2 ^ 62 ∧ (a.toNat = 0x6 ∨ a.toNat = 0x7 ∨ 0xE ≤ a.toNat)) ∨
          (2 ^ 62 ≤ a.toNat ∧ a.toNat < 2 * 2 ^ 62 ∧ s.params.capn ≤ a.toNat - 2 ^ 62) ∨
          (2 * 2 ^ 62 ≤ a.toNat ∧ a.toNat < 3 * 2 ^ 62 ∧ s.params.capn ≤ a.toNat - 2 * 2 ^ 62))) ∨
      (∃ a v, tr = .write a v ∧
        (2 * 2 ^ 62 ≤ a.toNat ∨
          (a.toNat < 2 ^ 62 ∧ (a.toNat ≤ 0x7 ∨ (0xC ≤ a.toNat ∧ a.toNat ≤ 0xE) ∨ 0x10 ≤ a.toNat)) ∨
          (2 ^ 62 ≤ a.toNat ∧ a.toNat < 2 * 2 ^ 62 ∧ s.params.capn ≤ a.toNat - 2 ^ 62)))) →
    (s.fault = false → ∃ t, step s = .next t ∧ FatallyEnded s t 0x00#8 0x09#8 ∧
      t.response = some ⟨false, 0#64⟩ ∧ t.script = rest) ∧
    (s.fault = true → step s = .next { s with response := some ⟨false, 0#64⟩, script := rest })

/-- R58, R180: while BUSY = 1 a read of STATUS answers it, and any other transaction answers ERR, writes nothing and
takes BUSY_ACCESS with opcode byte 0, which abandons the command in flight. -/
def Obligations.BusyAccessFaults : Prop :=
  ∀ (s : State) (tr : Txn) (rest : List Event), s.params.wellFormed = true → s.busy = true → s.fault = false →
    s.script = .txn tr :: rest →
    (tr = .read 0x0#64 → step s = .next { s with response := some ⟨true, s.statusWord⟩, script := rest }) ∧
    (tr ≠ .read 0x0#64 → ∃ t, step s = .next t ∧ FatallyEnded s t 0x00#8 0x08#8 ∧
      t.response = some ⟨false, 0#64⟩ ∧ t.script = rest)

/-- R23, R25, R27: the bits of STATUS, VALID and CAP. -/
def Obligations.StatusViewBits : Prop :=
  ∀ s : State, s.params.wellFormed = true → s.Inv →
    s.statusWord.getLsbD 0 = s.busy ∧ s.statusWord.getLsbD 1 = s.done ∧ s.statusWord.getLsbD 2 = s.fail ∧
    s.statusWord.getLsbD 3 = s.fault ∧ s.statusWord.toNat < 16 ∧
    (∀ k, k < 64 → s.validWord.getLsbD k = s.validBit k) ∧
    s.params.capWord.toNat = s.params.lognMax + 2 ^ 8 * s.params.twoAdicity + 2 ^ 16 * s.params.lanes

/-- R55, R56: on a byte bus, byte address `8·w` with eight bytes is the port transaction at word address `w`, the bytes
little-endian; a misaligned address or another size answers ERR and changes nothing. That an access on such a bus is an
entry of the script, and that a refused access has datum 0, is the model's choice (log 16). -/
def Obligations.ByteBusBridge : Prop :=
  ∀ (s : State) (acc : BusAccess) (rest : List Event), s.params.wellFormed = true → s.script = .bus acc :: rest →
    (∀ w : Word, acc = .read (BitVec.ofNat 67 (8 * w.toNat)) 8 →
      step s = step { s with script := .txn (.read w) :: rest }) ∧
    (∀ (w : Word) (b0 b1 b2 b3 b4 b5 b6 b7 : Byte),
      acc = .write (BitVec.ofNat 67 (8 * w.toNat)) [b0, b1, b2, b3, b4, b5, b6, b7] →
      step s = step { s with
        script := .txn (.write w (b7 ++ b6 ++ b5 ++ b4 ++ b3 ++ b2 ++ b1 ++ b0 : BitVec 64)) :: rest }) ∧
    ((∃ a n, acc = .read a n ∧ (a.toNat % 8 ≠ 0 ∨ n ≠ 8)) ∨
      (∃ a bs, acc = .write a bs ∧ (a.toNat % 8 ≠ 0 ∨ bs.length ≠ 8)) →
      step s = .next { s with response := some ⟨false, 0#64⟩, script := rest })

/-! ### Reset and frames -/

/-- R39, R201: reset, from any state, in one step. The fields `held`, `devFault`, `response` and `script` are the
model's (log 8, log 10, log 13, log 12). -/
def Obligations.ResetActionRule : Prop :=
  ∀ (s : State) (rest : List Event), s.params.wellFormed = true → s.script = .rst :: rest →
    ∃ t, step s = .next t ∧ t.params = s.params ∧
      t.arg0 = 0#64 ∧ t.arg1 = 0#64 ∧ t.arg2 = 0#64 ∧ t.arg3 = 0#64 ∧ t.res0 = 0#64 ∧ t.res1 = 0#64 ∧
      t.statusWord = 0#64 ∧ t.err = 0#64 ∧ t.validWord = 0#64 ∧ t.busy = false ∧ t.cur = 0#8 ∧ t.phase = .idle ∧
      t.l = 0 ∧ t.t = 0 ∧ t.sel = false ∧ t.doneset = [] ∧
      t.vin.cells = [] ∧ t.vout.cells = [] ∧ t.buf0.cells = [] ∧ t.buf1.cells = [] ∧
      t.bundles.length = s.params.lognMax + 1 ∧ (∀ b ∈ t.bundles, b.valid = false) ∧ t.script = rest

/-- R21, R22, R30, R31, R176: what no command changes, and who changes RES0, RES1, VOUT and VALID. -/
def Obligations.CommandFrame : Prop :=
  ∀ (i : Instr) (s t : State), exec i s = .next t →
    t.params = s.params ∧ t.arg0 = s.arg0 ∧ t.arg1 = s.arg1 ∧ t.arg2 = s.arg2 ∧ t.arg3 = s.arg3 ∧
    t.vin = s.vin ∧ t.script = s.script ∧
    (i ≠ .fadd → i ≠ .fsub → i ≠ .fmul → i ≠ .mulw → i ≠ .fred → i ≠ .finv → t.res0 = s.res0) ∧
    (i ≠ .mulw → t.res1 = s.res1) ∧
    (i ≠ .init → i ≠ .teardown → t.bundles.map Bundle.valid = s.bundles.map Bundle.valid) ∧
    (kernelOf i s = none → t.vout = s.vout) ∧
    (∀ k, kernelOf i s = some k → ∀ j, 2 ^ k.logSize ≤ j → t.vout.read j = s.vout.read j) ∧
    (t.done = false → t.res0 = s.res0 ∧ t.res1 = s.res1 ∧
      t.bundles.map Bundle.valid = s.bundles.map Bundle.valid)
end

