-- ==== Sys2Proof/Laws/Memory.lean ====
section
/-! SUPPORT. The laws of memories: reading after writing, the canonical form, bounds, and equality of canonical
memories from their cells. -/

namespace Sys2Proof.Machine

theorem cellsGet_set_same (cs : List (Nat × Word)) (i : Nat) (v : Word) :
    cellsGet (cellsSet cs i v) i = some v := by
  induction cs with
  | nil => simp [cellsSet, cellsGet]
  | cons c cs ih =>
    obtain ⟨j, w⟩ := c
    simp only [cellsSet]
    split
    · simp [cellsGet]
    · split
      · simp [cellsGet]
      · simp [cellsGet, *]

theorem cellsGet_set_other (cs : List (Nat × Word)) {i k : Nat} (h : k ≠ i) (v : Word) :
    cellsGet (cellsSet cs i v) k = cellsGet cs k := by
  induction cs with
  | nil => simp [cellsSet, cellsGet, h]
  | cons c cs ih =>
    obtain ⟨j, w⟩ := c
    simp only [cellsSet]
    split
    · simp [cellsGet, h]
    · split
      · subst_vars; simp [cellsGet, h]
      · simp [cellsGet, ih]

@[simp] theorem Memory.write_draw (m : Memory) (i : Nat) (v : Word) : (m.write i v).draw = m.draw := rfl

@[simp] theorem Memory.unspecified_draw (d : Nat) : (Memory.unspecified d).draw = d := rfl

@[simp] theorem Memory.unspecified_cells (d : Nat) : (Memory.unspecified d).cells = [] := rfl

/-- A read after a write to the same cell gives the value written. -/
@[simp] theorem Memory.read_write_same (m : Memory) (i : Nat) (v : Word) : (m.write i v).read i = v := by
  simp [Memory.read, Memory.write, cellsGet_set_same]

/-- A write leaves every other cell alone. -/
theorem Memory.read_write_other (m : Memory) {i k : Nat} (h : k ≠ i) (v : Word) :
    (m.write i v).read k = m.read k := by
  simp [Memory.read, Memory.write, cellsGet_set_other _ h]

@[simp] theorem Memory.writeFrom_draw (vs : List Word) (m : Memory) (i : Nat) :
    (m.writeFrom i vs).draw = m.draw := by
  induction vs generalizing m i with
  | nil => rfl
  | cons v vs ih => simp [Memory.writeFrom, ih]

/-- `writeFrom` leaves the cells below its first one alone. -/
theorem Memory.get_writeFrom_below (vs : List Word) (m : Memory) {i k : Nat} (h : k < i) :
    cellsGet (m.writeFrom i vs).cells k = cellsGet m.cells k := by
  induction vs generalizing m i with
  | nil => rfl
  | cons v vs ih =>
    rw [Memory.writeFrom, ih _ (by omega)]
    simp [Memory.write, cellsGet_set_other _ (by omega : k ≠ i)]

/-- What a listed cell holds after `writeFrom`. -/
theorem Memory.get_writeFrom (vs : List Word) (m : Memory) (i k : Nat) :
    cellsGet (m.writeFrom i vs).cells k =
      if i ≤ k ∧ k < i + vs.length then vs[k - i]? else cellsGet m.cells k := by
  induction vs generalizing m i with
  | nil => simp only [Memory.writeFrom, List.length_nil]; rw [if_neg (by omega)]
  | cons v vs ih =>
    rw [Memory.writeFrom, ih]
    simp only [List.length_cons]
    by_cases hk : k = i
    · subst hk
      rw [if_neg (by omega), if_pos (by omega)]
      simp [Memory.write, cellsGet_set_same]
    · by_cases hlt : i + 1 ≤ k ∧ k < i + 1 + vs.length
      · rw [if_pos hlt, if_pos (by omega)]
        obtain ⟨d, rfl⟩ : ∃ d, k = i + 1 + d := ⟨k - (i + 1), by omega⟩
        rw [show i + 1 + d - i = d + 1 by omega, show i + 1 + d - (i + 1) = d by omega]
        simp
      · rw [if_neg hlt, if_neg (by omega)]
        simp [Memory.write, cellsGet_set_other _ hk]

/-- A cell inside the range `writeFrom` writes. -/
theorem Memory.read_writeFrom_inside (vs : List Word) (m : Memory) {i k : Nat} (h : k < vs.length) :
    (m.writeFrom i vs).read (i + k) = vs[k] := by
  simp only [Memory.read, Memory.get_writeFrom]
  rw [if_pos (by omega)]
  simp [h]

/-- A cell outside the range `writeFrom` writes. -/
theorem Memory.read_writeFrom_outside (vs : List Word) (m : Memory) {i k : Nat} (h : k < i ∨ i + vs.length ≤ k) :
    (m.writeFrom i vs).read k = m.read k := by
  simp only [Memory.read, Memory.get_writeFrom, Memory.writeFrom_draw]
  rw [if_neg (by omega)]

/-- The cells written from 0 on by a table over `range n`. -/
theorem Memory.read_writeFrom_range (m : Memory) (f : Nat → Word) {n k : Nat} (h : k < n) :
    (m.writeFrom 0 ((List.range n).map f)).read k = f k := by
  have := Memory.read_writeFrom_inside ((List.range n).map f) m (i := 0) (k := k) (by simpa using h)
  simpa using this

theorem Memory.read_writeFrom_range_outside (m : Memory) (f : Nat → Word) {n k : Nat} (h : n ≤ k) :
    (m.writeFrom 0 ((List.range n).map f)).read k = m.read k :=
  Memory.read_writeFrom_outside _ _ (by simp; omega)

/-! ### The canonical form -/

theorem cellsRise_mono {cs : List (Nat × Word)} {lo lo' : Nat} (h : lo' ≤ lo) (hc : cellsRise lo cs = true) :
    cellsRise lo' cs = true := by
  cases cs with
  | nil => rfl
  | cons c cs =>
    simp only [cellsRise, Bool.and_eq_true, decide_eq_true_eq] at hc ⊢
    exact ⟨by omega, hc.2⟩

theorem cellsRise_set {cs : List (Nat × Word)} {lo i : Nat} (h : lo ≤ i) (v : Word)
    (hc : cellsRise lo cs = true) : cellsRise lo (cellsSet cs i v) = true := by
  induction cs generalizing lo with
  | nil => simp [cellsSet, cellsRise, h]
  | cons c cs ih =>
    obtain ⟨j, w⟩ := c
    simp only [cellsRise, Bool.and_eq_true, decide_eq_true_eq] at hc
    simp only [cellsSet]
    split
    · simp [cellsRise, h, hc.2]; omega
    · split
      · subst_vars; simp [cellsRise, hc.2, h]
      · simp only [cellsRise, Bool.and_eq_true, decide_eq_true_eq]
        exact ⟨hc.1, ih (by omega) hc.2⟩

@[simp] theorem Memory.unspecified_wf (d : Nat) : (Memory.unspecified d).wf = true := rfl

/-- A write keeps the canonical form. -/
theorem Memory.write_wf {m : Memory} (h : m.wf = true) (i : Nat) (v : Word) : (m.write i v).wf = true :=
  cellsRise_set (Nat.zero_le i) v h

theorem Memory.writeFrom_wf (vs : List Word) {m : Memory} (h : m.wf = true) (i : Nat) :
    (m.writeFrom i vs).wf = true := by
  induction vs generalizing m i with
  | nil => exact h
  | cons v vs ih => exact ih (Memory.write_wf h i v) _

theorem cellsGet_of_rise {cs : List (Nat × Word)} {lo k : Nat} (h : k < lo) (hc : cellsRise lo cs = true) :
    cellsGet cs k = none := by
  induction cs generalizing lo with
  | nil => rfl
  | cons c cs ih =>
    simp only [cellsRise, Bool.and_eq_true, decide_eq_true_eq] at hc
    rw [cellsGet, if_neg (by omega), ih (by omega) hc.2]

/-- Canonical lists of cells that list the same words are equal. -/
theorem cells_ext {cs ds : List (Nat × Word)} {lo : Nat} (hc : cellsRise lo cs = true) (hd : cellsRise lo ds = true)
    (h : ∀ k, cellsGet cs k = cellsGet ds k) : cs = ds := by
  induction cs generalizing ds lo with
  | nil =>
    cases ds with
    | nil => rfl
    | cons d ds => have := h d.1; simp [cellsGet] at this
  | cons c cs ih =>
    cases ds with
    | nil => have := h c.1; simp [cellsGet] at this
    | cons d ds =>
      obtain ⟨i, v⟩ := c
      obtain ⟨j, w⟩ := d
      simp only [cellsRise, Bool.and_eq_true, decide_eq_true_eq] at hc hd
      have hij : i = j := by
        rcases Nat.lt_trichotomy i j with hlt | rfl | hlt
        · have := h i
          rw [cellsGet, if_pos rfl, cellsGet, if_neg (by omega), cellsGet_of_rise (by omega) hd.2] at this
          simp at this
        · rfl
        · have := h j
          rw [cellsGet, if_neg (by omega), cellsGet, if_pos rfl, cellsGet_of_rise (by omega) hc.2] at this
          simp at this
      subst hij
      have hvw : v = w := by simpa [cellsGet] using h i
      subst hvw
      rw [ih hc.2 hd.2]
      intro k
      by_cases hk : k = i
      · subst hk; rw [cellsGet_of_rise (by omega) hc.2, cellsGet_of_rise (by omega) hd.2]
      · simpa [cellsGet, hk] using h k

/-- Canonical memories of one draw that list the same words are equal data. -/
theorem Memory.ext_of_get {m n : Memory} (hm : m.wf = true) (hn : n.wf = true) (hd : m.draw = n.draw)
    (h : ∀ k, cellsGet m.cells k = cellsGet n.cells k) : m = n := by
  obtain ⟨d, cs⟩ := m
  obtain ⟨e, ds⟩ := n
  have := cells_ext hm hn h
  simp_all

/-! ### Bounds -/

theorem cellsSet_forall {p : Nat × Word → Prop} {cs : List (Nat × Word)} (h : ∀ c ∈ cs, p c) {i : Nat} {v : Word}
    (hi : p (i, v)) : ∀ c ∈ cellsSet cs i v, p c := by
  induction cs with
  | nil => simpa [cellsSet] using hi
  | cons c cs ih =>
    obtain ⟨j, w⟩ := c
    simp only [List.forall_mem_cons] at h
    simp only [cellsSet]
    split
    · simp only [List.forall_mem_cons]; exact ⟨hi, h⟩
    · split
      · simp only [List.forall_mem_cons]; exact ⟨hi, h.2⟩
      · simp only [List.forall_mem_cons]; exact ⟨h.1, ih h.2⟩

@[simp] theorem Memory.unspecified_below (d n : Nat) : (Memory.unspecified d).below n = true := rfl

theorem Memory.write_below {m : Memory} {n i : Nat} (h : m.below n = true) (hi : i < n) (v : Word) :
    (m.write i v).below n = true := by
  simp only [Memory.below, List.all_eq_true, decide_eq_true_eq] at h ⊢
  exact cellsSet_forall h hi

theorem Memory.writeFrom_below (vs : List Word) {m : Memory} {n i : Nat} (h : m.below n = true)
    (hi : i + vs.length ≤ n) : (m.writeFrom i vs).below n = true := by
  induction vs generalizing m i with
  | nil => exact h
  | cons v vs ih =>
    simp only [List.length_cons] at hi
    exact ih (Memory.write_below h (by omega) v) (by omega)

end Sys2Proof.Machine
end

