-- ==== Sys2Proof/Laws/State.lean ====
section
/-! SUPPORT. One lemma per field per named update of the state, true by unfolding, so that no later proof unfolds a
record update. -/

namespace Sys2Proof.Machine

variable (s : State)

/-! ### respond -/

@[simp] theorem State.respond_params (r : Response) : (s.respond r).params = s.params := rfl
@[simp] theorem State.respond_arg0 (r : Response) : (s.respond r).arg0 = s.arg0 := rfl
@[simp] theorem State.respond_arg1 (r : Response) : (s.respond r).arg1 = s.arg1 := rfl
@[simp] theorem State.respond_arg2 (r : Response) : (s.respond r).arg2 = s.arg2 := rfl
@[simp] theorem State.respond_arg3 (r : Response) : (s.respond r).arg3 = s.arg3 := rfl
@[simp] theorem State.respond_res0 (r : Response) : (s.respond r).res0 = s.res0 := rfl
@[simp] theorem State.respond_res1 (r : Response) : (s.respond r).res1 = s.res1 := rfl
@[simp] theorem State.respond_busy (r : Response) : (s.respond r).busy = s.busy := rfl
@[simp] theorem State.respond_done (r : Response) : (s.respond r).done = s.done := rfl
@[simp] theorem State.respond_fail (r : Response) : (s.respond r).fail = s.fail := rfl
@[simp] theorem State.respond_fault (r : Response) : (s.respond r).fault = s.fault := rfl
@[simp] theorem State.respond_err (r : Response) : (s.respond r).err = s.err := rfl
@[simp] theorem State.respond_cur (r : Response) : (s.respond r).cur = s.cur := rfl
@[simp] theorem State.respond_phase (r : Response) : (s.respond r).phase = s.phase := rfl
@[simp] theorem State.respond_l (r : Response) : (s.respond r).l = s.l := rfl
@[simp] theorem State.respond_t (r : Response) : (s.respond r).t = s.t := rfl
@[simp] theorem State.respond_sel (r : Response) : (s.respond r).sel = s.sel := rfl
@[simp] theorem State.respond_doneset (r : Response) : (s.respond r).doneset = s.doneset := rfl
@[simp] theorem State.respond_held (r : Response) : (s.respond r).held = s.held := rfl
@[simp] theorem State.respond_vin (r : Response) : (s.respond r).vin = s.vin := rfl
@[simp] theorem State.respond_vout (r : Response) : (s.respond r).vout = s.vout := rfl
@[simp] theorem State.respond_buf0 (r : Response) : (s.respond r).buf0 = s.buf0 := rfl
@[simp] theorem State.respond_buf1 (r : Response) : (s.respond r).buf1 = s.buf1 := rfl
@[simp] theorem State.respond_bundles (r : Response) : (s.respond r).bundles = s.bundles := rfl
@[simp] theorem State.respond_devFault (r : Response) : (s.respond r).devFault = s.devFault := rfl
@[simp] theorem State.respond_draws (r : Response) : (s.respond r).draws = s.draws := rfl
@[simp] theorem State.respond_response (r : Response) : (s.respond r).response = some r := rfl
@[simp] theorem State.respond_script (r : Response) : (s.respond r).script = s.script := rfl

/-! ### toPhase -/

@[simp] theorem State.toPhase_params (p : Phase) : (s.toPhase p).params = s.params := rfl
@[simp] theorem State.toPhase_arg0 (p : Phase) : (s.toPhase p).arg0 = s.arg0 := rfl
@[simp] theorem State.toPhase_arg1 (p : Phase) : (s.toPhase p).arg1 = s.arg1 := rfl
@[simp] theorem State.toPhase_arg2 (p : Phase) : (s.toPhase p).arg2 = s.arg2 := rfl
@[simp] theorem State.toPhase_arg3 (p : Phase) : (s.toPhase p).arg3 = s.arg3 := rfl
@[simp] theorem State.toPhase_res0 (p : Phase) : (s.toPhase p).res0 = s.res0 := rfl
@[simp] theorem State.toPhase_res1 (p : Phase) : (s.toPhase p).res1 = s.res1 := rfl
@[simp] theorem State.toPhase_busy (p : Phase) : (s.toPhase p).busy = s.busy := rfl
@[simp] theorem State.toPhase_done (p : Phase) : (s.toPhase p).done = s.done := rfl
@[simp] theorem State.toPhase_fail (p : Phase) : (s.toPhase p).fail = s.fail := rfl
@[simp] theorem State.toPhase_fault (p : Phase) : (s.toPhase p).fault = s.fault := rfl
@[simp] theorem State.toPhase_err (p : Phase) : (s.toPhase p).err = s.err := rfl
@[simp] theorem State.toPhase_cur (p : Phase) : (s.toPhase p).cur = s.cur := rfl
@[simp] theorem State.toPhase_phase (p : Phase) : (s.toPhase p).phase = p := rfl
@[simp] theorem State.toPhase_l (p : Phase) : (s.toPhase p).l = s.l := rfl
@[simp] theorem State.toPhase_t (p : Phase) : (s.toPhase p).t = s.t := rfl
@[simp] theorem State.toPhase_sel (p : Phase) : (s.toPhase p).sel = s.sel := rfl
@[simp] theorem State.toPhase_doneset (p : Phase) : (s.toPhase p).doneset = s.doneset := rfl
@[simp] theorem State.toPhase_held (p : Phase) : (s.toPhase p).held = s.held := rfl
@[simp] theorem State.toPhase_vin (p : Phase) : (s.toPhase p).vin = s.vin := rfl
@[simp] theorem State.toPhase_vout (p : Phase) : (s.toPhase p).vout = s.vout := rfl
@[simp] theorem State.toPhase_buf0 (p : Phase) : (s.toPhase p).buf0 = s.buf0 := rfl
@[simp] theorem State.toPhase_buf1 (p : Phase) : (s.toPhase p).buf1 = s.buf1 := rfl
@[simp] theorem State.toPhase_bundles (p : Phase) : (s.toPhase p).bundles = s.bundles := rfl
@[simp] theorem State.toPhase_devFault (p : Phase) : (s.toPhase p).devFault = s.devFault := rfl
@[simp] theorem State.toPhase_draws (p : Phase) : (s.toPhase p).draws = s.draws := rfl
@[simp] theorem State.toPhase_response (p : Phase) : (s.toPhase p).response = s.response := rfl
@[simp] theorem State.toPhase_script (p : Phase) : (s.toPhase p).script = s.script := rfl

/-! ### hold -/

@[simp] theorem State.hold_params (h : Held) : (s.hold h).params = s.params := rfl
@[simp] theorem State.hold_arg0 (h : Held) : (s.hold h).arg0 = s.arg0 := rfl
@[simp] theorem State.hold_arg1 (h : Held) : (s.hold h).arg1 = s.arg1 := rfl
@[simp] theorem State.hold_arg2 (h : Held) : (s.hold h).arg2 = s.arg2 := rfl
@[simp] theorem State.hold_arg3 (h : Held) : (s.hold h).arg3 = s.arg3 := rfl
@[simp] theorem State.hold_res0 (h : Held) : (s.hold h).res0 = s.res0 := rfl
@[simp] theorem State.hold_res1 (h : Held) : (s.hold h).res1 = s.res1 := rfl
@[simp] theorem State.hold_busy (h : Held) : (s.hold h).busy = s.busy := rfl
@[simp] theorem State.hold_done (h : Held) : (s.hold h).done = s.done := rfl
@[simp] theorem State.hold_fail (h : Held) : (s.hold h).fail = s.fail := rfl
@[simp] theorem State.hold_fault (h : Held) : (s.hold h).fault = s.fault := rfl
@[simp] theorem State.hold_err (h : Held) : (s.hold h).err = s.err := rfl
@[simp] theorem State.hold_cur (h : Held) : (s.hold h).cur = s.cur := rfl
@[simp] theorem State.hold_phase (h : Held) : (s.hold h).phase = s.phase := rfl
@[simp] theorem State.hold_l (h : Held) : (s.hold h).l = s.l := rfl
@[simp] theorem State.hold_t (h : Held) : (s.hold h).t = s.t := rfl
@[simp] theorem State.hold_sel (h : Held) : (s.hold h).sel = s.sel := rfl
@[simp] theorem State.hold_doneset (h : Held) : (s.hold h).doneset = s.doneset := rfl
@[simp] theorem State.hold_held (h : Held) : (s.hold h).held = h := rfl
@[simp] theorem State.hold_vin (h : Held) : (s.hold h).vin = s.vin := rfl
@[simp] theorem State.hold_vout (h : Held) : (s.hold h).vout = s.vout := rfl
@[simp] theorem State.hold_buf0 (h : Held) : (s.hold h).buf0 = s.buf0 := rfl
@[simp] theorem State.hold_buf1 (h : Held) : (s.hold h).buf1 = s.buf1 := rfl
@[simp] theorem State.hold_bundles (h : Held) : (s.hold h).bundles = s.bundles := rfl
@[simp] theorem State.hold_devFault (h : Held) : (s.hold h).devFault = s.devFault := rfl
@[simp] theorem State.hold_draws (h : Held) : (s.hold h).draws = s.draws := rfl
@[simp] theorem State.hold_response (h : Held) : (s.hold h).response = s.response := rfl
@[simp] theorem State.hold_script (h : Held) : (s.hold h).script = s.script := rfl

/-! ### issue -/

@[simp] theorem State.issue_params (i : Instr) : (s.issue i).params = s.params := rfl
@[simp] theorem State.issue_arg0 (i : Instr) : (s.issue i).arg0 = s.arg0 := rfl
@[simp] theorem State.issue_arg1 (i : Instr) : (s.issue i).arg1 = s.arg1 := rfl
@[simp] theorem State.issue_arg2 (i : Instr) : (s.issue i).arg2 = s.arg2 := rfl
@[simp] theorem State.issue_arg3 (i : Instr) : (s.issue i).arg3 = s.arg3 := rfl
@[simp] theorem State.issue_res0 (i : Instr) : (s.issue i).res0 = s.res0 := rfl
@[simp] theorem State.issue_res1 (i : Instr) : (s.issue i).res1 = s.res1 := rfl
@[simp] theorem State.issue_busy (i : Instr) : (s.issue i).busy = true := rfl
@[simp] theorem State.issue_done (i : Instr) : (s.issue i).done = false := rfl
@[simp] theorem State.issue_fail (i : Instr) : (s.issue i).fail = false := rfl
@[simp] theorem State.issue_fault (i : Instr) : (s.issue i).fault = s.fault := rfl
@[simp] theorem State.issue_err (i : Instr) : (s.issue i).err = 0#64 := rfl
@[simp] theorem State.issue_cur (i : Instr) : (s.issue i).cur = i.opcode := rfl
@[simp] theorem State.issue_phase (i : Instr) : (s.issue i).phase = .check := rfl
@[simp] theorem State.issue_l (i : Instr) : (s.issue i).l = s.l := rfl
@[simp] theorem State.issue_t (i : Instr) : (s.issue i).t = s.t := rfl
@[simp] theorem State.issue_sel (i : Instr) : (s.issue i).sel = s.sel := rfl
@[simp] theorem State.issue_doneset (i : Instr) : (s.issue i).doneset = s.doneset := rfl
@[simp] theorem State.issue_held (i : Instr) : (s.issue i).held = .nothing := rfl
@[simp] theorem State.issue_vin (i : Instr) : (s.issue i).vin = s.vin := rfl
@[simp] theorem State.issue_vout (i : Instr) : (s.issue i).vout = s.vout := rfl
@[simp] theorem State.issue_buf0 (i : Instr) : (s.issue i).buf0 = s.buf0 := rfl
@[simp] theorem State.issue_buf1 (i : Instr) : (s.issue i).buf1 = s.buf1 := rfl
@[simp] theorem State.issue_bundles (i : Instr) : (s.issue i).bundles = s.bundles := rfl
@[simp] theorem State.issue_devFault (i : Instr) : (s.issue i).devFault = s.devFault := rfl
@[simp] theorem State.issue_draws (i : Instr) : (s.issue i).draws = s.draws := rfl
@[simp] theorem State.issue_response (i : Instr) : (s.issue i).response = s.response := rfl
@[simp] theorem State.issue_script (i : Instr) : (s.issue i).script = s.script := rfl

/-! ### finish -/

@[simp] theorem State.finish_params : (s.finish).params = s.params := rfl
@[simp] theorem State.finish_arg0 : (s.finish).arg0 = s.arg0 := rfl
@[simp] theorem State.finish_arg1 : (s.finish).arg1 = s.arg1 := rfl
@[simp] theorem State.finish_arg2 : (s.finish).arg2 = s.arg2 := rfl
@[simp] theorem State.finish_arg3 : (s.finish).arg3 = s.arg3 := rfl
@[simp] theorem State.finish_res0 : (s.finish).res0 = s.res0 := rfl
@[simp] theorem State.finish_res1 : (s.finish).res1 = s.res1 := rfl
@[simp] theorem State.finish_busy : (s.finish).busy = false := rfl
@[simp] theorem State.finish_done : (s.finish).done = true := rfl
@[simp] theorem State.finish_fail : (s.finish).fail = s.fail := rfl
@[simp] theorem State.finish_fault : (s.finish).fault = s.fault := rfl
@[simp] theorem State.finish_err : (s.finish).err = s.err := rfl
@[simp] theorem State.finish_cur : (s.finish).cur = s.cur := rfl
@[simp] theorem State.finish_phase : (s.finish).phase = .idle := rfl
@[simp] theorem State.finish_l : (s.finish).l = s.l := rfl
@[simp] theorem State.finish_t : (s.finish).t = s.t := rfl
@[simp] theorem State.finish_sel : (s.finish).sel = s.sel := rfl
@[simp] theorem State.finish_doneset : (s.finish).doneset = s.doneset := rfl
@[simp] theorem State.finish_held : (s.finish).held = .nothing := rfl
@[simp] theorem State.finish_vin : (s.finish).vin = s.vin := rfl
@[simp] theorem State.finish_vout : (s.finish).vout = s.vout := rfl
@[simp] theorem State.finish_buf0 : (s.finish).buf0 = s.buf0 := rfl
@[simp] theorem State.finish_buf1 : (s.finish).buf1 = s.buf1 := rfl
@[simp] theorem State.finish_bundles : (s.finish).bundles = s.bundles := rfl
@[simp] theorem State.finish_devFault : (s.finish).devFault = s.devFault := rfl
@[simp] theorem State.finish_draws : (s.finish).draws = s.draws := rfl
@[simp] theorem State.finish_response : (s.finish).response = s.response := rfl
@[simp] theorem State.finish_script : (s.finish).script = s.script := rfl

/-! ### takeFail -/

@[simp] theorem State.takeFail_params (c : FailCode) : (s.takeFail c).params = s.params := rfl
@[simp] theorem State.takeFail_arg0 (c : FailCode) : (s.takeFail c).arg0 = s.arg0 := rfl
@[simp] theorem State.takeFail_arg1 (c : FailCode) : (s.takeFail c).arg1 = s.arg1 := rfl
@[simp] theorem State.takeFail_arg2 (c : FailCode) : (s.takeFail c).arg2 = s.arg2 := rfl
@[simp] theorem State.takeFail_arg3 (c : FailCode) : (s.takeFail c).arg3 = s.arg3 := rfl
@[simp] theorem State.takeFail_res0 (c : FailCode) : (s.takeFail c).res0 = s.res0 := rfl
@[simp] theorem State.takeFail_res1 (c : FailCode) : (s.takeFail c).res1 = s.res1 := rfl
@[simp] theorem State.takeFail_busy (c : FailCode) : (s.takeFail c).busy = false := rfl
@[simp] theorem State.takeFail_done (c : FailCode) : (s.takeFail c).done = false := rfl
@[simp] theorem State.takeFail_fail (c : FailCode) : (s.takeFail c).fail = true := rfl
@[simp] theorem State.takeFail_fault (c : FailCode) : (s.takeFail c).fault = false := rfl
@[simp] theorem State.takeFail_err (c : FailCode) : (s.takeFail c).err = errWord s.cur c.code := rfl
@[simp] theorem State.takeFail_cur (c : FailCode) : (s.takeFail c).cur = s.cur := rfl
@[simp] theorem State.takeFail_phase (c : FailCode) : (s.takeFail c).phase = .idle := rfl
@[simp] theorem State.takeFail_l (c : FailCode) : (s.takeFail c).l = s.l := rfl
@[simp] theorem State.takeFail_t (c : FailCode) : (s.takeFail c).t = s.t := rfl
@[simp] theorem State.takeFail_sel (c : FailCode) : (s.takeFail c).sel = s.sel := rfl
@[simp] theorem State.takeFail_doneset (c : FailCode) : (s.takeFail c).doneset = s.doneset := rfl
@[simp] theorem State.takeFail_held (c : FailCode) : (s.takeFail c).held = .nothing := rfl
@[simp] theorem State.takeFail_vin (c : FailCode) : (s.takeFail c).vin = s.vin := rfl
@[simp] theorem State.takeFail_vout (c : FailCode) : (s.takeFail c).vout = s.vout := rfl
@[simp] theorem State.takeFail_buf0 (c : FailCode) : (s.takeFail c).buf0 = s.buf0 := rfl
@[simp] theorem State.takeFail_buf1 (c : FailCode) : (s.takeFail c).buf1 = s.buf1 := rfl
@[simp] theorem State.takeFail_bundles (c : FailCode) : (s.takeFail c).bundles = s.bundles := rfl
@[simp] theorem State.takeFail_devFault (c : FailCode) : (s.takeFail c).devFault = s.devFault := rfl
@[simp] theorem State.takeFail_draws (c : FailCode) : (s.takeFail c).draws = s.draws := rfl
@[simp] theorem State.takeFail_response (c : FailCode) : (s.takeFail c).response = s.response := rfl
@[simp] theorem State.takeFail_script (c : FailCode) : (s.takeFail c).script = s.script := rfl

/-! ### loadStep -/

@[simp] theorem State.loadStep_params (k : Kernel) : (s.loadStep k).params = s.params := rfl
@[simp] theorem State.loadStep_arg0 (k : Kernel) : (s.loadStep k).arg0 = s.arg0 := rfl
@[simp] theorem State.loadStep_arg1 (k : Kernel) : (s.loadStep k).arg1 = s.arg1 := rfl
@[simp] theorem State.loadStep_arg2 (k : Kernel) : (s.loadStep k).arg2 = s.arg2 := rfl
@[simp] theorem State.loadStep_arg3 (k : Kernel) : (s.loadStep k).arg3 = s.arg3 := rfl
@[simp] theorem State.loadStep_res0 (k : Kernel) : (s.loadStep k).res0 = s.res0 := rfl
@[simp] theorem State.loadStep_res1 (k : Kernel) : (s.loadStep k).res1 = s.res1 := rfl
@[simp] theorem State.loadStep_busy (k : Kernel) : (s.loadStep k).busy = s.busy := rfl
@[simp] theorem State.loadStep_done (k : Kernel) : (s.loadStep k).done = s.done := rfl
@[simp] theorem State.loadStep_fail (k : Kernel) : (s.loadStep k).fail = s.fail := rfl
@[simp] theorem State.loadStep_fault (k : Kernel) : (s.loadStep k).fault = s.fault := rfl
@[simp] theorem State.loadStep_err (k : Kernel) : (s.loadStep k).err = s.err := rfl
@[simp] theorem State.loadStep_cur (k : Kernel) : (s.loadStep k).cur = s.cur := rfl
@[simp] theorem State.loadStep_phase (k : Kernel) : (s.loadStep k).phase = if k.logSize = 0 then .store else .stage := rfl
@[simp] theorem State.loadStep_l (k : Kernel) : (s.loadStep k).l = k.logSize := rfl
@[simp] theorem State.loadStep_t (k : Kernel) : (s.loadStep k).t = 0 := rfl
@[simp] theorem State.loadStep_sel (k : Kernel) : (s.loadStep k).sel = false := rfl
@[simp] theorem State.loadStep_doneset (k : Kernel) : (s.loadStep k).doneset = [] := rfl
@[simp] theorem State.loadStep_held (k : Kernel) : (s.loadStep k).held = s.held := rfl
@[simp] theorem State.loadStep_vin (k : Kernel) : (s.loadStep k).vin = s.vin := rfl
@[simp] theorem State.loadStep_vout (k : Kernel) : (s.loadStep k).vout = s.vout := rfl
@[simp] theorem State.loadStep_buf0 (k : Kernel) : (s.loadStep k).buf0 = s.buf0.writeFrom 0 ((List.range (2 ^ k.logSize)).map k.pre) := rfl
@[simp] theorem State.loadStep_buf1 (k : Kernel) : (s.loadStep k).buf1 = s.buf1 := rfl
@[simp] theorem State.loadStep_bundles (k : Kernel) : (s.loadStep k).bundles = s.bundles := rfl
@[simp] theorem State.loadStep_devFault (k : Kernel) : (s.loadStep k).devFault = s.devFault := rfl
@[simp] theorem State.loadStep_draws (k : Kernel) : (s.loadStep k).draws = s.draws := rfl
@[simp] theorem State.loadStep_response (k : Kernel) : (s.loadStep k).response = s.response := rfl
@[simp] theorem State.loadStep_script (k : Kernel) : (s.loadStep k).script = s.script := rfl

/-! ### barrierStep -/

@[simp] theorem State.barrierStep_params : (s.barrierStep).params = s.params := rfl
@[simp] theorem State.barrierStep_arg0 : (s.barrierStep).arg0 = s.arg0 := rfl
@[simp] theorem State.barrierStep_arg1 : (s.barrierStep).arg1 = s.arg1 := rfl
@[simp] theorem State.barrierStep_arg2 : (s.barrierStep).arg2 = s.arg2 := rfl
@[simp] theorem State.barrierStep_arg3 : (s.barrierStep).arg3 = s.arg3 := rfl
@[simp] theorem State.barrierStep_res0 : (s.barrierStep).res0 = s.res0 := rfl
@[simp] theorem State.barrierStep_res1 : (s.barrierStep).res1 = s.res1 := rfl
@[simp] theorem State.barrierStep_busy : (s.barrierStep).busy = s.busy := rfl
@[simp] theorem State.barrierStep_done : (s.barrierStep).done = s.done := rfl
@[simp] theorem State.barrierStep_fail : (s.barrierStep).fail = s.fail := rfl
@[simp] theorem State.barrierStep_fault : (s.barrierStep).fault = s.fault := rfl
@[simp] theorem State.barrierStep_err : (s.barrierStep).err = s.err := rfl
@[simp] theorem State.barrierStep_cur : (s.barrierStep).cur = s.cur := rfl
@[simp] theorem State.barrierStep_phase : (s.barrierStep).phase = if s.t + 1 = s.l then .store else s.phase := rfl
@[simp] theorem State.barrierStep_l : (s.barrierStep).l = s.l := rfl
@[simp] theorem State.barrierStep_t : (s.barrierStep).t = s.t + 1 := rfl
@[simp] theorem State.barrierStep_sel : (s.barrierStep).sel = !s.sel := rfl
@[simp] theorem State.barrierStep_doneset : (s.barrierStep).doneset = [] := rfl
@[simp] theorem State.barrierStep_held : (s.barrierStep).held = s.held := rfl
@[simp] theorem State.barrierStep_vin : (s.barrierStep).vin = s.vin := rfl
@[simp] theorem State.barrierStep_vout : (s.barrierStep).vout = s.vout := rfl
@[simp] theorem State.barrierStep_buf0 : (s.barrierStep).buf0 = s.buf0 := rfl
@[simp] theorem State.barrierStep_buf1 : (s.barrierStep).buf1 = s.buf1 := rfl
@[simp] theorem State.barrierStep_bundles : (s.barrierStep).bundles = s.bundles := rfl
@[simp] theorem State.barrierStep_devFault : (s.barrierStep).devFault = s.devFault := rfl
@[simp] theorem State.barrierStep_draws : (s.barrierStep).draws = s.draws := rfl
@[simp] theorem State.barrierStep_response : (s.barrierStep).response = s.response := rfl
@[simp] theorem State.barrierStep_script : (s.barrierStep).script = s.script := rfl

/-! ### armDevice -/

@[simp] theorem State.armDevice_params : (s.armDevice).params = s.params := rfl
@[simp] theorem State.armDevice_arg0 : (s.armDevice).arg0 = s.arg0 := rfl
@[simp] theorem State.armDevice_arg1 : (s.armDevice).arg1 = s.arg1 := rfl
@[simp] theorem State.armDevice_arg2 : (s.armDevice).arg2 = s.arg2 := rfl
@[simp] theorem State.armDevice_arg3 : (s.armDevice).arg3 = s.arg3 := rfl
@[simp] theorem State.armDevice_res0 : (s.armDevice).res0 = s.res0 := rfl
@[simp] theorem State.armDevice_res1 : (s.armDevice).res1 = s.res1 := rfl
@[simp] theorem State.armDevice_busy : (s.armDevice).busy = s.busy := rfl
@[simp] theorem State.armDevice_done : (s.armDevice).done = s.done := rfl
@[simp] theorem State.armDevice_fail : (s.armDevice).fail = s.fail := rfl
@[simp] theorem State.armDevice_fault : (s.armDevice).fault = s.fault := rfl
@[simp] theorem State.armDevice_err : (s.armDevice).err = s.err := rfl
@[simp] theorem State.armDevice_cur : (s.armDevice).cur = s.cur := rfl
@[simp] theorem State.armDevice_phase : (s.armDevice).phase = s.phase := rfl
@[simp] theorem State.armDevice_l : (s.armDevice).l = s.l := rfl
@[simp] theorem State.armDevice_t : (s.armDevice).t = s.t := rfl
@[simp] theorem State.armDevice_sel : (s.armDevice).sel = s.sel := rfl
@[simp] theorem State.armDevice_doneset : (s.armDevice).doneset = s.doneset := rfl
@[simp] theorem State.armDevice_held : (s.armDevice).held = s.held := rfl
@[simp] theorem State.armDevice_vin : (s.armDevice).vin = s.vin := rfl
@[simp] theorem State.armDevice_vout : (s.armDevice).vout = s.vout := rfl
@[simp] theorem State.armDevice_buf0 : (s.armDevice).buf0 = s.buf0 := rfl
@[simp] theorem State.armDevice_buf1 : (s.armDevice).buf1 = s.buf1 := rfl
@[simp] theorem State.armDevice_bundles : (s.armDevice).bundles = s.bundles := rfl
@[simp] theorem State.armDevice_devFault : (s.armDevice).devFault = (s.devFault || s.params.devfail) := rfl
@[simp] theorem State.armDevice_draws : (s.armDevice).draws = s.draws := rfl
@[simp] theorem State.armDevice_response : (s.armDevice).response = s.response := rfl
@[simp] theorem State.armDevice_script : (s.armDevice).script = s.script := rfl

/-! ### takeFatal: what it keeps, and what it does when FAULT = 0 -/

@[simp] theorem State.takeFatal_params (c : FatalCode) (o : Byte) : (s.takeFatal c o).params = s.params := by
  unfold State.takeFatal; split <;> rfl
@[simp] theorem State.takeFatal_arg0 (c : FatalCode) (o : Byte) : (s.takeFatal c o).arg0 = s.arg0 := by
  unfold State.takeFatal; split <;> rfl
@[simp] theorem State.takeFatal_arg1 (c : FatalCode) (o : Byte) : (s.takeFatal c o).arg1 = s.arg1 := by
  unfold State.takeFatal; split <;> rfl
@[simp] theorem State.takeFatal_arg2 (c : FatalCode) (o : Byte) : (s.takeFatal c o).arg2 = s.arg2 := by
  unfold State.takeFatal; split <;> rfl
@[simp] theorem State.takeFatal_arg3 (c : FatalCode) (o : Byte) : (s.takeFatal c o).arg3 = s.arg3 := by
  unfold State.takeFatal; split <;> rfl
@[simp] theorem State.takeFatal_res0 (c : FatalCode) (o : Byte) : (s.takeFatal c o).res0 = s.res0 := by
  unfold State.takeFatal; split <;> rfl
@[simp] theorem State.takeFatal_res1 (c : FatalCode) (o : Byte) : (s.takeFatal c o).res1 = s.res1 := by
  unfold State.takeFatal; split <;> rfl
@[simp] theorem State.takeFatal_cur (c : FatalCode) (o : Byte) : (s.takeFatal c o).cur = s.cur := by
  unfold State.takeFatal; split <;> rfl
@[simp] theorem State.takeFatal_l (c : FatalCode) (o : Byte) : (s.takeFatal c o).l = s.l := by
  unfold State.takeFatal; split <;> rfl
@[simp] theorem State.takeFatal_t (c : FatalCode) (o : Byte) : (s.takeFatal c o).t = s.t := by
  unfold State.takeFatal; split <;> rfl
@[simp] theorem State.takeFatal_sel (c : FatalCode) (o : Byte) : (s.takeFatal c o).sel = s.sel := by
  unfold State.takeFatal; split <;> rfl
@[simp] theorem State.takeFatal_doneset (c : FatalCode) (o : Byte) : (s.takeFatal c o).doneset = s.doneset := by
  unfold State.takeFatal; split <;> rfl
@[simp] theorem State.takeFatal_vin (c : FatalCode) (o : Byte) : (s.takeFatal c o).vin = s.vin := by
  unfold State.takeFatal; split <;> rfl
@[simp] theorem State.takeFatal_vout (c : FatalCode) (o : Byte) : (s.takeFatal c o).vout = s.vout := by
  unfold State.takeFatal; split <;> rfl
@[simp] theorem State.takeFatal_devFault (c : FatalCode) (o : Byte) : (s.takeFatal c o).devFault = s.devFault := by
  unfold State.takeFatal; split <;> rfl
@[simp] theorem State.takeFatal_response (c : FatalCode) (o : Byte) : (s.takeFatal c o).response = s.response := by
  unfold State.takeFatal; split <;> rfl
@[simp] theorem State.takeFatal_script (c : FatalCode) (o : Byte) : (s.takeFatal c o).script = s.script := by
  unfold State.takeFatal; split <;> rfl

/-- The fatal path never leaves FAULT clear (60_exceptions.md R174). -/
@[simp] theorem State.takeFatal_fault (c : FatalCode) (o : Byte) : (s.takeFatal c o).fault = true := by
  unfold State.takeFatal; split
  · assumption
  · rfl

/-- While FAULT = 1 the fatal path changes nothing (60_exceptions.md R174). -/
theorem State.takeFatal_of_fault (h : s.fault = true) (c : FatalCode) (o : Byte) : s.takeFatal c o = s := by
  simp [State.takeFatal, h]

/-- The fatal path from FAULT = 0, whole (60_exceptions.md R174). -/
theorem State.takeFatal_eq (h : s.fault = false) (c : FatalCode) (o : Byte) :
    s.takeFatal c o =
      { s with
        busy := false, done := false, fail := false, fault := true, err := errWord o c.code, phase := .idle
        held := .nothing, buf0 := Memory.unspecified s.draws, buf1 := Memory.unspecified (s.draws + 1)
        bundles := s.abandonedBundles, draws := s.draws + 6 } := by
  simp [State.takeFatal, h]

/-! ### setDst -/

@[simp] theorem State.setDst_params (m : Memory) : (s.setDst m).params = s.params := by
  unfold State.setDst; split <;> rfl
@[simp] theorem State.setDst_arg0 (m : Memory) : (s.setDst m).arg0 = s.arg0 := by
  unfold State.setDst; split <;> rfl
@[simp] theorem State.setDst_arg1 (m : Memory) : (s.setDst m).arg1 = s.arg1 := by
  unfold State.setDst; split <;> rfl
@[simp] theorem State.setDst_arg2 (m : Memory) : (s.setDst m).arg2 = s.arg2 := by
  unfold State.setDst; split <;> rfl
@[simp] theorem State.setDst_arg3 (m : Memory) : (s.setDst m).arg3 = s.arg3 := by
  unfold State.setDst; split <;> rfl
@[simp] theorem State.setDst_res0 (m : Memory) : (s.setDst m).res0 = s.res0 := by
  unfold State.setDst; split <;> rfl
@[simp] theorem State.setDst_res1 (m : Memory) : (s.setDst m).res1 = s.res1 := by
  unfold State.setDst; split <;> rfl
@[simp] theorem State.setDst_busy (m : Memory) : (s.setDst m).busy = s.busy := by
  unfold State.setDst; split <;> rfl
@[simp] theorem State.setDst_done (m : Memory) : (s.setDst m).done = s.done := by
  unfold State.setDst; split <;> rfl
@[simp] theorem State.setDst_fail (m : Memory) : (s.setDst m).fail = s.fail := by
  unfold State.setDst; split <;> rfl
@[simp] theorem State.setDst_fault (m : Memory) : (s.setDst m).fault = s.fault := by
  unfold State.setDst; split <;> rfl
@[simp] theorem State.setDst_err (m : Memory) : (s.setDst m).err = s.err := by
  unfold State.setDst; split <;> rfl
@[simp] theorem State.setDst_cur (m : Memory) : (s.setDst m).cur = s.cur := by
  unfold State.setDst; split <;> rfl
@[simp] theorem State.setDst_phase (m : Memory) : (s.setDst m).phase = s.phase := by
  unfold State.setDst; split <;> rfl
@[simp] theorem State.setDst_l (m : Memory) : (s.setDst m).l = s.l := by
  unfold State.setDst; split <;> rfl
@[simp] theorem State.setDst_t (m : Memory) : (s.setDst m).t = s.t := by
  unfold State.setDst; split <;> rfl
@[simp] theorem State.setDst_sel (m : Memory) : (s.setDst m).sel = s.sel := by
  unfold State.setDst; split <;> rfl
@[simp] theorem State.setDst_doneset (m : Memory) : (s.setDst m).doneset = s.doneset := by
  unfold State.setDst; split <;> rfl
@[simp] theorem State.setDst_held (m : Memory) : (s.setDst m).held = s.held := by
  unfold State.setDst; split <;> rfl
@[simp] theorem State.setDst_vin (m : Memory) : (s.setDst m).vin = s.vin := by
  unfold State.setDst; split <;> rfl
@[simp] theorem State.setDst_vout (m : Memory) : (s.setDst m).vout = s.vout := by
  unfold State.setDst; split <;> rfl
@[simp] theorem State.setDst_bundles (m : Memory) : (s.setDst m).bundles = s.bundles := by
  unfold State.setDst; split <;> rfl
@[simp] theorem State.setDst_devFault (m : Memory) : (s.setDst m).devFault = s.devFault := by
  unfold State.setDst; split <;> rfl
@[simp] theorem State.setDst_draws (m : Memory) : (s.setDst m).draws = s.draws := by
  unfold State.setDst; split <;> rfl
@[simp] theorem State.setDst_response (m : Memory) : (s.setDst m).response = s.response := by
  unfold State.setDst; split <;> rfl
@[simp] theorem State.setDst_script (m : Memory) : (s.setDst m).script = s.script := by
  unfold State.setDst; split <;> rfl

@[simp] theorem State.setDst_src (m : Memory) : (s.setDst m).src = s.src := by
  unfold State.setDst State.src; split <;> simp_all

@[simp] theorem State.setDst_dst (m : Memory) : (s.setDst m).dst = m := by
  unfold State.setDst State.dst; split <;> simp_all

@[simp] theorem State.setDst_setDst (m n : Memory) : (s.setDst m).setDst n = s.setDst n := by
  cases hs : s.sel <;> simp [State.setDst, hs]

/-! ### writeResult and commit -/

@[simp] theorem State.writeResult_params : s.writeResult.params = s.params := by
  unfold State.writeResult; split <;> rfl
@[simp] theorem State.writeResult_arg0 : s.writeResult.arg0 = s.arg0 := by
  unfold State.writeResult; split <;> rfl
@[simp] theorem State.writeResult_arg1 : s.writeResult.arg1 = s.arg1 := by
  unfold State.writeResult; split <;> rfl
@[simp] theorem State.writeResult_arg2 : s.writeResult.arg2 = s.arg2 := by
  unfold State.writeResult; split <;> rfl
@[simp] theorem State.writeResult_arg3 : s.writeResult.arg3 = s.arg3 := by
  unfold State.writeResult; split <;> rfl
@[simp] theorem State.writeResult_busy : s.writeResult.busy = s.busy := by
  unfold State.writeResult; split <;> rfl
@[simp] theorem State.writeResult_done : s.writeResult.done = s.done := by
  unfold State.writeResult; split <;> rfl
@[simp] theorem State.writeResult_fail : s.writeResult.fail = s.fail := by
  unfold State.writeResult; split <;> rfl
@[simp] theorem State.writeResult_fault : s.writeResult.fault = s.fault := by
  unfold State.writeResult; split <;> rfl
@[simp] theorem State.writeResult_err : s.writeResult.err = s.err := by
  unfold State.writeResult; split <;> rfl
@[simp] theorem State.writeResult_cur : s.writeResult.cur = s.cur := by
  unfold State.writeResult; split <;> rfl
@[simp] theorem State.writeResult_phase : s.writeResult.phase = s.phase := by
  unfold State.writeResult; split <;> rfl
@[simp] theorem State.writeResult_l : s.writeResult.l = s.l := by
  unfold State.writeResult; split <;> rfl
@[simp] theorem State.writeResult_t : s.writeResult.t = s.t := by
  unfold State.writeResult; split <;> rfl
@[simp] theorem State.writeResult_sel : s.writeResult.sel = s.sel := by
  unfold State.writeResult; split <;> rfl
@[simp] theorem State.writeResult_doneset : s.writeResult.doneset = s.doneset := by
  unfold State.writeResult; split <;> rfl
@[simp] theorem State.writeResult_held : s.writeResult.held = s.held := by
  unfold State.writeResult; split <;> rfl
@[simp] theorem State.writeResult_vin : s.writeResult.vin = s.vin := by
  unfold State.writeResult; split <;> rfl
@[simp] theorem State.writeResult_buf0 : s.writeResult.buf0 = s.buf0 := by
  unfold State.writeResult; split <;> rfl
@[simp] theorem State.writeResult_buf1 : s.writeResult.buf1 = s.buf1 := by
  unfold State.writeResult; split <;> rfl
@[simp] theorem State.writeResult_devFault : s.writeResult.devFault = s.devFault := by
  unfold State.writeResult; split <;> rfl
@[simp] theorem State.writeResult_response : s.writeResult.response = s.response := by
  unfold State.writeResult; split <;> rfl
@[simp] theorem State.writeResult_script : s.writeResult.script = s.script := by
  unfold State.writeResult; split <;> rfl

theorem State.commit_eq : s.commit = s.writeResult.finish := rfl

@[simp] theorem State.src_toPhase (p : Phase) : (s.toPhase p).src = s.src := rfl

@[simp] theorem State.dst_toPhase (p : Phase) : (s.toPhase p).dst = s.dst := rfl

/-- After the barrier the destination is the source (42_transform.md R135). -/
@[simp] theorem State.barrierStep_src : s.barrierStep.src = s.dst := by
  cases h : s.sel <;> simp [State.src, State.dst, h]

@[simp] theorem State.barrierStep_dst : s.barrierStep.dst = s.src := by
  cases h : s.sel <;> simp [State.src, State.dst, h]

end Sys2Proof.Machine
end

