-- ==== Sys2Proof/Laws/Sequencer.lean ====
section
/-! SUPPORT. What the checks and kernels depend on, and, once for each, everything a step of the sequencer, of a core
and of the block can do. -/

namespace Sys2Proof.Machine

/-! ### Ordered checks -/

@[simp] theorem orElseCheck_eq_none {a : Option Raise} {f : Unit → Option Raise} :
    orElseCheck a f = none ↔ a = none ∧ f () = none := by
  cases a <;> simp [orElseCheck]

/-- The first failing line of a list of checks is the one raised (60_exceptions.md R177). -/
theorem orElseCheck_eq_some {a : Option Raise} {f : Unit → Option Raise} {r : Raise} :
    orElseCheck a f = some r ↔ a = some r ∨ (a = none ∧ f () = some r) := by
  cases a <;> simp [orElseCheck]

@[simp] theorem failIf_eq_none {b : Bool} {r : Raise} : failIf b r = none ↔ b = false := by
  cases b <;> simp [failIf]

theorem failIf_eq_some {b : Bool} {r r' : Raise} : failIf b r = some r' ↔ b = true ∧ r = r' := by
  cases b <;> simp [failIf]

@[simp] theorem checkPow2_eq_none {n : Nat} : checkPow2 n = none ↔ ispow2 n = true := by
  simp [checkPow2]

@[simp] theorem State.checkBundle_eq_none {s : State} {L : Nat} :
    s.checkBundle L = none ↔ L ≤ s.params.lognMax ∧ s.validBit L = true := by
  simp [State.checkBundle]

@[simp] theorem State.checkOffset_eq_none {s : State} :
    s.checkOffset = none ↔ s.opOffset.toNat < s.modulus ∧ s.opOffset ≠ 0#64 := by
  simp [State.checkOffset, reduced]

@[simp] theorem State.checkInput_eq_none {s : State} {n : Nat} :
    s.checkInput n = none ↔ ∀ i, i < n → (s.vin.read i).toNat < s.modulus := by
  simp [State.checkInput, reduced]

/-! ### What a command reads -/

theorem State.validBit_congr {s t : State} (h : t.bundles.map Bundle.valid = s.bundles.map Bundle.valid) (k : Nat) :
    t.validBit k = s.validBit k := by
  have := congrArg (fun l => l[k]?) h
  simp only [List.getElem?_map] at this
  unfold State.validBit
  cases ht : t.bundles[k]? <;> cases hs : s.bundles[k]? <;> simp_all

/-- The checks read the parameters, the ARG registers, VIN and the VALID bits, and nothing else (60_exceptions.md
R177). -/
theorem checkOf_congr (i : Instr) {s t : State} (hp : t.params = s.params) (h0 : t.arg0 = s.arg0)
    (h1 : t.arg1 = s.arg1) (h2 : t.arg2 = s.arg2) (h3 : t.arg3 = s.arg3) (hv : t.vin = s.vin)
    (hb : t.bundles.map Bundle.valid = s.bundles.map Bundle.valid) : checkOf i t = checkOf i s := by
  have hbit := State.validBit_congr hb
  cases i <;>
    simp [checkOf, checkFadd, checkFsub, checkFmul, checkMulw, checkFred, checkFinv, checkInit, checkTeardown, checkNtt,
      checkNttc, checkIntt, checkInttc, State.checkTwoReduced, State.checkBundle, State.checkOffset, State.checkInput,
      State.opA, State.opB, State.opN, State.opM, State.opBlowup, State.opResultLen, State.opOffset, State.modulus,
      hp, h0, h1, h2, h3, hv, hbit] <;> congr!

/-- A kernel is made of the parameters, the ARG registers, VIN and the registry. -/
theorem kernelOf_congr (i : Instr) {s t : State} (hp : t.params = s.params) (h0 : t.arg0 = s.arg0)
    (h1 : t.arg1 = s.arg1) (h2 : t.arg2 = s.arg2) (hv : t.vin = s.vin) (hb : t.bundles = s.bundles) :
    kernelOf i t = kernelOf i s := by
  cases i <;>
    simp [kernelOf, kernelNtt, kernelNttc, kernelIntt, kernelInttc, State.opN, State.opM, State.opBlowup,
      State.opOffset, State.modulus, State.bundle, hp, h0, h1, h2, hv, hb]
  congr!

/-- Which commands are transforms does not depend on the state. -/
theorem kernelOf_none_iff (i : Instr) (s t : State) : kernelOf i t = none ↔ kernelOf i s = none := by
  cases i <;> simp [kernelOf]

/-- The held result of an execute step is made of the parameters and the ARG registers. -/
theorem executeOf_held_congr (i : Instr) {s t : State} (hp : t.params = s.params) (h0 : t.arg0 = s.arg0)
    (h1 : t.arg1 = s.arg1) : (executeOf i t).map State.held = (executeOf i s).map State.held := by
  cases i <;>
    simp [executeOf, executeFadd, executeFsub, executeFmul, executeMulw, executeFred, executeFinv, executeInit,
      executeTeardown, State.opA, State.opB, State.opN, State.modulus, hp, h0, h1]

/-- Transforms and the other eight commands. -/
theorem executeOf_eq_none_iff (i : Instr) (s : State) : executeOf i s = none ↔ kernelOf i s ≠ none := by
  cases i <;> simp [executeOf, kernelOf]

theorem phaseAfterCheck_eq (i : Instr) (s : State) :
    phaseAfterCheck i = if kernelOf i s = none then .exec else .load := by
  cases i <;> simp [phaseAfterCheck, kernelOf]

/-- CUR holds the opcode of the command in flight (10_state.md R26). -/
theorem decodeOpcode_opcode (i : Instr) : decodeOpcode i.opcode = some i := by
  cases i <;> decide

/-! ### The steps of the sequencer and of the cores -/

/-- Everything a sequencer step in an execute phase of a transform can do. -/
theorem State.pipelineStep_cases {s s' : State} {k : Kernel} (h : s.pipelineStep k = some s') :
    (s.devicePending = true ∧ s' = s.takeDevice (2 ^ k.logSize)) ∨
    (s.devicePending = false ∧ s.phase = .load ∧ s' = s.loadStep k) ∨
    (s.devicePending = false ∧ s.phase = .stage ∧ s.stageDone = true ∧ s' = s.barrierStep) ∨
    (s.devicePending = false ∧ s.phase = .store ∧ s.held = .nothing ∧ s' = s.storeStep k) ∨
    (s.devicePending = false ∧ s.phase = .store ∧ s.held ≠ .nothing ∧ s' = s.commit) := by
  unfold State.pipelineStep at h
  split at h
  · simp_all
  · split at h
    · simp_all
    · split at h <;> simp_all
    · by_cases hh : s.held = .nothing <;> simp_all
    all_goals simp at h

/-- Everything a step of the sequencer can do (30_encoding.md R73, 42_transform.md R130). -/
theorem State.seqStep_cases {s s' : State} (h : s.seqStep = some s') :
    s.busy = true ∧ ∃ i, decodeOpcode s.cur = some i ∧
      ((s.phase = .check ∧ s' = s.checkStep i) ∨
       (s.phase = .exec ∧ s.held = .nothing ∧ executeOf i s = some s') ∨
       (s.phase = .exec ∧ s.held ≠ .nothing ∧ s' = s.commit) ∨
       ((s.phase = .load ∨ s.phase = .stage ∨ s.phase = .store) ∧
        ∃ k, kernelOf i s = some k ∧ s.pipelineStep k = some s')) := by
  unfold State.seqStep at h
  split at h
  · rename_i hb
    refine ⟨hb, ?_⟩
    split at h
    · simp at h
    · rename_i i hi
      refine ⟨i, hi, ?_⟩
      split at h
      · simp at h
      · simp_all
      · by_cases hh : s.held = .nothing
        · simp_all
        · simp_all
      all_goals
        obtain ⟨k, hk, hk'⟩ := Option.bind_eq_some_iff.mp h
        simp_all
  · simp at h

/-- Everything a step of a core can do: an enabled butterfly of a transform's current stage (42_transform.md R133). -/
theorem State.coreStep_cases {s s' : State} {j : Nat} (h : s.coreStep j = some s') :
    s.busy = true ∧ s.phase = .stage ∧ j < 2 ^ s.l / 2 ∧ j ∉ s.doneset ∧
      ∃ i k, decodeOpcode s.cur = some i ∧ kernelOf i s = some k ∧ s' = s.butterfly k.inverse j := by
  unfold State.coreStep at h
  split at h
  · rename_i hc
    simp only [Bool.and_eq_true, decide_eq_true_eq, Bool.not_eq_true', Bool.eq_false_iff] at hc
    obtain ⟨k, hk, rfl⟩ := Option.map_eq_some_iff.mp h
    obtain ⟨i, hi, hik⟩ := Option.bind_eq_some_iff.mp hk
    refine ⟨hc.1.1.1, hc.1.1.2, hc.1.2, ?_, i, k, hi, hik, rfl⟩
    simpa using hc.2
  · simp at h

/-- A step of the block is a step of the sequencer or of a core. -/
theorem State.blockStep_cases {s s' : State} (h : s.blockStep = some s') :
    s.seqStep = some s' ∨ ∃ j, s.coreStep j = some s' := by
  unfold State.blockStep at h
  split at h
  · simp_all
  · obtain ⟨j, _, hj⟩ := Option.bind_eq_some_iff.mp h
    exact .inr ⟨j, hj⟩

/-- A round of the cores is a sequence of enabled butterfly steps: what every such step keeps, the round keeps. -/
theorem State.coreRound_induct {p : State → Prop} (js : List Nat) {s : State} (h : p s)
    (hstep : ∀ s j s', p s → s.coreStep j = some s' → p s') : p (s.coreRound js) := by
  unfold State.coreRound
  generalize js.take s.params.lanes = ks
  induction ks generalizing s with
  | nil => exact h
  | cons j ks ih =>
    rw [List.foldl_cons]
    cases hc : s.coreStep j with
    | none => exact ih h
    | some s' => exact ih (hstep s j s' h hc)

end Sys2Proof.Machine
end

