-- ==== Sys2Proof/Laws/Command.lean ====
section
/-! SUPPORT. What a command, a transaction and a step can answer, said once. -/

namespace Sys2Proof.Machine

/-- The part of a command that follows its check (30_encoding.md R73 steps 3 and 4). -/
def bodyOf (i : Instr) (s : State) : State :=
  match i with
  | .fadd => (executeFadd (s.toPhase .exec)).commit
  | .fsub => (executeFsub (s.toPhase .exec)).commit
  | .fmul => (executeFmul (s.toPhase .exec)).commit
  | .mulw => (executeMulw (s.toPhase .exec)).commit
  | .fred => (executeFred (s.toPhase .exec)).commit
  | .finv => (executeFinv (s.toPhase .exec)).commit
  | .init => (executeInit (s.toPhase .exec)).commit
  | .teardown => (executeTeardown (s.toPhase .exec)).commit
  | .ntt => runTransform (kernelNtt s) s
  | .nttc => runTransform (kernelNttc s) s
  | .intt => runTransform (kernelIntt s) s
  | .inttc => runTransform (kernelInttc s) s

/-- Every meaning is the shared life of a command with its own check and body. -/
theorem exec_eq_command (i : Instr) (s : State) : exec i s = command i (checkOf i) (bodyOf i) s := by
  cases i <;> rfl

/-- Everything `exec` can answer: an ERR response while FAULT = 1, a BUSY_ACCESS fault while BUSY = 1, the first
failing check, or the command's own effect. -/
theorem exec_cases (i : Instr) (s : State) :
    (s.fault = true ∧ exec i s = .next (s.respond Response.error)) ∨
    (s.fault = false ∧ s.busy = true ∧
      exec i s = .next ((s.takeFatal .busyAccess 0#8).respond Response.error)) ∨
    (s.Ready ∧ ∃ r, checkOf i ((s.respond Response.okay).issue i) = some r ∧
      exec i s = .next (((s.respond Response.okay).issue i).raise r)) ∨
    (s.Ready ∧ checkOf i ((s.respond Response.okay).issue i) = none ∧
      exec i s = .next (bodyOf i ((s.respond Response.okay).issue i))) := by
  rw [exec_eq_command]
  unfold command State.Ready
  cases hf : s.fault <;> cases hb : s.busy <;> simp
  cases checkOf i ((s.respond Response.okay).issue i) <;> simp

/-- The issued state of a command has the operands of the state it was issued in. -/
@[simp] theorem checkOf_issued (i : Instr) (s : State) (r : Response) :
    checkOf i ((s.respond r).issue i) = checkOf i s :=
  checkOf_congr i rfl rfl rfl rfl rfl rfl rfl

@[simp] theorem kernelOf_issued (i : Instr) (s : State) (r : Response) :
    kernelOf i ((s.respond r).issue i) = kernelOf i s :=
  kernelOf_congr i rfl rfl rfl rfl rfl rfl

/-- A command whose checks pass in a ready state has its own effect. -/
theorem exec_of_checked {i : Instr} {s : State} (hr : s.Ready) (hc : checkOf i s = none) :
    exec i s = .next (bodyOf i ((s.respond Response.okay).issue i)) := by
  rcases exec_cases i s with ⟨h, _⟩ | ⟨_, h, _⟩ | ⟨_, r, h, _⟩ | ⟨_, _, h⟩
  · simp [hr.2] at h
  · simp [hr.1] at h
  · simp [hc] at h
  · exact h

/-- A command ends by its first failing check (60_exceptions.md R177). -/
theorem exec_of_failed {i : Instr} {s : State} {r : Raise} (hr : s.Ready) (hc : checkOf i s = some r) :
    exec i s = .next (((s.respond Response.okay).issue i).raise r) := by
  rcases exec_cases i s with ⟨h, _⟩ | ⟨_, h, _⟩ | ⟨_, r', h, he⟩ | ⟨_, h, _⟩
  · simp [hr.2] at h
  · simp [hr.1] at h
  · rw [checkOf_issued, hc] at h
    cases h
    exact he
  · simp [hc] at h

/-- `exec` always answers a next state. -/
theorem exec_is_next (i : Instr) (s : State) : ∃ t, exec i s = .next t := by
  rcases exec_cases i s with ⟨_, h⟩ | ⟨_, _, h⟩ | ⟨_, _, _, h⟩ | ⟨_, _, h⟩ <;> exact ⟨_, h⟩

/-- Everything a step can do, by the head of the script. -/
theorem step_cases {s s' : State} (h : step s = .next s') :
    s.params.wellFormed = true ∧
      ((s.script = [] ∧ s.busy = false ∧ s' = s) ∨
       (s.script = [] ∧ s.busy = true ∧ s.blockStep = some s') ∨
       ∃ e rest, s.script = e :: rest ∧ State.perform e { s with script := rest } = .next s') := by
  unfold step at h
  split at h
  · refine ⟨by assumption, ?_⟩
    unfold State.advance at h
    split at h
    · cases hb : s.busy
      · simp_all
      · simp only [hb, if_true] at h
        unfold State.runBlock at h
        split at h <;> simp_all
    · rename_i e rest hs
      exact .inr (.inr ⟨e, rest, hs, h⟩)
  · simp at h

/-- No script entry is refused: the check of the instance is the only refusal of a step (log 18). -/
theorem State.advance_ne_refused (s : State) (r : Refusal) : s.advance ≠ .refused r := by
  have hrun (u : State) : u.runBlock ≠ .refused r := by
    unfold State.runBlock
    split <;> simp
  unfold State.advance
  split
  · split
    · exact hrun s
    · simp
  · rename_i e rest _
    cases e <;> simp only [State.perform, ne_eq, reduceCtorEq, not_false_eq_true]
    · unfold State.callWord
      split
      · obtain ⟨t, ht⟩ := exec_is_next ‹Instr› { s with script := rest }
        simp [ht]
      · simp
    · split
      · exact hrun _
      · simp

/-- Everything one script entry can do. -/
theorem State.perform_cases {e : Event} {s s' : State} (h : State.perform e s = .next s') :
    (e = .rst ∧ s' = s.rstAction) ∨
    (∃ t, e = .txn t ∧ s' = s.transact t) ∨
    (∃ a, e = .bus a ∧ s' = s.busTransact a) ∨
    (∃ w i, e = .call w ∧ decode w = .ok i ∧ exec i s = .next s') ∨
    (∃ w d, e = .call w ∧ decode w = .error d ∧ s' = s.transact (.write cmdAddr w)) ∨
    (e = .wait ∧ s.busy = true ∧ ({ s with script := .wait :: s.script } : State).blockStep = some s') ∨
    (e = .wait ∧ s.busy = false ∧ s' = s.transact (.read statusAddr)) ∨
    (e = .seq ∧ s' = s.seqStep.getD s) ∨
    (∃ js, e = .cores js ∧ s' = s.coreRound js) ∨
    (e = .devFault ∧ s' = s.armDevice) := by
  cases e with
  | rst => simp_all [State.perform]
  | txn t => simp_all [State.perform]
  | bus a => simp_all [State.perform]
  | call w =>
    simp only [State.perform, State.callWord] at h
    split at h
    · rename_i i hi
      exact .inr (.inr (.inr (.inl ⟨w, i, rfl, hi, h⟩)))
    · rename_i d hd
      simp only [Host.Outcome.next.injEq] at h
      exact .inr (.inr (.inr (.inr (.inl ⟨w, d, rfl, hd, h.symm⟩))))
  | wait =>
    cases hb : s.busy
    · simp_all [State.perform]
    · simp only [State.perform, hb, if_true, State.runBlock] at h
      split at h <;> simp_all
  | seq => simp_all [State.perform]
  | cores js => simp_all [State.perform]
  | devFault => simp_all [State.perform]

/-- Everything a transaction can do (20_memory.md R57 to R59). -/
theorem State.transact_cases (s : State) (t : Txn) :
    (∃ r, s.transact t = s.respond r) ∨
    (∃ c, s.fault = false ∧ (c = .busyAccess ∨ c = .badAddr) ∧
      s.transact t = (s.takeFatal c 0#8).respond Response.error) ∨
    (∃ a v s', s.Ready ∧ t = .write a v ∧ s.portWrite a v = some s' ∧ s.transact t = s'.respond Response.okay) := by
  unfold State.transact State.Ready
  cases hf : s.fault
  · cases hb : s.busy
    · simp only [if_false, Bool.false_eq_true]
      unfold State.transactIdle
      cases t with
      | read a =>
        cases hr : s.portRead a with
        | none => simp [hr]
        | some v => exact .inl ⟨_, by simp [hr]; rfl⟩
      | write a v => cases hw : s.portWrite a v <;> simp [hw]
    · simp only [if_false, if_true, Bool.false_eq_true]
      unfold State.transactBusy
      split
      · exact .inl ⟨_, rfl⟩
      · simp
  · simp only [if_true]
    unfold State.transactFaulted
    cases t with
    | read a => cases hr : s.portRead a <;> exact .inl ⟨_, by simp [hr]; rfl⟩
    | write a v => exact .inl ⟨_, rfl⟩

/-- Everything a legal write can do: an ARG register, a cell of VIN, or the issue of a command word (20_memory.md
R60). -/
theorem State.portWrite_cases {s s' : State} {a v : Word} (h : s.portWrite a v = some s') :
    s' = { s with arg0 := v } ∨ s' = { s with arg1 := v } ∨ s' = { s with arg2 := v } ∨ s' = { s with arg3 := v } ∨
    s' = s.issueWord v ∨ (index a < s.params.capn ∧ s' = { s with vin := s.vin.write (index a) v }) := by
  unfold State.portWrite at h
  split at h
  · unfold State.csrWrite at h
    split at h <;> simp_all
  · split at h <;> simp_all
  · simp at h

/-- A write of a command word issues its command or takes ILLEGAL_CMD (30_encoding.md R73 step 1). -/
theorem State.issueWord_cases (s : State) (w : Word) :
    (∃ i, decode w = .ok i ∧ s.issueWord w = s.issue i) ∨
    (∃ d, decode w = .error d ∧ s.issueWord w = s.takeFatal .illegalCmd (w.extractLsb' 0 8)) := by
  unfold State.issueWord
  cases decode w <;> simp

end Sys2Proof.Machine
end

