-- ==== Sys2Proof/Laws/Field.lean ====
section
/-! SUPPORT. What the field-arithmetic units compute, as numbers (40_field_arithmetic.md R91 to R96). -/

namespace Sys2Proof.Machine

theorem toNat_ofNat_of_lt {n : Nat} (h : n < 2 ^ 64) : (BitVec.ofNat 64 n).toNat = n := by
  simp only [BitVec.toNat_ofNat]
  exact Nat.mod_eq_of_lt h

/-- `fadd` is addition modulo `P` on reduced words (R91). -/
theorem toNat_fadd {P : Nat} {a b : Word} (ha : a.toNat < P) (hb : b.toNat < P) (hP : P < 2 ^ 64) :
    (fadd P a b).toNat = (a.toNat + b.toNat) % P := by
  unfold fadd
  simp only
  split
  · rw [toNat_ofNat_of_lt (by omega), Nat.mod_eq_sub_mod (by omega), Nat.mod_eq_of_lt (by omega)]
  · rw [toNat_ofNat_of_lt (by omega), Nat.mod_eq_of_lt (by omega)]

/-- `fsub` is subtraction modulo `P` on reduced words (R92). -/
theorem toNat_fsub {P : Nat} {a b : Word} (ha : a.toNat < P) (hb : b.toNat < P) (hP : P < 2 ^ 64) :
    (fsub P a b).toNat = (a.toNat + (P - b.toNat)) % P := by
  unfold fsub
  split
  · rw [toNat_ofNat_of_lt (by omega), Nat.mod_eq_sub_mod (by omega), Nat.mod_eq_of_lt (by omega)]
    omega
  · rw [toNat_ofNat_of_lt (by omega), Nat.mod_eq_of_lt (by omega)]
    omega

/-- The product never overflows 128 bits (R93). -/
theorem toNat_mulw (a b : Word) : (mulw a b).toNat = a.toNat * b.toNat := by
  have ha := a.isLt
  have hb := b.isLt
  have : a.toNat * b.toNat < 2 ^ 128 := by
    calc a.toNat * b.toNat < 2 ^ 64 * 2 ^ 64 := Nat.mul_lt_mul'' ha hb
      _ = 2 ^ 128 := by norm_num
  rw [mulw, BitVec.toNat_ofNat, Nat.mod_eq_of_lt this]

/-- `fred` is the remainder (R94). -/
theorem toNat_fred {P : Nat} (hP : P < 2 ^ 64) (x : BitVec 128) (h0 : 0 < P) : (fred P x).toNat = x.toNat % P := by
  rw [fred, toNat_ofNat_of_lt]
  exact lt_trans (Nat.mod_lt _ h0) hP

/-- `fmul` is multiplication modulo `P` (R95). -/
theorem toNat_fmul {P : Nat} (h0 : 0 < P) (hP : P < 2 ^ 64) (a b : Word) :
    (fmul P a b).toNat = a.toNat * b.toNat % P := by
  rw [fmul, toNat_fred hP _ h0, toNat_mulw]

theorem fadd_lt {P : Nat} {a b : Word} (ha : a.toNat < P) (hb : b.toNat < P) (hP : P < 2 ^ 64) :
    (fadd P a b).toNat < P := by
  rw [toNat_fadd ha hb hP]
  exact Nat.mod_lt _ (by omega)

theorem fsub_lt {P : Nat} {a b : Word} (ha : a.toNat < P) (hb : b.toNat < P) (hP : P < 2 ^ 64) :
    (fsub P a b).toNat < P := by
  rw [toNat_fsub ha hb hP]
  exact Nat.mod_lt _ (by omega)

theorem fmul_lt {P : Nat} (h0 : 0 < P) (hP : P < 2 ^ 64) (a b : Word) : (fmul P a b).toNat < P := by
  rw [toNat_fmul h0 hP]
  exact Nat.mod_lt _ h0

/-- Square-and-multiply with enough halvings. -/
theorem toNat_fpowUpTo {P : Nat} (h1 : 1 < P) (hP : P < 2 ^ 64) (fuel : Nat) (a : Word) (e : Nat)
    (he : e < 2 ^ fuel) : (fpowUpTo P fuel a e).toNat = a.toNat ^ e % P := by
  induction fuel generalizing a e with
  | zero =>
    have : e = 0 := by simpa using he
    subst this
    simp [fpowUpTo, Nat.mod_eq_of_lt h1]
  | succ fuel ih =>
    have hsq (k : Nat) : (fmul P a a).toNat ^ k % P = (a.toNat ^ (2 * k)) % P := by
      rw [toNat_fmul (by omega) hP, ← Nat.pow_mod, ← pow_two, ← pow_mul]
    have hlt : e / 2 < 2 ^ fuel := by rw [pow_succ] at he; omega
    rw [fpowUpTo]
    split
    · subst_vars; simp [Nat.mod_eq_of_lt h1]
    · split
      · rw [ih _ _ hlt, hsq, show 2 * (e / 2) = e by omega]
      · rw [toNat_fmul (by omega) hP, ih _ _ hlt, hsq, Nat.mul_mod_mod, ← pow_succ',
          show 2 * (e / 2) + 1 = e by omega]

/-- `fpow` is exponentiation modulo `P` (R96). -/
theorem toNat_fpow {P : Nat} (h1 : 1 < P) (hP : P < 2 ^ 64) (a : Word) (e : Nat) :
    (fpow P a e).toNat = a.toNat ^ e % P :=
  toNat_fpowUpTo h1 hP _ a e Nat.lt_log2_self

theorem fpow_lt {P : Nat} (h1 : 1 < P) (hP : P < 2 ^ 64) (a : Word) (e : Nat) : (fpow P a e).toNat < P := by
  rw [toNat_fpow h1 hP]
  exact Nat.mod_lt _ (by omega)

/-- The cells a butterfly of stage `T` reads lie in the source vector (42_transform.md R136 b). -/
theorem stage_reads_inside {L T j : Nat} (hj : j < 2 ^ L / 2) (hT : T < L) :
    j + (j - j % 2 ^ (L - 1 - T)) + 2 ^ (L - 1 - T) < 2 ^ L := by
  obtain ⟨M, rfl⟩ : ∃ M, L = T + M + 1 := ⟨L - 1 - T, by omega⟩
  simp only [show T + M + 1 - 1 - T = M by omega]
  have hhalf : 2 ^ (T + M + 1) = 2 ^ (T + M) * 2 := pow_succ 2 _
  have hpos : 0 < 2 ^ M := Nat.two_pow_pos M
  have hq : j / 2 ^ M < 2 ^ T := by
    rw [Nat.div_lt_iff_lt_mul hpos, ← pow_add]; omega
  have hdm := Nat.div_add_mod j (2 ^ M)
  have hr := Nat.mod_lt j hpos
  have hmul : 2 ^ M * (j / 2 ^ M) + 2 ^ M ≤ 2 ^ (T + M) := by
    calc 2 ^ M * (j / 2 ^ M) + 2 ^ M = 2 ^ M * (j / 2 ^ M + 1) := by ring
      _ ≤ 2 ^ M * 2 ^ T := Nat.mul_le_mul_left _ hq
      _ = 2 ^ (T + M) := by rw [← pow_add, Nat.add_comm]
  omega

/-- The butterfly that owns a cell of the destination. -/
theorem stage_owner_lt {L i : Nat} (hL : 0 < L) (hi : i < 2 ^ L) :
    (if i < 2 ^ L / 2 then i else i - 2 ^ L / 2) < 2 ^ L / 2 := by
  obtain ⟨M, rfl⟩ : ∃ M, L = M + 1 := ⟨L - 1, by omega⟩
  have : 2 ^ (M + 1) = 2 ^ M * 2 := pow_succ 2 _
  split <;> omega

/-- A cell of a stage is reduced when the source vector is. -/
theorem stageCell_lt {P L T : Nat} {tw src : Nat → Word} {i : Nat} (h0 : 0 < P) (hP : P < 2 ^ 64)
    (hsrc : ∀ k, k < 2 ^ L → (src k).toNat < P) (hi : i < 2 ^ L) (hT : T < L) :
    (stageCell P tw L T src i).toNat < P := by
  have hin := stage_reads_inside (stage_owner_lt (by omega) hi) hT
  have ha := hsrc _ (lt_of_le_of_lt (Nat.le_add_right _ _) hin)
  unfold stageCell
  simp only
  split
  · rename_i h
    rw [if_pos h] at ha
    exact fadd_lt ha (fmul_lt h0 hP _ _) hP
  · rename_i h
    rw [if_neg h] at ha
    exact fsub_lt ha (fmul_lt h0 hP _ _) hP

/-- A cell of a stage depends on the source vector alone (42_transform.md R136). -/
theorem stageCell_congr {P L T : Nat} {tw src src' : Nat → Word} {i : Nat}
    (h : ∀ k, k < 2 ^ L → src k = src' k) (hi : i < 2 ^ L) (hT : T < L) :
    stageCell P tw L T src i = stageCell P tw L T src' i := by
  have hin := stage_reads_inside (stage_owner_lt (by omega) hi) hT
  unfold stageCell
  simp only
  rw [h _ (by omega), h _ hin]

/-- A power of two is `2 ^ log2` of itself. -/
theorem ispow2_eq {v : Nat} (h : ispow2 v = true) : v = 2 ^ Nat.log2 v := by
  simp only [ispow2, Bool.and_eq_true, decide_eq_true_eq] at h
  obtain ⟨k, hk⟩ := (Nat.and_sub_one_eq_zero_iff_isPowerOfTwo h.1).mp h.2
  rw [hk, Nat.log2_two_pow]

end Sys2Proof.Machine
end

