-- ==== Sys2Proof/Laws/Invariant.lean ====
section
/-! SUPPORT. How each shared operation keeps the structural invariant `State.Inv` (Safety.lean): the pieces from which
an invariant of `step` is assembled. -/

namespace Sys2Proof.Machine

/-! ### Memories of the state -/

theorem State.memoriesWf_iff (s : State) : s.memoriesWf = true ↔
    s.vin.wf = true ∧ s.vout.wf = true ∧ s.buf0.wf = true ∧ s.buf1.wf = true ∧ ∀ b ∈ s.bundles, b.wf = true := by
  simp [State.memoriesWf, and_assoc]

theorem State.memoriesBelow_iff (s : State) : s.memoriesBelow = true ↔
    s.vin.below s.params.capn = true ∧ s.vout.below s.params.capn = true ∧
      s.buf0.below s.params.capn = true ∧ s.buf1.below s.params.capn = true := by
  simp [State.memoriesBelow, and_assoc]

@[simp] theorem Bundle.unspecified_wf (d : Nat) : (Bundle.unspecified d).wf = true := rfl

theorem Bundle.generate_wf {b : Bundle} (h : b.wf = true) (c : Params) (k : Nat) : (b.generate c k).wf = true := by
  simp only [Bundle.wf, Bool.and_eq_true] at h ⊢
  exact ⟨⟨Memory.writeFrom_wf _ h.1.1 _, Memory.writeFrom_wf _ h.1.2 _⟩, Memory.writeFrom_wf _ h.2 _⟩

theorem mem_bundlesUnspecified {n d : Nat} {b : Bundle} (h : b ∈ bundlesUnspecified n d) :
    ∃ e, b = Bundle.unspecified e := by
  simp only [bundlesUnspecified, List.mem_map] at h
  obtain ⟨k, _, rfl⟩ := h
  exact ⟨_, rfl⟩

@[simp] theorem bundlesUnspecified_length (n d : Nat) : (bundlesUnspecified n d).length = n := by
  simp [bundlesUnspecified]

theorem forall_mem_modify {p : Bundle → Prop} {bs : List Bundle} (h : ∀ b ∈ bs, p b) {f : Bundle → Bundle}
    (hf : ∀ b, p b → p (f b)) (k : Nat) : ∀ b ∈ bs.modify k f, p b := by
  intro b hb
  obtain ⟨i, hi, rfl⟩ := List.mem_iff_getElem.mp hb
  rw [List.getElem_modify]
  have := h _ (List.getElem_mem (by simpa using hi))
  split
  · exact hf _ this
  · exact this

theorem State.abandonedBundles_wf {s : State} (h : ∀ b ∈ s.bundles, b.wf = true) :
    ∀ b ∈ s.abandonedBundles, b.wf = true := by
  unfold State.abandonedBundles
  split
  · exact forall_mem_modify h (fun b _ => rfl) _
  · exact h

@[simp] theorem State.abandonedBundles_length (s : State) : s.abandonedBundles.length = s.bundles.length := by
  unfold State.abandonedBundles
  split <;> simp

/-- The VALID bits do not change when a command is abandoned (60_exceptions.md R174). -/
theorem State.abandonedBundles_valid (s : State) :
    s.abandonedBundles.map Bundle.valid = s.bundles.map Bundle.valid := by
  unfold State.abandonedBundles
  split
  · apply List.ext_getElem
    · simp
    · intro k h1 h2
      simp only [List.getElem_map, List.getElem_modify]
      split <;> rfl
  · rfl

/-! ### Idle states -/

/-- An idle state with canonical, bounded memories and a legal STATUS meets the invariant. -/
theorem State.Inv.of_idle {s : State} (canonical : s.memoriesWf = true) (bounded : s.memoriesBelow = true)
    (registry : s.bundles.length = s.params.lognMax + 1) (busy : s.busy = false) (phase : s.phase = .idle)
    (doneAlone : s.done = true → s.fail = false) (faultAlone : s.fault = true → s.done = false ∧ s.fail = false) :
    s.Inv where
  canonical := canonical
  bounded := bounded
  registry := registry
  busyAlone := by simp [busy]
  doneAlone := doneAlone
  faultAlone := fun h => ⟨busy, faultAlone h⟩
  busyPhase := by simp [busy, phase]
  inFlight := by simp [busy]

theorem State.Inv.phase_idle {s : State} (h : s.Inv) (hb : s.busy = false) : s.phase = .idle := by
  have := h.busyPhase
  simp only [hb, Bool.false_eq_true, ne_eq, false_iff, not_not] at this
  exact this

/-- The sequencer condition reads the operands, the registry and the sequencer state. -/
theorem State.sequencing_congr (i : Instr) {s t : State} (hp : t.params = s.params) (h0 : t.arg0 = s.arg0)
    (h1 : t.arg1 = s.arg1) (h2 : t.arg2 = s.arg2) (h3 : t.arg3 = s.arg3) (hv : t.vin = s.vin)
    (hb : t.bundles = s.bundles) (hph : t.phase = s.phase) (hh : t.held = s.held) (hl : t.l = s.l) (ht : t.t = s.t)
    (hs : t.sel = s.sel) (hd : t.doneset = s.doneset) : t.sequencing i ↔ s.sequencing i := by
  have hc := checkOf_congr i hp h0 h1 h2 h3 hv (by rw [hb])
  have hk := kernelOf_congr i hp h0 h1 h2 hv hb
  have he := executeOf_held_congr i hp h0 h1
  have hx : (∃ u, executeOf i t = some u ∧ s.held = u.held) ↔ ∃ u, executeOf i s = some u ∧ s.held = u.held := by
    cases ha : executeOf i t <;> cases hb : executeOf i s <;> simp_all
  unfold State.sequencing
  rw [hph, hh, hc, hk, hl, ht, hs, hd, hx]

/-- The model's own fields do not matter to the invariant. -/
theorem State.Inv.own_fields {s : State} (h : s.Inv) (r : Option Response) (sc : List Event) (d : Bool) (n : Nat) :
    State.Inv { s with response := r, script := sc, devFault := d, draws := n } where
  canonical := h.canonical
  bounded := h.bounded
  registry := h.registry
  busyAlone := h.busyAlone
  doneAlone := h.doneAlone
  faultAlone := h.faultAlone
  busyPhase := h.busyPhase
  inFlight := fun hb => by
    obtain ⟨i, hi, hs⟩ := h.inFlight hb
    exact ⟨i, hi, (State.sequencing_congr i (s := s)
      (t := { s with response := r, script := sc, devFault := d, draws := n }) rfl rfl rfl rfl rfl rfl rfl rfl rfl rfl rfl rfl rfl).mpr hs⟩

theorem State.Inv.respond {s : State} (h : s.Inv) (r : Response) : (s.respond r).Inv :=
  h.own_fields (some r) s.script s.devFault s.draws

theorem State.Inv.armDevice {s : State} (h : s.Inv) : s.armDevice.Inv :=
  h.own_fields s.response s.script _ s.draws

theorem State.Inv.withScript {s : State} (h : s.Inv) (sc : List Event) : State.Inv { s with script := sc } :=
  h.own_fields s.response sc s.devFault s.draws

/-! ### Ends of commands -/

/-- Taking a fatal fault keeps the invariant. -/
theorem State.Inv.takeFatal {s : State} (h : s.Inv) (c : FatalCode) (o : Byte) : (s.takeFatal c o).Inv := by
  cases hf : s.fault
  · have hw := (State.memoriesWf_iff s).mp h.canonical
    have hb := (State.memoriesBelow_iff s).mp h.bounded
    rw [State.takeFatal_eq s hf]
    apply State.Inv.of_idle
    · rw [State.memoriesWf_iff]
      exact ⟨hw.1, hw.2.1, rfl, rfl, State.abandonedBundles_wf hw.2.2.2.2⟩
    · rw [State.memoriesBelow_iff]
      exact ⟨hb.1, hb.2.1, rfl, rfl⟩
    · simpa using h.registry
    all_goals simp
  · rw [State.takeFatal_of_fault s hf]; exact h

/-- A call failure keeps the invariant. -/
theorem State.Inv.takeFail {s : State} (h : s.Inv) (c : FailCode) : (s.takeFail c).Inv :=
  State.Inv.of_idle h.canonical h.bounded h.registry rfl rfl (by simp) (by simp)

/-- A device execution failure keeps the invariant when its result vector fits VOUT. -/
theorem State.Inv.takeDevice {s : State} (h : s.Inv) {len : Nat} (hl : len ≤ s.params.capn) :
    (s.takeDevice len).Inv := by
  have hw := (State.memoriesWf_iff s).mp h.canonical
  have hb := (State.memoriesBelow_iff s).mp h.bounded
  refine State.Inv.of_idle ?_ ?_ h.registry rfl rfl (by simp [State.takeDevice]) (by simp [State.takeDevice])
  · rw [State.memoriesWf_iff]
    exact ⟨hw.1, Memory.writeFrom_wf _ hw.2.1 _, hw.2.2⟩
  · rw [State.memoriesBelow_iff]
    exact ⟨hb.1, Memory.writeFrom_below _ hb.2.1 (by simpa [State.takeDevice] using hl), hb.2.2⟩

theorem State.Inv.raise {s : State} (h : s.Inv) (r : Raise) : (s.raise r).Inv := by
  cases r with
  | fatal c => exact h.takeFatal c _
  | fail c => exact h.takeFail c

/-- A commit keeps the invariant when the held vector fits VOUT. -/
theorem State.Inv.commit {s : State} (canonical : s.memoriesWf = true) (bounded : s.memoriesBelow = true)
    (registry : s.bundles.length = s.params.lognMax + 1) (hfail : s.fail = false) (hfault : s.fault = false)
    (hv : ∀ out, s.held = .vector out → out.length ≤ s.params.capn) : s.commit.Inv := by
  have hw := (State.memoriesWf_iff s).mp canonical
  have hb := (State.memoriesBelow_iff s).mp bounded
  refine State.Inv.of_idle ?_ ?_ ?_ rfl rfl (by simp [State.commit, hfail]) (by simp [State.commit, hfault])
  · rw [State.memoriesWf_iff]
    refine ⟨by simpa [State.commit] using hw.1, ?_, by simpa [State.commit] using hw.2.2.1,
      by simpa [State.commit] using hw.2.2.2.1, ?_⟩
    · simp only [State.commit, State.finish_vout, State.writeResult]
      split
      · exact hw.2.1
      · exact hw.2.1
      · exact hw.2.1
      · exact Memory.writeFrom_wf _ hw.2.1 _
      · exact hw.2.1
      · exact hw.2.1
    · simp only [State.commit, State.finish_bundles, State.writeResult]
      split
      · exact hw.2.2.2.2
      · exact hw.2.2.2.2
      · exact hw.2.2.2.2
      · exact hw.2.2.2.2
      · exact forall_mem_modify (p := fun b => b.wf = true) (f := fun b => { b with valid := true }) hw.2.2.2.2
          (fun _ hb => hb) _
      · intro b hb
        obtain ⟨e, rfl⟩ := mem_bundlesUnspecified hb
        rfl
  · rw [State.memoriesBelow_iff]
    refine ⟨by simpa [State.commit] using hb.1, ?_, by simpa [State.commit] using hb.2.2.1,
      by simpa [State.commit] using hb.2.2.2⟩
    simp only [State.commit, State.finish_vout, State.finish_params, State.writeResult]
    split
    · exact hb.2.1
    · exact hb.2.1
    · exact hb.2.1
    · rename_i out ho
      exact Memory.writeFrom_below _ hb.2.1 (by simpa using hv out ho)
    · exact hb.2.1
    · exact hb.2.1
  · simp only [State.commit, State.finish_params, State.finish_bundles, State.writeResult_params]
    unfold State.writeResult
    split <;> simp [State.validated, State.invalidated, registry]

/-! ### What a passed check says of a transform -/

/-- The size of a transform whose check has passed fits the store. -/
theorem kernel_fits {i : Instr} {s : State} {k : Kernel} (hc : checkOf i s = none) (hk : kernelOf i s = some k) :
    k.logSize ≤ s.params.lognMax := by
  cases i <;> simp [kernelOf] at hk <;> subst hk <;>
    simp [checkOf, checkNtt, checkNttc, checkIntt, checkInttc] at hc <;>
    simp [kernelNtt, kernelNttc, kernelIntt, kernelInttc, hc]

theorem kernel_size_le {i : Instr} {s : State} {k : Kernel} (hc : checkOf i s = none) (hk : kernelOf i s = some k) :
    2 ^ k.logSize ≤ s.params.capn :=
  Nat.pow_le_pow_right (by omega) (kernel_fits hc hk)

/-! ### Steps of a command in flight -/

/-- Issue keeps the invariant. -/
theorem State.Inv.issue {s : State} (h : s.Inv) (hf : s.fault = false) (i : Instr) : (s.issue i).Inv where
  canonical := h.canonical
  bounded := h.bounded
  registry := h.registry
  busyAlone := by simp
  doneAlone := by simp
  faultAlone := by simp [hf]
  busyPhase := by simp
  inFlight := fun _ => ⟨i, by simp [decodeOpcode_opcode], by simp [State.sequencing]⟩

theorem State.Inv.issueWord {s : State} (h : s.Inv) (hf : s.fault = false) (w : Word) : (s.issueWord w).Inv := by
  rcases s.issueWord_cases w with ⟨i, _, he⟩ | ⟨d, _, he⟩ <;> rw [he]
  · exact h.issue hf i
  · exact h.takeFatal _ _

/-- A busy state with the STATUS bits of a command in flight meets the invariant. -/
theorem State.Inv.of_busy {s t : State} (h : s.Inv) (hb : s.busy = true) (canonical : t.memoriesWf = true)
    (bounded : t.memoriesBelow = true) (registry : t.bundles.length = t.params.lognMax + 1)
    (busy : t.busy = s.busy) (done : t.done = s.done) (fail : t.fail = s.fail) (fault : t.fault = s.fault)
    (phase : t.phase ≠ .idle) (inFlight : ∃ i, decodeOpcode t.cur = some i ∧ t.sequencing i) : t.Inv where
  canonical := canonical
  bounded := bounded
  registry := registry
  busyAlone := by rw [done, fail]; exact fun _ => h.busyAlone hb
  doneAlone := by rw [done, fail]; exact h.doneAlone
  faultAlone := by rw [fault, busy, done, fail]; exact h.faultAlone
  busyPhase := by rw [busy, hb]; simp [phase]
  inFlight := fun _ => inFlight

/-- The check step keeps the invariant. -/
theorem State.Inv.checkStep {s : State} (h : s.Inv) (hb : s.busy = true) {i : Instr}
    (hi : decodeOpcode s.cur = some i) (hp : s.phase = .check) : (s.checkStep i).Inv := by
  obtain ⟨i', hi', hs⟩ := h.inFlight hb
  obtain rfl : i' = i := by rw [hi] at hi'; exact (Option.some.inj hi').symm
  simp only [State.sequencing, hp] at hs
  unfold State.checkStep
  split
  · exact h.raise _
  · rename_i hc
    have hc' : checkOf i' (s.toPhase (phaseAfterCheck i')) = none := by
      rw [checkOf_congr i' rfl rfl rfl rfl rfl rfl rfl]; exact hc
    refine h.of_busy hb (by exact h.canonical) h.bounded h.registry rfl rfl rfl rfl ?_ ⟨i', hi, ?_⟩
    · simp only [State.toPhase_phase, phaseAfterCheck_eq i' s]
      split <;> simp
    · simp only [State.sequencing, State.toPhase_phase, phaseAfterCheck_eq i' s, State.toPhase_held]
      by_cases hk : kernelOf i' s = none
      · rw [if_pos hk]
        simp only [phaseAfterCheck_eq i' s, if_pos hk] at hc'
        exact ⟨(kernelOf_none_iff i' s _).mpr hk, hc', .inl hs⟩
      · rw [if_neg hk]
        simp only [phaseAfterCheck_eq i' s, if_neg hk] at hc'
        refine ⟨hs, hc', ?_⟩
        obtain ⟨k, hk⟩ := Option.ne_none_iff_exists'.mp hk
        exact ⟨k, Eq.trans (kernelOf_congr i' (s := s) rfl rfl rfl rfl rfl rfl) hk⟩

/-- What an execute step leaves alone. -/
theorem executeOf_frame {i : Instr} {s s' : State} (h : executeOf i s = some s') :
    s' = { s with held := s'.held, bundles := s'.bundles } ∧
      (s'.bundles = s.bundles ∨
        s'.bundles = s.bundles.modify (Nat.log2 s.opN) (Bundle.generate s.params (Nat.log2 s.opN))) := by
  cases i <;> simp [executeOf] at h <;> subst h <;>
    simp [executeFadd, executeFsub, executeFmul, executeMulw, executeFred, executeFinv, executeInit, executeTeardown,
      State.hold]

theorem modify_generate_valid (bs : List Bundle) (c : Params) (k : Nat) :
    (bs.modify k (Bundle.generate c k)).map Bundle.valid = bs.map Bundle.valid := by
  apply List.ext_getElem
  · simp
  · intro j h1 h2
    simp only [List.getElem_map, List.getElem_modify]
    split <;> rfl

/-- The execute step changes no VALID bit (41_twiddle_init.md R116). -/
theorem executeOf_valid {i : Instr} {s s' : State} (h : executeOf i s = some s') :
    s'.bundles.map Bundle.valid = s.bundles.map Bundle.valid := by
  rcases (executeOf_frame h).2 with he | he <;> rw [he]
  exact modify_generate_valid _ _ _

theorem executeOf_registry {i : Instr} {s s' : State} (h : executeOf i s = some s') :
    s'.bundles.length = s.bundles.length := by
  rcases (executeOf_frame h).2 with he | he <;> simp [he]

theorem executeOf_bundles_wf {i : Instr} {s s' : State} (h : executeOf i s = some s')
    (hw : ∀ b ∈ s.bundles, b.wf = true) : ∀ b ∈ s'.bundles, b.wf = true := by
  rcases (executeOf_frame h).2 with he | he <;> rw [he]
  · exact hw
  · exact forall_mem_modify hw (fun b hb => Bundle.generate_wf hb _ _) _

/-- The execute step keeps the invariant. -/
theorem State.Inv.executeStep {s s' : State} (h : s.Inv) (hb : s.busy = true) {i : Instr}
    (hi : decodeOpcode s.cur = some i) (hp : s.phase = .exec) (he : executeOf i s = some s') : s'.Inv := by
  obtain ⟨i', hi', hs⟩ := h.inFlight hb
  obtain rfl : i' = i := by rw [hi] at hi'; exact (Option.some.inj hi').symm
  simp only [State.sequencing, hp] at hs
  have hf := executeOf_frame he
  have hw := (State.memoriesWf_iff s).mp h.canonical
  have hwb := executeOf_bundles_wf he hw.2.2.2.2
  have hreg := executeOf_registry he
  have hval := executeOf_valid he
  have hheld : (executeOf i' s').map State.held = some s'.held := by
    rw [executeOf_held_congr i' (s := s) (by rw [hf.1]) (by rw [hf.1]) (by rw [hf.1]), he]; rfl
  obtain ⟨hf, -⟩ := hf
  generalize s'.held = hd, s'.bundles = bs at *
  subst hf
  refine h.of_busy hb ?_ h.bounded (by rw [hreg]; exact h.registry) rfl rfl rfl rfl ?_ ⟨i', hi, ?_⟩
  · rw [State.memoriesWf_iff]
    exact ⟨hw.1, hw.2.1, hw.2.2.1, hw.2.2.2.1, hwb⟩
  · simp [hp]
  · simp only [State.sequencing, hp]
    refine ⟨(kernelOf_none_iff i' s _).mpr hs.1, ?_, .inr ?_⟩
    · exact Eq.trans (checkOf_congr i' (s := s) rfl rfl rfl rfl rfl rfl hval) hs.2.1
    · simp only [hp] at hheld
      obtain ⟨u, hu, hu'⟩ := Option.map_eq_some_iff.mp hheld
      exact ⟨u, hu, hu'.symm⟩

/-- The load step keeps the invariant. -/
theorem State.Inv.loadStep {s : State} (h : s.Inv) (hb : s.busy = true) {i : Instr} {k : Kernel}
    (hi : decodeOpcode s.cur = some i) (hp : s.phase = .load) (hk : kernelOf i s = some k) : (s.loadStep k).Inv := by
  obtain ⟨i', hi', hs⟩ := h.inFlight hb
  obtain rfl : i' = i := by rw [hi] at hi'; exact (Option.some.inj hi').symm
  simp only [State.sequencing, hp] at hs
  have hw := (State.memoriesWf_iff s).mp h.canonical
  have hbl := (State.memoriesBelow_iff s).mp h.bounded
  have hsize := kernel_size_le hs.2.1 hk
  refine h.of_busy hb ?_ ?_ h.registry rfl rfl rfl rfl ?_ ⟨i', hi, ?_⟩
  · rw [State.memoriesWf_iff]
    exact ⟨hw.1, hw.2.1, Memory.writeFrom_wf _ hw.2.2.1 _, hw.2.2.2⟩
  · rw [State.memoriesBelow_iff]
    exact ⟨hbl.1, hbl.2.1, Memory.writeFrom_below _ hbl.2.2.1 (by simpa using hsize), hbl.2.2.2⟩
  · simp only [State.loadStep_phase]; split <;> simp
  · have hc : checkOf i' (s.loadStep k) = none := Eq.trans (checkOf_congr i' (s := s) rfl rfl rfl rfl rfl rfl rfl) hs.2.1
    have hk' : kernelOf i' (s.loadStep k) = some k := Eq.trans (kernelOf_congr i' (s := s) rfl rfl rfl rfl rfl rfl) hk
    by_cases hl : k.logSize = 0
    · simp only [State.sequencing, State.loadStep_phase, if_pos hl]
      exact ⟨hc, ⟨k, hk', rfl⟩, by simp [hl], by simp, .inl hs.1⟩
    · simp only [State.sequencing, State.loadStep_phase, if_neg hl]
      exact ⟨hs.1, hc, ⟨k, hk', rfl⟩, by simp; omega, by simp, by simp, by simp⟩

/-! ### The set DONESET -/

theorem mem_insertIndex {j x : Nat} {l : List Nat} : x ∈ insertIndex j l ↔ x = j ∨ x ∈ l := by
  induction l with
  | nil => simp [insertIndex]
  | cons i is ih =>
    simp only [insertIndex]
    split
    · simp
    · split
      · subst_vars; simp
      · simp [ih]; tauto

theorem insertIndex_sorted {j : Nat} {l : List Nat} (h : l.Pairwise (· < ·)) :
    (insertIndex j l).Pairwise (· < ·) := by
  induction l with
  | nil => simp [insertIndex]
  | cons i is ih =>
    rw [List.pairwise_cons] at h
    simp only [insertIndex]
    split
    · rw [List.pairwise_cons, List.pairwise_cons]
      refine ⟨?_, h⟩
      intro x hx
      rcases List.mem_cons.mp hx with rfl | hx
      · assumption
      · have := h.1 x hx; omega
    · split
      · rw [List.pairwise_cons]; exact h
      · rw [List.pairwise_cons]
        refine ⟨?_, ih h.2⟩
        intro x hx
        rcases mem_insertIndex.mp hx with rfl | hx
        · omega
        · exact h.1 x hx

/-! ### Butterflies and barriers -/

/-- A butterfly changes the destination buffer and DONESET, and nothing else. -/
theorem State.butterfly_eq (s : State) (inv : Bool) (j : Nat) : ∃ m, s.butterfly inv j =
    { s.setDst m with doneset := insertIndex j s.doneset } ∧
      ∃ a b, m = (s.dst.write j a).write (j + 2 ^ s.l / 2) b :=
  ⟨_, rfl, _, _, rfl⟩

theorem State.setDst_memoriesWf {s : State} (h : s.memoriesWf = true) {m : Memory} (hm : m.wf = true) :
    (s.setDst m).memoriesWf = true := by
  have hw := (State.memoriesWf_iff s).mp h
  rw [State.memoriesWf_iff]
  cases hs : s.sel <;> simp [State.setDst, hs, hw, hm] <;> exact hw.2.2.2.2

theorem State.setDst_memoriesBelow {s : State} (h : s.memoriesBelow = true) {m : Memory}
    (hm : m.below s.params.capn = true) : (s.setDst m).memoriesBelow = true := by
  have hw := (State.memoriesBelow_iff s).mp h
  rw [State.memoriesBelow_iff]
  cases hs : s.sel <;> simp [State.setDst, hs, hw, hm]

theorem State.dst_wf {s : State} (h : s.memoriesWf = true) : s.dst.wf = true := by
  have hw := (State.memoriesWf_iff s).mp h
  unfold State.dst
  split
  · exact hw.2.2.1
  · exact hw.2.2.2.1

theorem State.dst_below {s : State} (h : s.memoriesBelow = true) : s.dst.below s.params.capn = true := by
  have hw := (State.memoriesBelow_iff s).mp h
  unfold State.dst
  split
  · exact hw.2.2.1
  · exact hw.2.2.2

/-- A butterfly step keeps the invariant. -/
theorem State.Inv.coreStep {s s' : State} (h : s.Inv) {j : Nat} (hc : s.coreStep j = some s') : s'.Inv := by
  obtain ⟨hb, hp, hj, hn, i, k, hi, hk, rfl⟩ := State.coreStep_cases hc
  obtain ⟨i', hi', hs⟩ := h.inFlight hb
  obtain rfl : i' = i := by rw [hi] at hi'; exact (Option.some.inj hi').symm
  simp only [State.sequencing, hp] at hs
  obtain ⟨hheld, hchk, ⟨k', hk', hl⟩, ht, hsel, hsort, hlt⟩ := hs
  have hsize := kernel_size_le hchk hk'
  obtain ⟨m, hm, a, b, rfl⟩ := s.butterfly_eq k.inverse j
  rw [hm]
  have hpos : 2 ^ s.l / 2 + 2 ^ s.l / 2 ≤ s.params.capn := by rw [hl] at *; omega
  refine h.of_busy hb ?_ ?_ (by simpa using h.registry) (by simp) (by simp) (by simp) (by simp) (by simp [hp])
    ⟨i', by simpa using hi, ?_⟩
  · exact State.setDst_memoriesWf h.canonical (Memory.write_wf (Memory.write_wf (State.dst_wf h.canonical) _ _) _ _)
  · exact State.setDst_memoriesBelow h.bounded
      (Memory.write_below (Memory.write_below (State.dst_below h.bounded) (by omega) _) (by omega) _)
  · simp only [State.sequencing, State.setDst_phase, hp, State.setDst_held, State.setDst_l, State.setDst_t,
      State.setDst_sel]
    refine ⟨hheld, ?_, ⟨k', ?_, hl⟩, ht, hsel, insertIndex_sorted hsort, ?_⟩
    · rw [checkOf_congr i' (s := s) (by simp) (by simp) (by simp) (by simp) (by simp) (by simp) (by simp)]
      exact hchk
    · rw [kernelOf_congr i' (s := s) (by simp) (by simp) (by simp) (by simp) (by simp) (by simp)]
      exact hk'
    · intro x hx
      rcases mem_insertIndex.mp hx with rfl | hx
      · exact hj
      · exact hlt x hx

/-- The barrier step keeps the invariant. -/
theorem State.Inv.barrierStep {s : State} (h : s.Inv) (hb : s.busy = true) (hp : s.phase = .stage) :
    s.barrierStep.Inv := by
  obtain ⟨i, hi, hs⟩ := h.inFlight hb
  simp only [State.sequencing, hp] at hs
  obtain ⟨hheld, hchk, ⟨k, hk, hl⟩, ht, hsel, hsort, hlt⟩ := hs
  have hsel' : (!s.sel) = decide ((s.t + 1) % 2 = 1) := by
    rw [hsel]
    rcases Nat.mod_two_eq_zero_or_one s.t with h0 | h0 <;> simp [h0, Nat.add_mod]
  refine h.of_busy hb (by exact h.canonical) h.bounded h.registry rfl rfl rfl rfl ?_ ⟨i, hi, ?_⟩
  · simp only [State.barrierStep_phase]; split <;> simp [hp]
  · have hc : checkOf i s.barrierStep = none := Eq.trans (checkOf_congr i (s := s) rfl rfl rfl rfl rfl rfl rfl) hchk
    have hk' : kernelOf i s.barrierStep = some k := Eq.trans (kernelOf_congr i (s := s) rfl rfl rfl rfl rfl rfl) hk
    by_cases hlast : s.t + 1 = s.l
    · simp only [State.sequencing, State.barrierStep_phase, if_pos hlast]
      exact ⟨hc, ⟨k, hk', hl⟩, hlast, hsel', .inl hheld⟩
    · simp only [State.sequencing, State.barrierStep_phase, if_neg hlast, hp]
      exact ⟨hheld, hc, ⟨k, hk', hl⟩, by simp; omega, hsel', by simp, by simp⟩

/-- The store step keeps the invariant. -/
theorem State.Inv.storeStep {s : State} (h : s.Inv) (hb : s.busy = true) (hp : s.phase = .store) (k : Kernel) :
    (s.storeStep k).Inv := by
  obtain ⟨i, hi, hs⟩ := h.inFlight hb
  simp only [State.sequencing, hp] at hs
  obtain ⟨hchk, ⟨k', hk, hl⟩, ht, hsel, hheld⟩ := hs
  refine h.of_busy hb (by exact h.canonical) h.bounded h.registry rfl rfl rfl rfl (by simp [State.storeStep, hp])
    ⟨i, hi, ?_⟩
  have hc : checkOf i (s.storeStep k) = none := Eq.trans (checkOf_congr i (s := s) rfl rfl rfl rfl rfl rfl rfl) hchk
  have hk' : kernelOf i (s.storeStep k) = some k' := Eq.trans (kernelOf_congr i (s := s) rfl rfl rfl rfl rfl rfl) hk
  simp only [State.sequencing, State.storeStep, State.hold_phase, hp]
  exact ⟨hc, ⟨k', hk', hl⟩, ht, hsel, .inr ⟨_, rfl, by simp⟩⟩

end Sys2Proof.Machine
end

