-- ==== Sys2Proof/Laws/Ends.lean ====
section
/-! SUPPORT. How a command ends, said once: the fatal path, a call failure, and the arithmetic of the checks. -/

namespace Sys2Proof.Machine

/-- The fatal path of 60_exceptions.md R174, from a state with FAULT = 0. -/
theorem State.takeFatal_ended {s : State} (hf : s.fault = false) (c : FatalCode) (opc : Byte) :
    FatallyEnded s (s.takeFatal c opc) opc c.code := by
  have he : s.takeFatal c opc =
      { s with busy := false, done := false, fail := false, fault := true, err := errWord opc c.code, phase := .idle,
               held := .nothing, buf0 := Memory.unspecified s.draws, buf1 := Memory.unspecified (s.draws + 1),
               bundles := s.abandonedBundles, draws := s.draws + 6 } := by
    simp [State.takeFatal, hf]
  rw [he]
  refine { kept := ?_, busy := rfl, done := rfl, fail := rfl, fault := rfl, err := rfl, phase := rfl }
  exact { params := rfl, arg0 := rfl, arg1 := rfl, arg2 := rfl, arg3 := rfl, res0 := rfl, res1 := rfl, vin := rfl,
          vout := rfl, validBits := s.abandonedBundles_valid }

/-- A fatal path stays one under an OK or ERR response. -/
theorem FatallyEnded.respond {s t : State} {opc code : Byte} (h : FatallyEnded s t opc code) (r : Response) :
    FatallyEnded s (t.respond r) opc code :=
  { kept := { params := h.kept.params, arg0 := h.kept.arg0, arg1 := h.kept.arg1, arg2 := h.kept.arg2,
              arg3 := h.kept.arg3, res0 := h.kept.res0, res1 := h.kept.res1, vin := h.kept.vin, vout := h.kept.vout,
              validBits := h.kept.validBits }
    busy := h.busy, done := h.done, fail := h.fail, fault := h.fault, err := h.err, phase := h.phase }

/-- A command whose first failing check is a fatal one ends by the fatal path (60_exceptions.md R173, R174, R177). -/
theorem exec_endsFatally {i : Instr} {s : State} {c : FatalCode} (hr : s.Ready)
    (hc : checkOf i s = some (.fatal c)) : EndsFatally i s c.code := by
  refine ⟨_, exec_of_failed hr hc, ?_⟩
  have h := State.takeFatal_ended (s := (s.respond Response.okay).issue i) (by exact hr.2) c i.opcode
  exact { kept := { params := h.kept.params, arg0 := h.kept.arg0, arg1 := h.kept.arg1, arg2 := h.kept.arg2,
                    arg3 := h.kept.arg3, res0 := h.kept.res0, res1 := h.kept.res1, vin := h.kept.vin,
                    vout := h.kept.vout, validBits := h.kept.validBits }
          busy := h.busy, done := h.done, fail := h.fail, fault := h.fault, err := h.err, phase := h.phase }

/-- A command whose first failing check is a call failure ends by R175 with nothing else changed. -/
theorem exec_callFails {i : Instr} {s : State} {c : FailCode} (hr : s.Ready) (hc : checkOf i s = some (.fail c)) :
    ∃ t, exec i s = .next t ∧ CallFailed s t i.opcode c.code ∧ t.bundles = s.bundles := by
  refine ⟨_, exec_of_failed hr hc, ?_, rfl⟩
  exact { kept := { params := rfl, arg0 := rfl, arg1 := rfl, arg2 := rfl, arg3 := rfl, res0 := rfl, res1 := rfl,
                    vin := rfl, vout := rfl, validBits := rfl }
          busy := rfl, done := rfl, fail := rfl, fault := rfl, err := rfl, phase := rfl }

/-! ### Powers of two (00_scope.md section 6) -/

/-- `v & (v - 1) = 0` tests a nonzero number for a power of two. -/
theorem ispow2_iff {n : Nat} : ispow2 n = true ↔ IsPow2 n := by
  constructor
  · exact fun h => ⟨_, ispow2_eq h⟩
  · rintro ⟨k, rfl⟩
    have h : 2 ^ k &&& (2 ^ k - 1) = 0 := by
      rw [Nat.and_two_pow_sub_one_eq_mod]
      exact Nat.mod_self _
    simp [ispow2, h]

theorem ispow2_false_iff {n : Nat} : ispow2 n = false ↔ ¬ IsPow2 n := by
  rw [← ispow2_iff, Bool.not_eq_true]

/-- `log2` of a power of two (00_scope.md section 6). -/
theorem log2_eq {n L : Nat} (h : n = 2 ^ L) : Nat.log2 n = L := by rw [h, Nat.log2_two_pow]

/-- The bundle test of 41_twiddle_init.md R119 fails exactly for an uninitialised size. -/
theorem State.checkBundle_of_uninit {s : State} {L : Nat} (h : s.Uninit L) :
    s.checkBundle L = some (.fatal .uninit) := by
  rcases h with h | h <;> simp [State.checkBundle, failIf, h]

theorem State.checkBundle_of_init {s : State} {L : Nat} (h : ¬ s.Uninit L) : s.checkBundle L = none := by
  rw [State.checkBundle_eq_none]
  simpa [State.Uninit] using h

/-- The scan of VIN (42_transform.md R129). -/
theorem State.checkInput_of_unreduced {s : State} {n : Nat} (h : ∃ j, j < n ∧ s.modulus ≤ (s.vin.read j).toNat) :
    s.checkInput n = some (.fatal .unreduced) := by
  obtain ⟨j, hj, hv⟩ := h
  have : ¬ ((List.range n).all fun i => reduced s.modulus (s.vin.read i)) = true := by
    simp only [List.all_eq_true, List.mem_range, reduced, decide_eq_true_eq, not_forall, not_lt]
    exact ⟨j, hj, hv⟩
  simp only [Bool.not_eq_true] at this
  simp [State.checkInput, failIf, this]

theorem State.checkInput_of_reduced {s : State} {n : Nat} (h : s.InputReduced n) : s.checkInput n = none := by
  rw [State.checkInput_eq_none]
  exact h

end Sys2Proof.Machine
end

