-- ==== Sys2Proof/Laws/Stages.lean ====
section
/-! SUPPORT. The units in the ring of integers modulo `P`, and what the buffer of the pipeline holds after each stage
(42_transform.md R133, R148). -/

namespace Sys2Proof.Machine

/-! ### The units in the ring of integers modulo `P` -/

/-- A word as an element of the ring of integers modulo `P` (40_field_arithmetic.md R90). -/
abbrev toRing (P : Nat) (a : Word) : ZMod P := (a.toNat : ZMod P)

theorem toRing_inj {P : Nat} {a b : Word} (ha : a.toNat < P) (hb : b.toNat < P) (h : toRing P a = toRing P b) :
    a = b := by
  rw [toRing, toRing, ZMod.natCast_eq_natCast_iff'] at h
  rw [Nat.mod_eq_of_lt ha, Nat.mod_eq_of_lt hb] at h
  exact BitVec.eq_of_toNat_eq h

theorem toRing_fadd {P : Nat} {a b : Word} (ha : a.toNat < P) (hb : b.toNat < P) (hP : P < 2 ^ 64) :
    toRing P (fadd P a b) = toRing P a + toRing P b := by
  rw [toRing, toNat_fadd ha hb hP, ZMod.natCast_mod, Nat.cast_add]

theorem toRing_fsub {P : Nat} {a b : Word} (ha : a.toNat < P) (hb : b.toNat < P) (hP : P < 2 ^ 64) :
    toRing P (fsub P a b) = toRing P a - toRing P b := by
  rw [toRing, toNat_fsub ha hb hP, ZMod.natCast_mod, Nat.cast_add, Nat.cast_sub hb.le, ZMod.natCast_self]
  ring

theorem toRing_fmul {P : Nat} (h0 : 0 < P) (hP : P < 2 ^ 64) (a b : Word) :
    toRing P (fmul P a b) = toRing P a * toRing P b := by
  rw [toRing, toNat_fmul h0 hP, ZMod.natCast_mod, Nat.cast_mul]

theorem toRing_fpow {P : Nat} (h1 : 1 < P) (hP : P < 2 ^ 64) (a : Word) (e : Nat) :
    toRing P (fpow P a e) = toRing P a ^ e := by
  rw [toRing, toNat_fpow h1 hP, ZMod.natCast_mod, Nat.cast_pow]

/-! ### The stages (42_transform.md R148) -/

/-- Every buffer of a pipeline with reduced input is reduced (R136 d). -/
theorem stockham_lt {P L : Nat} {tw c : Nat → Word} (h0 : 0 < P) (hP : P < 2 ^ 64)
    (hc : ∀ i, i < 2 ^ L → (c i).toNat < P) (T : Nat) (hT : T ≤ L) :
    ∀ i, i < 2 ^ L → (stockham P tw L T c i).toNat < P := by
  induction T with
  | zero => exact hc
  | succ T ih =>
    intro i hi
    exact stageCell_lt h0 hP (ih (by omega)) hi (by omega)

/-- A sum over an even number of terms, in pairs. -/
theorem sum_range_pairs {R : Type} [AddCommMonoid R] (f : Nat → R) (n : Nat) :
    ∑ v ∈ Finset.range (2 * n), f v = ∑ u ∈ Finset.range n, (f (2 * u) + f (2 * u + 1)) := by
  induction n with
  | zero => rfl
  | succ n ih =>
    rw [show 2 * (n + 1) = 2 * n + 1 + 1 by ring, Finset.sum_range_succ, Finset.sum_range_succ, ih,
      Finset.sum_range_succ, add_assoc]

/-- A cell of a stage in the two-index form of R133: cell `q + s·r` of stage `T`, with stride `s = 2^M` and `T + M + 1`
stages in all, comes from the cells `q + 2·s·p` and `q + s + 2·s·p` for `p = r mod 2^T`. -/
theorem stageCell_two_index {P T M : Nat} {tw src : Nat → Word} {q r : Nat} (hq : q < 2 ^ M) :
    stageCell P tw (T + M + 1) T src (q + 2 ^ M * r) =
      (let p := if r < 2 ^ T then r else r - 2 ^ T
       let a := src (q + 2 * 2 ^ M * p)
       let tb := fmul P (tw (2 ^ M * p)) (src (q + 2 ^ M + 2 * 2 ^ M * p))
       if r < 2 ^ T then fadd P a tb else fsub P a tb) := by
  have hhalf : 2 ^ (T + M + 1) / 2 = 2 ^ M * 2 ^ T := by
    rw [pow_succ, Nat.mul_div_cancel _ (by omega), pow_add, Nat.mul_comm]
  have hlt : q + 2 ^ M * r < 2 ^ M * 2 ^ T ↔ r < 2 ^ T := by
    constructor
    · intro h
      by_contra hr'
      have := Nat.mul_le_mul_left (2 ^ M) (Nat.le_of_not_lt hr')
      omega
    · intro h
      have := Nat.mul_le_mul_left (2 ^ M) (Nat.succ_le_of_lt h)
      rw [Nat.mul_succ] at this
      omega
  have hj : (if r < 2 ^ T then q + 2 ^ M * r else q + 2 ^ M * r - 2 ^ M * 2 ^ T) =
      q + 2 ^ M * (if r < 2 ^ T then r else r - 2 ^ T) := by
    split
    · rfl
    · rename_i h
      have h' : 2 ^ M * r = 2 ^ M * 2 ^ T + 2 ^ M * (r - 2 ^ T) := by
        rw [← Nat.mul_add, Nat.add_sub_cancel' (Nat.le_of_not_lt h)]
      omega
  have hmod (p : Nat) : (q + 2 ^ M * p) % 2 ^ M = q := by
    rw [Nat.add_mul_mod_self_left, Nat.mod_eq_of_lt hq]
  unfold stageCell
  simp only [show T + M + 1 - 1 - T = M by omega, hhalf, hlt, hj, hmod]
  generalize (if r < 2 ^ T then r else r - 2 ^ T) = p
  have e1 : q + 2 ^ M * p - q = 2 ^ M * p := by omega
  have e2 : q + 2 ^ M * p + 2 ^ M * p = q + 2 * 2 ^ M * p := by ring
  have e3 : q + 2 * 2 ^ M * p + 2 ^ M = q + 2 ^ M + 2 * 2 ^ M * p := by ring
  simp only [e1, e2, e3]

/-- What the buffer holds after `T` stages (42_transform.md R148, the sketch): cell `q + s·r`, `s = 2^(L - T)`, holds the
size-`2^T` transform of the subsequence of stride `s` that starts at `q`. -/
theorem stockham_cell {P L : Nat} {tw c : Nat → Word} {w : ZMod P} (h1 : 1 < P) (hP : P < 2 ^ 64)
    (hc : ∀ i, i < 2 ^ L → (c i).toNat < P) (htw : ∀ e, e < 2 ^ L / 2 → toRing P (tw e) = w ^ e)
    (hw : 1 ≤ L → w ^ 2 ^ (L - 1) = -1) (T : Nat) (hT : T ≤ L) (q r : Nat) (hq : q < 2 ^ (L - T)) (hr : r < 2 ^ T) :
    toRing P (stockham P tw L T c (q + 2 ^ (L - T) * r)) =
      ∑ u ∈ Finset.range (2 ^ T), toRing P (c (q + 2 ^ (L - T) * u)) * w ^ (2 ^ (L - T) * (u * r)) := by
  induction T generalizing q r with
  | zero =>
    obtain rfl : r = 0 := by simpa using hr
    simp [stockham]
  | succ T ih =>
    obtain ⟨M, rfl⟩ : ∃ M, L = T + M + 1 := ⟨L - T - 1, by omega⟩
    simp only [show T + M + 1 - (T + 1) = M by omega, show T + M + 1 - T = M + 1 by omega,
      show T + M + 1 - 1 = T + M by omega] at *
    have hlt := stockham_lt (by omega) hP hc (tw := tw) T (by omega)
    have h2 : 2 ^ (M + 1) = 2 * 2 ^ M := by ring
    rw [h2] at ih
    have hr2 : r < 2 * 2 ^ T := by rw [pow_succ] at hr; omega
    have hhalf : 2 ^ (T + M + 1) / 2 = 2 ^ M * 2 ^ T := by
      rw [pow_succ, Nat.mul_div_cancel _ (by omega), pow_add, Nat.mul_comm]
    have hfull : 2 ^ (T + M + 1) = 2 * (2 ^ M * 2 ^ T) := by rw [pow_succ, pow_add]; ring
    rw [stockham, stageCell_two_index hq, show 2 ^ (T + 1) = 2 * 2 ^ T by ring, sum_range_pairs]
    simp only
    obtain ⟨p, hp⟩ : ∃ p, p = if r < 2 ^ T then r else r - 2 ^ T := ⟨_, rfl⟩
    rw [← hp]
    have hpl : p < 2 ^ T := by rw [hp]; split <;> omega
    have hsp : 2 ^ M * p + 2 ^ M ≤ 2 ^ M * 2 ^ T := by
      have := Nat.mul_le_mul_left (2 ^ M) (Nat.succ_le_of_lt hpl)
      rwa [Nat.mul_succ] at this
    have ia := ih (by omega) q p (by omega) hpl
    have ib := ih (by omega) (q + 2 ^ M) p (by omega) hpl
    have la := hlt (q + 2 * 2 ^ M * p) (by rw [hfull, Nat.mul_assoc]; omega)
    have ht : toRing P (fmul P (tw (2 ^ M * p)) (stockham P tw (T + M + 1) T c (q + 2 ^ M + 2 * 2 ^ M * p))) =
        w ^ (2 ^ M * p) * ∑ u ∈ Finset.range (2 ^ T),
          toRing P (c (q + 2 ^ M + 2 * 2 ^ M * u)) * w ^ (2 * 2 ^ M * (u * p)) := by
      rw [toRing_fmul (by omega) hP, htw _ (by rw [hhalf]; omega), ib]
    by_cases hrT : r < 2 ^ T
    · obtain rfl : p = r := by rw [hp, if_pos hrT]
      rw [if_pos hrT, toRing_fadd la (fmul_lt (by omega) hP _ _) hP, ia, ht, Finset.mul_sum, ← Finset.sum_add_distrib]
      refine Finset.sum_congr rfl fun u _ => ?_
      rw [show q + 2 ^ M * (2 * u) = q + 2 * 2 ^ M * u by ring,
        show q + 2 ^ M * (2 * u + 1) = q + 2 ^ M + 2 * 2 ^ M * u by ring]
      ring
    · obtain rfl : r = p + 2 ^ T := by rw [hp, if_neg hrT]; omega
      rw [if_neg hrT, toRing_fsub la (fmul_lt (by omega) hP _ _) hP, ia, ht, Finset.mul_sum, ← Finset.sum_sub_distrib]
      refine Finset.sum_congr rfl fun u _ => ?_
      rw [show q + 2 ^ M * (2 * u) = q + 2 * 2 ^ M * u by ring,
        show q + 2 ^ M * (2 * u + 1) = q + 2 ^ M + 2 * 2 ^ M * u by ring]
      have hm : w ^ (2 ^ M * 2 ^ T) = -1 := by
        have := hw (by omega)
        rwa [pow_add, Nat.mul_comm] at this
      have x1 : w ^ (2 ^ M * (2 * u * (p + 2 ^ T))) = w ^ (2 * 2 ^ M * (u * p)) := by
        rw [show 2 ^ M * (2 * u * (p + 2 ^ T)) = 2 * 2 ^ M * (u * p) + 2 ^ M * 2 ^ T * (2 * u) by ring, pow_add,
          pow_mul w (2 ^ M * 2 ^ T), hm, (even_two_mul u).neg_one_pow, mul_one]
      have x2 : w ^ (2 ^ M * ((2 * u + 1) * (p + 2 ^ T))) = -(w ^ (2 ^ M * p) * w ^ (2 * 2 ^ M * (u * p))) := by
        rw [show 2 ^ M * ((2 * u + 1) * (p + 2 ^ T)) =
          2 ^ M * p + 2 * 2 ^ M * (u * p) + 2 ^ M * 2 ^ T * (2 * u + 1) by ring, pow_add, pow_add,
          pow_mul w (2 ^ M * 2 ^ T), hm, pow_succ (-1 : ZMod P), (even_two_mul u).neg_one_pow]
        ring
      rw [x1, x2]
      ring

end Sys2Proof.Machine
end

