-- ==== Sys2Proof/Laws/Instance.lean ====
section
/-! SUPPORT. The check of an instance decides the constraints of 00_scope.md R4 to R7. -/

namespace Sys2Proof

/-- Every number that trial division finds is a divisor above 1. -/
theorem primeFactorsFrom_dvd {q : Nat} (fuel d n : Nat) (hd : 2 ≤ d) (hq : q ∈ primeFactorsFrom fuel d n) :
    1 < q ∧ q ∣ n := by
  induction fuel generalizing d n with
  | zero => simp [primeFactorsFrom] at hq
  | succ fuel ih =>
    unfold primeFactorsFrom at hq
    have hdiv (h : ¬ n % d ≠ 0) : n / d ∣ n := Nat.div_dvd_of_dvd (Nat.dvd_of_mod_eq_zero (not_not.mp h))
    split at hq
    · split at hq
      · simp only [List.mem_singleton] at hq
        subst hq
        exact ⟨by assumption, dvd_rfl⟩
      · simp at hq
    split at hq
    · exact ih (d + 1) n (by omega) hq
    rename_i h
    split at hq
    · exact (ih d (n / d) hd hq).imp_right (·.trans (hdiv h))
    rcases List.mem_cons.mp hq with rfl | hq
    · exact ⟨by omega, Nat.dvd_of_mod_eq_zero (not_not.mp h)⟩
    · exact (ih d (n / d) hd hq).imp_right (·.trans (hdiv h))

/-- Trial division finds every prime factor: no divisor passes `2^32` and each of the at most `k` even divisions halves
`n`, so the fuel suffices. -/
theorem mem_primeFactorsFrom {q : Nat} (hq : q.Prime) (fuel d n k : Nat) (hd : 2 ≤ d) (hd' : d ≤ 2 ^ 32) (hn : 0 < n)
    (hk : n < 2 ^ k) (hk' : k ≤ 64) (hf : 2 ^ 32 + k < d + fuel) (hmin : ∀ r : Nat, r.Prime → r ∣ n → d ≤ r)
    (hqn : q ∣ n) : q ∈ primeFactorsFrom fuel d n := by
  induction fuel generalizing d n k with
  | zero => omega
  | succ fuel ih =>
    unfold primeFactorsFrom
    have hdq := hmin q hq hqn
    split
    · rename_i hlt
      rw [if_pos (lt_of_lt_of_le hq.one_lt (Nat.le_of_dvd hn hqn)), List.mem_singleton]
      obtain ⟨m, rfl⟩ := hqn
      by_contra hne
      have hm : m ≠ 1 := by rintro rfl; simp at hne
      have hdm := hmin _ (Nat.minFac_prime hm) ((Nat.minFac_dvd m).trans (dvd_mul_left m q))
      have hm' := Nat.minFac_le (Nat.pos_of_mul_pos_left hn)
      exact absurd (Nat.mul_le_mul hdq (hdm.trans hm')) (by omega)
    rename_i hge
    have hd32 : d < 2 ^ 32 := by
      by_contra h
      have := Nat.mul_le_mul (Nat.le_of_not_lt h) (Nat.le_of_not_lt h)
      have := Nat.pow_le_pow_right (show 0 < 2 by omega) hk'
      omega
    split
    · rename_i hnd
      refine ih (d + 1) n k (by omega) (by omega) hn hk hk' (by omega) (fun r hr hrn => ?_) hqn
      have := hmin r hr hrn
      have : r ≠ d := by
        rintro rfl
        exact hnd (Nat.mod_eq_zero_of_dvd hrn)
      omega
    rename_i hdn
    obtain ⟨m, rfl⟩ := Nat.dvd_of_mod_eq_zero (not_not.mp hdn)
    have hm : 0 < m := Nat.pos_of_mul_pos_left hn
    rw [Nat.mul_div_cancel_left m (by omega)]
    have hmin' : ∀ r : Nat, r.Prime → r ∣ m → d ≤ r := fun r hr h => hmin r hr (h.mul_left d)
    obtain ⟨k, rfl⟩ : ∃ k', k = k' + 1 := ⟨k - 1, by
      rcases k with _ | k
      · simp at hk; omega
      · rfl⟩
    have hk2 : m < 2 ^ k := by
      have := Nat.mul_le_mul_right m hd
      rw [pow_succ] at hk
      omega
    have hrec (h : q ∣ m) := ih d m k hd hd' hm hk2 (by omega) (by omega) hmin' h
    rcases hq.dvd_mul.mp hqn with h | h
    · obtain rfl : q = d := le_antisymm (Nat.le_of_dvd (by omega) h) hdq
      split
      · exact hrec (Nat.dvd_of_mod_eq_zero (by assumption))
      · exact List.mem_cons_self
    · split
      · exact hrec h
      · exact List.mem_cons_of_mem _ (hrec h)

/-- The trial divisions give exactly the numbers Lucas's test needs. -/
theorem Params.mem_orderFactors {c : Params} {q : Nat} (h : 1 < c.modulus) (hq : q.Prime) (hd : q ∣ c.modulus - 1) :
    q ∈ c.orderFactors :=
  mem_primeFactorsFrom hq _ 2 _ 64 (by omega) (by omega) (by omega)
    (lt_of_le_of_lt (Nat.sub_le _ _) c.p.isLt) (by omega) (by omega) (fun _ hr _ => hr.two_le) hd

/-- A power of `G` is the word 1 exactly when it is 1 modulo `P`. -/
theorem Params.fpow_eq_one {c : Params} (h : 1 < c.modulus) (e : Nat) :
    Machine.fpow c.modulus c.g e = 1#64 ↔ (c.g.toNat : ZMod c.modulus) ^ e = 1 := by
  rw [← Machine.toRing_fpow h c.p.isLt]
  constructor
  · intro he
    simp [he, Machine.toRing]
  · intro he
    refine Machine.toRing_inj (Machine.fpow_lt h c.p.isLt _ _) (by simpa using h) ?_
    rw [he]
    simp [Machine.toRing]

/-- Lucas's test decides R4's primality and R5's order. -/
theorem Params.primeWithGenerator_iff {c : Params} (h : 1 < c.modulus) :
    c.primeWithGenerator = true ↔
      Nat.Prime c.modulus ∧ orderOf (c.g.toNat : ZMod c.modulus) = c.modulus - 1 := by
  simp only [Params.primeWithGenerator, Bool.and_eq_true, decide_eq_true_eq, List.all_eq_true, ne_eq,
    Params.fpow_eq_one h]
  constructor
  · rintro ⟨h1, hne⟩
    have hne' (q : Nat) (hq : q.Prime) (hd : q ∣ c.modulus - 1) := hne q (Params.mem_orderFactors h hq hd)
    exact ⟨lucas_primality _ _ h1 hne', orderOf_eq_of_pow_and_pow_div_prime (by omega) h1 hne'⟩
  · rintro ⟨-, ho⟩
    refine ⟨ho ▸ pow_orderOf_eq_one _, fun q hq => ?_⟩
    obtain ⟨h1, hd⟩ := primeFactorsFrom_dvd _ 2 _ (by omega) hq
    refine pow_ne_one_of_lt_orderOf ?_ ?_
    · exact (Nat.div_pos (Nat.le_of_dvd (by omega) hd) (by omega)).ne'
    · rw [ho]
      exact Nat.div_lt_self (by omega) h1

/-- The values that `wellFormed` recognises pass the test. -/
theorem recommended_primeWithGenerator : Params.recommended.primeWithGenerator = true := by decide +kernel

/-- The short way of `wellFormed` never answers otherwise than the test. -/
theorem Params.recognised {c : Params} :
    (decide (c.p = Params.recommended.p ∧ c.g = Params.recommended.g) || c.primeWithGenerator) =
      c.primeWithGenerator := by
  by_cases h : c.p = Params.recommended.p ∧ c.g = Params.recommended.g
  · have : c.primeWithGenerator = Params.recommended.primeWithGenerator := by
      rw [Params.primeWithGenerator, Params.primeWithGenerator, Params.orderFactors, Params.orderFactors, Params.modulus,
        Params.modulus, h.1, h.2]
    rw [this, recommended_primeWithGenerator, Bool.or_true]
  · rw [decide_eq_false h, Bool.false_or]

/-- The check of an instance decides R4 to R7 (93_implementation_defined.md U15). -/
theorem Params.wellFormed_iff {c : Params} : c.wellFormed = true ↔ c.Conforms := by
  simp only [Params.wellFormed, Params.recognised, Bool.and_eq_true, decide_eq_true_eq]
  constructor
  · rintro ⟨⟨⟨⟨⟨⟨⟨h1, h2⟩, h3⟩, h4⟩, h5⟩, h6⟩, h7⟩, h8⟩
    obtain ⟨hp, ho⟩ := (Params.primeWithGenerator_iff (by omega)).mp h8
    exact ⟨h1, hp, h2, h3, ho, h4, h5, h6, h7⟩
  · intro h
    exact ⟨⟨⟨⟨⟨⟨⟨h.modulus_large, h.generator_pos⟩, h.generator_lt⟩, h.size_adicity⟩, h.size⟩, h.lanes_pos⟩,
      h.lanes_le⟩, (Params.primeWithGenerator_iff h.prime.one_lt).mpr ⟨h.prime, h.generator⟩⟩

/-- The bounds of 00_scope.md R4 to R7 as inequalities. -/
theorem Params.bounds {c : Params} (h : c.wellFormed = true) : 2 ^ 63 < c.modulus ∧ c.modulus < 2 ^ 64 ∧
    0 < c.g.toNat ∧ c.g.toNat < c.modulus ∧ c.lognMax ≤ c.twoAdicity ∧ c.lognMax ≤ 62 ∧ 1 ≤ c.lanes ∧
    c.lanes ≤ 65535 :=
  let k := Params.wellFormed_iff.mp h
  ⟨k.modulus_large, c.p.isLt, k.generator_pos, k.generator_lt, k.size_adicity, k.size, k.lanes_pos, k.lanes_le⟩

/-- The recommended instance conforms (R4 to R7). -/
theorem recommended_conforms : Params.recommended.Conforms :=
  Params.wellFormed_iff.mp (by decide)

end Sys2Proof
end

