-- ==== Sys2Proof/Laws/PerInstr.lean ====
section
/-! SUPPORT. One lemma per constructor of Instr: the family `RoundTrip`, decoding a command's encoding
(30_encoding.md R71, R74). -/

namespace Sys2Proof.Laws.RoundTrip

/-- A well-formed command has the word format `CW` of R71 with its opcode of R74, and that word decodes to it. -/
def Statement (i : Instr) : Prop :=
  i.wellFormed = true → (encode i).toNat = i.opcode.toNat ∧ decode (encode i) = .ok i

theorem fadd : Statement .fadd := fun _ => ⟨by decide, by decide⟩
theorem fsub : Statement .fsub := fun _ => ⟨by decide, by decide⟩
theorem fmul : Statement .fmul := fun _ => ⟨by decide, by decide⟩
theorem mulw : Statement .mulw := fun _ => ⟨by decide, by decide⟩
theorem fred : Statement .fred := fun _ => ⟨by decide, by decide⟩
theorem finv : Statement .finv := fun _ => ⟨by decide, by decide⟩
theorem init : Statement .init := fun _ => ⟨by decide, by decide⟩
theorem teardown : Statement .teardown := fun _ => ⟨by decide, by decide⟩
theorem ntt : Statement .ntt := fun _ => ⟨by decide, by decide⟩
theorem nttc : Statement .nttc := fun _ => ⟨by decide, by decide⟩
theorem intt : Statement .intt := fun _ => ⟨by decide, by decide⟩
theorem inttc : Statement .inttc := fun _ => ⟨by decide, by decide⟩

end Sys2Proof.Laws.RoundTrip
end

