-- ==== Sys2Proof/Laws/Transform.lean ====
section
/-! SUPPORT. What the pipeline of a transform leaves: the buffers stage by stage and the result vector, in terms of
`stockham`. -/

namespace Sys2Proof.Machine

/-- A whole stage changes the two buffers and the sequencer's stage state, and nothing else. -/
theorem State.wholeStage_eq (s : State) (inv : Bool) : s.wholeStage inv =
    (s.setDst (s.dst.writeFrom 0 ((List.range (2 ^ s.l)).map
      (stageCell s.modulus (s.twiddle inv) s.l s.t s.src.read)))).barrierStep := rfl

@[simp] theorem State.wholeStage_l (s : State) (inv : Bool) : (s.wholeStage inv).l = s.l := by
  simp [State.wholeStage_eq]

@[simp] theorem State.wholeStage_t (s : State) (inv : Bool) : (s.wholeStage inv).t = s.t + 1 := by
  simp [State.wholeStage_eq]

@[simp] theorem State.wholeStage_modulus (s : State) (inv : Bool) : (s.wholeStage inv).modulus = s.modulus := by
  simp [State.wholeStage_eq, State.modulus]

@[simp] theorem State.wholeStage_twiddle (s : State) (inv inv' : Bool) :
    (s.wholeStage inv).twiddle inv' = s.twiddle inv' := by
  funext e
  simp [State.wholeStage_eq, State.twiddle, State.bundle]

/-- After a whole stage the source buffer holds the stage's cells (42_transform.md R133, R135). -/
theorem State.wholeStage_src (s : State) (inv : Bool) {i : Nat} (hi : i < 2 ^ s.l) :
    (s.wholeStage inv).src.read i = stageCell s.modulus (s.twiddle inv) s.l s.t s.src.read i := by
  simp [State.wholeStage_eq, Memory.read_writeFrom_range _ _ hi]

/-- Everything `n` whole stages can change. -/
theorem State.runStages_frame (inv : Bool) (n : Nat) (s : State) : ∃ b0 b1 sel t d p,
    State.runStages inv n s = { s with buf0 := b0, buf1 := b1, sel := sel, t := t, doneset := d, phase := p } ∧
      t = s.t + n := by
  induction n generalizing s with
  | zero => exact ⟨_, _, _, _, _, _, rfl, rfl⟩
  | succ n ih =>
    obtain ⟨b0, b1, sel, t, d, p, he, ht⟩ := ih (s.wholeStage inv)
    rw [State.runStages, he]
    refine ⟨b0, b1, sel, t, d, p, ?_, by rw [ht]; simp; omega⟩
    unfold State.wholeStage State.barrierStep State.setDst
    split <;> rfl

theorem State.runStages_memoriesWf (inv : Bool) (n : Nat) {s : State} (h : s.memoriesWf = true) :
    (State.runStages inv n s).memoriesWf = true := by
  induction n generalizing s with
  | zero => exact h
  | succ n ih =>
    exact ih (State.setDst_memoriesWf (s := s) h (Memory.writeFrom_wf _ (State.dst_wf h) _))

theorem State.runStages_memoriesBelow (inv : Bool) (n : Nat) {s : State} (h : s.memoriesBelow = true)
    (hl : 2 ^ s.l ≤ s.params.capn) : (State.runStages inv n s).memoriesBelow = true := by
  induction n generalizing s with
  | zero => exact h
  | succ n ih =>
    refine ih ?_ (by simpa [State.wholeStage_eq] using hl)
    exact State.setDst_memoriesBelow (s := s) h (Memory.writeFrom_below _ (State.dst_below h) (by simpa using hl))

/-- The source buffer after `n` more stages (42_transform.md R130, R140). -/
theorem State.runStages_src (inv : Bool) (n : Nat) {s : State} {c : Nat → Word} (hn : s.t + n ≤ s.l)
    (h : ∀ i, i < 2 ^ s.l → s.src.read i = stockham s.modulus (s.twiddle inv) s.l s.t c i) :
    ∀ i, i < 2 ^ s.l → (State.runStages inv n s).src.read i =
      stockham s.modulus (s.twiddle inv) s.l (s.t + n) c i := by
  induction n generalizing s with
  | zero => exact h
  | succ n ih =>
    intro i hi
    have := ih (s := s.wholeStage inv) (by simp; omega) (by
      intro i hi
      simp only [State.wholeStage_l] at hi
      rw [State.wholeStage_src s inv hi]
      simp only [State.wholeStage_l, State.wholeStage_t, State.wholeStage_modulus, State.wholeStage_twiddle, stockham]
      exact stageCell_congr h hi (by omega)) i (by simpa using hi)
    simp only [State.wholeStage_l, State.wholeStage_t, State.wholeStage_modulus, State.wholeStage_twiddle] at this
    rw [State.runStages, this, Nat.add_assoc, Nat.add_comm 1 n]

/-- The twiddle table of a transform of size `2^L` in a direction (42_transform.md R132). -/
def State.table (s : State) (inverse : Bool) (L : Nat) (e : Nat) : Word :=
  if inverse then (s.bundle L).twi.read e else (s.bundle L).twf.read e

/-- The vector a transform commits (42_transform.md R130 to R139). -/
def State.resultOf (s : State) (k : Kernel) (i : Nat) : Word :=
  k.post i (stockham s.modulus (s.table k.inverse k.logSize) k.logSize k.logSize k.pre i)

/-- All that follows the check of a transform, when no device failure is pending: the result vector is committed to
VOUT, the work buffers hold what the stages left. -/
theorem runTransform_eq {k : Kernel} {s : State} (hd : s.devicePending = false) : ∃ b0 b1 sel,
    runTransform k s =
      { s with
        vout := s.vout.writeFrom 0 ((List.range (2 ^ k.logSize)).map (s.resultOf k))
        buf0 := b0, buf1 := b1, l := k.logSize, t := k.logSize, sel := sel, doneset := []
        busy := false, done := true, phase := .idle, held := .nothing } := by
  have hsrc := State.runStages_src k.inverse k.logSize (s := (s.toPhase .load).loadStep k) (c := k.pre)
    (by simp) (by
      intro i hi
      simp only [State.loadStep_l] at hi
      simp [State.src, stockham, Memory.read_writeFrom_range _ _ hi])
  obtain ⟨b0, b1, sel, t, d, p, he, ht⟩ :=
    State.runStages_frame k.inverse k.logSize ((s.toPhase .load).loadStep k)
  have hdone : (State.runStages k.inverse k.logSize ((s.toPhase .load).loadStep k)).doneset = [] := by
    cases k.logSize with
    | zero => rfl
    | succ n =>
      have : ∀ n (u : State), u.doneset = [] → (State.runStages k.inverse n u).doneset = [] := by
        intro n
        induction n with
        | zero => exact fun _ h => h
        | succ n ih => exact fun u _ => ih _ (by simp [State.wholeStage_eq])
      exact this _ _ rfl
  refine ⟨b0, b1, sel, ?_⟩
  have hmap : ((List.range (2 ^ k.logSize)).map fun i =>
      k.post i ((State.runStages k.inverse k.logSize ((s.toPhase .load).loadStep k)).src.read i)) =
      (List.range (2 ^ k.logSize)).map (s.resultOf k) := by
    apply List.map_congr_left
    intro i hi
    rw [hsrc i (by simpa using hi)]
    simp only [State.loadStep_t, State.loadStep_l, Nat.zero_add]
    rfl
  unfold runTransform
  simp only [hd, Bool.false_eq_true, if_false]
  have hl : (State.runStages k.inverse k.logSize ((s.toPhase .load).loadStep k)).l = k.logSize := by rw [he]; rfl
  unfold State.storeStep State.commit State.writeResult
  simp only [State.hold_held, hl, hmap]
  rw [he] at hdone ⊢
  simp only at hdone
  subst hdone ht
  simp [State.hold, State.finish, State.loadStep, State.toPhase]

end Sys2Proof.Machine
end

