-- ==== Sys2Proof/Tests/Slice0.lean ====
section
/-! SUPPORT. The model's own tests. Expected values are those of spec/95_test_vectors.md (named `V<n>`) and of the
encodings of spec/30_encoding.md. After the tests, a state and operands that meet the hypotheses of each statement. -/

namespace Sys2Proof.Tests

-- One declaration at a time: the kernel evaluations below would each hold a thread.
set_option Elab.async false

open Sys2Proof.Machine

/-! ### Decoding: the words of 30_encoding.md R74, written out -/

theorem test_decode_fadd : decode 0x0000000000000001#64 = .ok .fadd := by decide
theorem test_decode_fsub : decode 0x0000000000000002#64 = .ok .fsub := by decide
theorem test_decode_fmul : decode 0x0000000000000003#64 = .ok .fmul := by decide
theorem test_decode_mulw : decode 0x0000000000000004#64 = .ok .mulw := by decide
theorem test_decode_fred : decode 0x0000000000000005#64 = .ok .fred := by decide
theorem test_decode_finv : decode 0x0000000000000006#64 = .ok .finv := by decide
theorem test_decode_init : decode 0x0000000000000010#64 = .ok .init := by decide
theorem test_decode_teardown : decode 0x0000000000000011#64 = .ok .teardown := by decide
theorem test_decode_ntt : decode 0x0000000000000020#64 = .ok .ntt := by decide
theorem test_decode_nttc : decode 0x0000000000000021#64 = .ok .nttc := by decide
theorem test_decode_intt : decode 0x0000000000000022#64 = .ok .intt := by decide
theorem test_decode_inttc : decode 0x0000000000000023#64 = .ok .inttc := by decide

/-- R75: the ends of each reserved range; R76: one high bit beside a good opcode. -/
theorem test_decode_reserved :
    ([0x00#64, 0x07#64, 0x0F#64, 0x12#64, 0x1F#64, 0x24#64, 0xFF#64].all fun w =>
      decide (decode w = .error .reservedOpcode)) = true ∧
    decode 0x8000000000000001#64 = .error .reservedBits ∧ decode 0x120#64 = .error .reservedBits := by decide

/-- 20_memory.md R55: the low byte of a command word comes first. -/
theorem test_decode_bytes :
    decodeBytes [0x23#8, 0#8, 0#8, 0#8, 0#8, 0#8, 0#8, 0#8, 0x55#8] = .ok (.inttc, [0x55#8]) ∧
    decodeBytes [0x23#8] = .error .truncated ∧ decodeTableWord 64 0x11 = some .teardown ∧
    decodeTableWord 64 0x12 = none := by decide

theorem test_encode : encode .inttc = 0x0000000000000023#64 ∧ encode .init = 0x0000000000000010#64 := by decide

/-! ### Well-formedness: 93_implementation_defined.md U15, one ill-formed instance for each check -/

theorem test_wf_recommended : Params.recommended.wellFormed = true := by decide
theorem test_wf_modulus_small :
    ({ Params.recommended with p := 0x8000000000000000#64 } : Params).wellFormed = false := by decide
theorem test_wf_generator_zero : ({ Params.recommended with g := 0#64 } : Params).wellFormed = false := by decide
theorem test_wf_generator_unreduced :
    ({ Params.recommended with g := 0xFFFFFFFF00000001#64 } : Params).wellFormed = false := by decide
theorem test_wf_size_above_adicity : ({ Params.recommended with lognMax := 33 } : Params).wellFormed = false := by
  decide
theorem test_wf_size_above_62 :
    ({ Params.recommended with p := 0x8000000000000001#64, lognMax := 63 } : Params).wellFormed = false := by decide
theorem test_wf_no_lanes : ({ Params.recommended with lanes := 0 } : Params).wellFormed = false := by decide
theorem test_wf_too_many_lanes : ({ Params.recommended with lanes := 65536 } : Params).wellFormed = false := by decide
/-- `2^63 + 1` is a multiple of 3. -/
theorem test_wf_modulus_composite :
    ({ Params.recommended with p := 0x8000000000000001#64 } : Params).wellFormed = false := by decide +kernel
/-- 49 is the square of 7, so its order divides `(P - 1)/2`. -/
theorem test_wf_generator_order : ({ Params.recommended with g := 49#64 } : Params).wellFormed = false := by
  decide +kernel
/-- `7^7`, with 7 and `P - 1 = 2^32·3·5·17·257·65537` coprime, is another generator. -/
theorem test_wf_other_generator : ({ Params.recommended with g := 823543#64 } : Params).wellFormed = true := by
  decide +kernel

/-! ### Helpers -/

/-- The modulus of the instantiation of the vectors. -/
def modP : Word := 0xFFFFFFFF00000001#64

/-- The reset state with these ARG registers. -/
def ready (a0 a1 a2 a3 : Word) : State := { State.reset with arg0 := a0, arg1 := a1, arg2 := a2, arg3 := a3 }

/-- With these words in VIN from cell 0 on. -/
def loaded (vs : List Word) (s : State) : State := { s with vin := s.vin.writeFrom 0 vs }

/-- With bundle `k` initialised. -/
def initialised (k : Nat) (s : State) : State :=
  { s with bundles := s.bundles.modify k fun b => { Bundle.generate s.params k b with valid := true } }

/-- With this host script. -/
def scripted (es : List Event) (s : State) : State := { s with script := es }

/-- The next state, if there is one. -/
def nextOf (o : Host.Outcome State Fault Refusal) : Option State :=
  match o with
  | .next t => some t
  | .fault _ => none
  | .refused _ => none

/-- RES0, RES1, STATUS and ERR after a command. -/
def scalarView (i : Instr) (s : State) : Option (Word × Word × Word × Word) :=
  (nextOf (exec i s)).map fun t => (t.res0, t.res1, t.statusWord, t.err)

/-- STATUS, ERR and VALID after a command. -/
def statusView (i : Instr) (s : State) : Option (Word × Word × Word) :=
  (nextOf (exec i s)).map fun t => (t.statusWord, t.err, t.validWord)

/-- STATUS and the first `n` cells of VOUT after a command. -/
def voutView (n : Nat) (i : Instr) (s : State) : Option (Word × List Word) :=
  (nextOf (exec i s)).map fun t => (t.statusWord, (List.range n).map t.vout.read)

/-- After `n` steps: the last response, STATUS and ERR. -/
def stepsView (n : Nat) (s : State) : Option (Option Response × Word × Word) :=
  (nextOf (Host.Core.run core n s)).map fun t => (t.response, t.statusWord, t.err)

/-! ### Scalar commands -/

/-- V4: the largest sum, with a carry out of bit 63. -/
theorem test_fadd_carry : scalarView .fadd (ready 0xFFFFFFFF00000000#64 0xFFFFFFFF00000000#64 0#64 0#64) =
    some (0xFFFFFFFEFFFFFFFF#64, 0#64, 0x2#64, 0#64) := by decide +kernel
/-- V60. -/
theorem test_fadd_unreduced : scalarView .fadd (ready modP 0#64 0#64 0#64) =
    some (0#64, 0#64, 0x8#64, 0x0106#64) := by decide +kernel
/-- V9: which operand is subtracted. -/
theorem test_fsub_borrow : scalarView .fsub (ready 3#64 5#64 0#64 0#64) =
    some (0xFFFFFFFEFFFFFFFF#64, 0#64, 0x2#64, 0#64) := by decide +kernel
/-- V61. -/
theorem test_fsub_unreduced : scalarView .fsub (ready 0#64 modP 0#64 0#64) =
    some (0#64, 0#64, 0x8#64, 0x0206#64) := by decide +kernel
/-- V16. -/
theorem test_fmul_general : scalarView .fmul (ready 0x123456789ABCDEF0#64 0x0FEDCBA987654321#64 0#64 0#64) =
    some (0xCFAEAFD136C7BBAE#64, 0#64, 0x2#64, 0#64) := by decide +kernel
/-- V62. -/
theorem test_fmul_unreduced : scalarView .fmul (ready 0xFFFFFFFFFFFFFFFF#64 1#64 0#64 0#64) =
    some (0#64, 0#64, 0x8#64, 0x0306#64) := by decide +kernel
/-- V21. -/
theorem test_mulw_halves : scalarView .mulw (ready 0x123456789ABCDEF0#64 0x0FEDCBA987654321#64 0#64 0#64) =
    some (0x2236D88FE5618CF0#64, 0x0121FA00AD77D742#64, 0x2#64, 0#64) := by decide +kernel
/-- V65: unreduced operands are accepted. -/
theorem test_mulw_unreduced : scalarView .mulw (ready modP 0xFFFFFFFFFFFFFFFF#64 0#64 0#64) =
    some (0x00000000FFFFFFFF#64, 0xFFFFFFFF00000000#64, 0x2#64, 0#64) := by decide +kernel
/-- V27: which register is the high half. -/
theorem test_fred_general : scalarView .fred (ready 0x0123456789ABCDEF#64 0xFEDCBA9876543210#64 0#64 0#64) =
    some (0x77777776147AE147#64, 0#64, 0x2#64, 0#64) := by decide +kernel
/-- V25. -/
theorem test_fred_largest : scalarView .fred (ready 0xFFFFFFFFFFFFFFFF#64 0xFFFFFFFFFFFFFFFF#64 0#64 0#64) =
    some (0xFFFFFFFE00000000#64, 0#64, 0x2#64, 0#64) := by decide +kernel
/-- V32. -/
theorem test_finv_general : scalarView .finv (ready 0x123456789ABCDEF0#64 0#64 0#64 0#64) =
    some (0xCC82422076A04151#64, 0#64, 0x2#64, 0#64) := by decide +kernel
/-- V63, V64: the order of the two checks. -/
theorem test_finv_checks : scalarView .finv (ready modP 0#64 0#64 0#64) = some (0#64, 0#64, 0x8#64, 0x0606#64) ∧
    scalarView .finv (ready 0#64 0#64 0#64 0#64) = some (0#64, 0#64, 0x8#64, 0x0605#64) := by decide +kernel

/-! ### Tables -/

/-- V33, V34, V35 for `k = 3`. -/
theorem test_init_tables :
    (nextOf (exec .init (ready 8#64 0#64 0#64 0#64))).map (fun t =>
      ([(t.bundle 3).root, (t.bundle 3).rootinv, (t.bundle 3).ninv, t.validWord], (List.range 4).map (t.bundle 3).twf.read,
        (List.range 4).map (t.bundle 3).twi.read, (List.range 8).map (t.bundle 3).brev.read)) =
    some ([0xFFFFFFFEFF000001#64, 0x000000FFFFFFFF00#64, 0xDFFFFFFF20000001#64, 0x8#64],
      [1#64, 0xFFFFFFFEFF000001#64, 0x0001000000000000#64, 0xFFFFFEFF00000101#64],
      [1#64, 0x000000FFFFFFFF00#64, 0xFFFEFFFF00000001#64, 0x0000000001000000#64],
      [0#64, 4#64, 2#64, 6#64, 1#64, 5#64, 3#64, 7#64]) := by decide +kernel
/-- V67, V68: not a power of two is fatal, too large is a call failure. -/
theorem test_init_refused : statusView .init (ready 6#64 0#64 0#64 0#64) = some (0x8#64, 0x1002#64, 0#64) ∧
    statusView .init (ready 0x20#64 0#64 0#64 0#64) = some (0x4#64, 0x1010#64, 0#64) := by decide +kernel
/-- V36, last step. -/
theorem test_teardown : statusView .teardown (initialised 3 (initialised 2 (ready 4#64 0#64 0#64 0#64))) =
    some (0x2#64, 0#64, 0#64) := by decide +kernel
/-- Program 5: a transform after TEARDOWN raises UNINIT. -/
theorem test_teardown_then_ntt :
    ((nextOf (exec .teardown (initialised 2 (ready 4#64 0#64 0#64 0#64)))).bind (statusView .ntt)) =
      some (0x8#64, 0x2003#64, 0#64) := by decide +kernel

/-! ### Transforms -/

/-- V43. -/
theorem test_ntt_four : voutView 4 .ntt (loaded [1#64, 2#64, 3#64, 4#64] (initialised 2 (ready 4#64 0#64 0#64 0#64))) =
    some (0x2#64, [0x000000000000000A#64, 0xFFFDFFFEFFFFFFFF#64, 0xFFFFFFFEFFFFFFFF#64, 0x0001FFFFFFFFFFFE#64]) := by
  decide +kernel
/-- V77: UNINIT before UNREDUCED. -/
theorem test_ntt_order : statusView .ntt (loaded [1#64, 2#64, modP, 4#64] (ready 4#64 0#64 0#64 0#64)) =
    some (0x8#64, 0x2003#64, 0#64) := by decide +kernel
/-- V44. -/
theorem test_intt_four : voutView 4 .intt
    (loaded [0x000000000000000A#64, 0xFFFDFFFEFFFFFFFF#64, 0xFFFFFFFEFFFFFFFF#64, 0x0001FFFFFFFFFFFE#64]
      (initialised 2 (ready 4#64 0#64 0#64 0#64))) = some (0x2#64, [1#64, 2#64, 3#64, 4#64]) := by decide +kernel
/-- V76. -/
theorem test_intt_unreduced : statusView .intt (loaded [1#64, 2#64, 3#64, 0xFFFFFFFFFFFFFFFF#64]
    (initialised 2 (ready 4#64 0#64 0#64 0#64))) = some (0x8#64, 0x2206#64, 0x4#64) := by decide +kernel
/-- V41: blow-up 2, with only bundle 3 initialised. -/
theorem test_nttc_blowup : voutView 8 .nttc
    (loaded [1#64, 2#64, 3#64, 4#64] (initialised 3 (ready 4#64 7#64 2#64 8#64))) =
    some (0x2#64, [0x00000000000005FE#64, 0x008DA3FFF2055C01#64, 0xFAB1FFFEFFFFFF6F#64, 0xFF6CF1F9A4000E02#64,
      0xFFFFFFFEFFFFFB2B#64, 0x00985C000DFAA401#64, 0x054DFFFFFFFFFF6E#64, 0xFF6D0E045BFFF202#64]) := by decide +kernel
/-- V81, V82: the product is not taken modulo 2^64; RESULT_LEN before UNINIT. -/
theorem test_nttc_checks :
    statusView .nttc (ready 4#64 7#64 0x4000000000000000#64 0#64) = some (0x8#64, 0x2102#64, 0#64) ∧
    statusView .nttc (ready 4#64 7#64 2#64 4#64) = some (0x8#64, 0x2104#64, 0#64) := by decide +kernel
/-- V54. -/
theorem test_inttc_four : voutView 4 .inttc
    (loaded [0x00000000000005FE#64, 0xFAB1FFFEFFFFFF6F#64, 0xFFFFFFFEFFFFFB2B#64, 0x054DFFFFFFFFFF6E#64]
      (initialised 2 (ready 4#64 7#64 0#64 0#64))) = some (0x2#64, [1#64, 2#64, 3#64, 4#64]) := by decide +kernel
/-- V91: ZERO_OFFSET, not INV_ZERO. -/
theorem test_inttc_zero_offset : statusView .inttc (loaded [1#64, 2#64, 3#64, 4#64]
    (initialised 2 (ready 4#64 0#64 0#64 0#64))) = some (0x8#64, 0x2307#64, 0x4#64) := by decide +kernel

/-! ### The port and the micro level -/

/-- V94, V97, V99: access violations. -/
theorem test_port_violations :
    ([Txn.write 0xC#64 1#64, .read 0xC000000000000000#64, .write 0x4000000000000010#64 0#64].all fun t =>
      decide (stepsView 1 (scripted [.txn t] State.reset) = some (some ⟨false, 0#64⟩, 0x8#64, 0x0009#64))) = true := by
  decide +kernel
/-- V102: an illegal command word, bits 7:0 in `ERR[15:8]`. -/
theorem test_port_illegal_command :
    stepsView 1 (scripted [.txn (.write 0xF#64 0x120#64)] State.reset) = some (some ⟨true, 0#64⟩, 0x8#64, 0x2001#64) := by
  decide +kernel
/-- V103 (a): the read is ordered before the commit of INIT. -/
theorem test_port_busy_access :
    stepsView 3 (scripted [.txn (.write 0xF#64 0x10#64), .seq, .txn (.read 0x2#64)] (ready 4#64 0#64 0#64 0#64)) =
      some (some ⟨false, 0#64⟩, 0x8#64, 0x0008#64) := by decide +kernel
/-- 95_test_vectors.md section 4.2: BUF1 after stage 0, the butterflies taken in the order 1, 0. -/
theorem test_stage_zero :
    (nextOf (Host.Core.run core 4 (scripted [.txn (.write 0xF#64 0x20#64), .seq, .seq, .cores [1, 0]]
      (loaded [1#64, 2#64, 3#64, 4#64] (initialised 2 (ready 4#64 0#64 0#64 0#64)))))).map
      (fun t => (t.phase, t.doneset, (List.range 4).map t.buf1.read)) =
    some (.stage, [0, 1], [4#64, 6#64, 0xFFFFFFFEFFFFFFFF#64, 0xFFFFFFFEFFFFFFFF#64]) := by decide +kernel
/-- V106: CAP of the instantiation. -/
theorem test_cap : State.reset.params.capWord = 0x0000000000042004#64 ∧ State.reset.statusWord = 0#64 ∧
    State.reset.validWord = 0#64 := by decide +kernel
/-- 30_encoding.md R86: `GPU_init` as a script, from reset. -/
theorem test_gpu_init : stepsView 6 (scripted (gpuInit 4#64) State.reset) = some (some ⟨true, 0x2#64⟩, 0x2#64, 0#64) := by
  decide +kernel

/-! ### Witnesses: for each statement with hypotheses, a state and operands that meet them -/

/-- A number that is not `2^log2` of itself is no power of two. -/
theorem not_isPow2 {n : Nat} (h : n ≠ 2 ^ Nat.log2 n) : ¬ IsPow2 n := by
  rintro ⟨k, rfl⟩
  simp [Nat.log2_two_pow] at h

/-- A command whose next state satisfies a test. -/
theorem next_of {o : Host.Outcome State Fault Refusal} {p : State → Bool} (h : (nextOf o).map p = some true) :
    ∃ t, o = .next t ∧ p t = true := by
  cases o with
  | next t => exact ⟨t, rfl, by simpa [nextOf] using h⟩
  | fault r => simp [nextOf] at h
  | refused r => simp [nextOf] at h

/-- The state after a step or command that is known to give one. -/
theorem next_some {o : Host.Outcome State Fault Refusal} (h : (nextOf o).isSome = true) : ∃ t, o = .next t := by
  cases o with
  | next t => exact ⟨t, rfl⟩
  | fault r => simp [nextOf] at h
  | refused r => simp [nextOf] at h

/-- Size 4 with offset 7, ready for NTT, INTT and INTTC. -/
def four : State := loaded [1#64, 2#64, 3#64, 0xFFFFFFFF00000000#64] (initialised 2 (ready 4#64 7#64 1#64 4#64))

/-- Size 4 with offset 7 and blow-up 2, ready for NTTC, with bundles 2 and 3. -/
def blown : State :=
  loaded [1#64, 2#64, 3#64, 0xFFFFFFFF00000000#64] (initialised 3 (initialised 2 (ready 4#64 7#64 2#64 8#64)))

/-- Size 1, ready. -/
def one : State := loaded [5#64] (initialised 0 (ready 1#64 1#64 1#64 1#64))

/-- `four` in stage 0 of NTT, nothing done. -/
def staged : State :=
  let s := (four.issue .ntt).checkStep .ntt
  s.loadStep (kernelNtt s)

/-- `staged` with its butterflies done. -/
def stagedDone : State := staged.coreRound [0, 1]

/-- After a fatal fault. -/
def faulted : State := four.takeFatal .badAddr 0#8

/-- `four` in an instance with a pending device failure. -/
def failing : State := { four with params := { Params.recommended with devfail := true }, devFault := true }

theorem four_bundle : four.BundleReady 2 :=
  ⟨by decide, by decide +kernel, by decide +kernel, by decide +kernel, by decide +kernel, by decide +kernel,
    by decide +kernel, by decide +kernel⟩

theorem blown_bundle2 : blown.BundleReady 2 :=
  ⟨by decide, by decide +kernel, by decide +kernel, by decide +kernel, by decide +kernel, by decide +kernel,
    by decide +kernel, by decide +kernel⟩

theorem blown_bundle3 : blown.BundleReady 3 :=
  ⟨by decide, by decide +kernel, by decide +kernel, by decide +kernel, by decide +kernel, by decide +kernel,
    by decide +kernel, by decide +kernel⟩

theorem one_bundle : one.BundleReady 0 :=
  ⟨by decide, by decide +kernel, by decide +kernel, by decide +kernel, by decide +kernel, by decide +kernel,
    by decide +kernel, by decide +kernel⟩

theorem four_ready : four.Ready := ⟨rfl, rfl⟩
theorem blown_ready : blown.Ready := ⟨rfl, rfl⟩
theorem one_ready : one.Ready := ⟨rfl, rfl⟩

theorem four_reduced : four.InputReduced 4 := by unfold State.InputReduced; decide +kernel
theorem blown_reduced : blown.InputReduced 4 := by unfold State.InputReduced; decide +kernel
theorem one_reduced : one.InputReduced 1 := by unfold State.InputReduced; decide +kernel

theorem four_inv : four.Inv :=
  State.Inv.of_idle (by decide +kernel) (by decide +kernel) (by decide +kernel) rfl rfl (by decide) (by decide)

theorem blown_inv : blown.Inv :=
  State.Inv.of_idle (by decide +kernel) (by decide +kernel) (by decide +kernel) rfl rfl (by decide) (by decide)

theorem issued_inv : (four.issue .ntt).Inv := four_inv.issue rfl _

theorem checked_inv : ((four.issue .ntt).checkStep .ntt).Inv := issued_inv.checkStep rfl (by decide) rfl

theorem staged_inv : staged.Inv := checked_inv.loadStep (by decide +kernel) (i := .ntt) (by decide +kernel)
  (by decide +kernel) rfl

theorem stagedDone_inv : stagedDone.Inv :=
  State.coreRound_induct [0, 1] staged_inv (fun _ _ _ h hc => h.coreStep hc)

theorem faulted_inv : faulted.Inv := four_inv.takeFatal _ _

theorem four_wellFormed : four.params.wellFormed = true := by decide +kernel

theorem faulted_idle : faulted.params.wellFormed = true ∧ faulted.busy = false ∧ faulted.fault = true := by
  decide +kernel

theorem staged_busy : staged.params.wellFormed = true ∧ staged.busy = true ∧ staged.fault = false := by
  decide +kernel

/-! Encoding, the step and the life of a command. -/

theorem witness_DecodeEncodeAgree : Instr.inttc.wellFormed = true ∧ decode 0x23#64 = .ok .inttc := by decide

/-- Each kind of illegal word, at the ends of the ranges of R75. -/
theorem witness_IllegalWordsFaultAtIssue :
    ∀ w ∈ [0x100#64, 0x8000000000000001#64, 0x00#64, 0x07#64, 0x0F#64, 0x12#64, 0x1F#64, 0x24#64, 0xFF#64],
      ∃ s : State, s.params.wellFormed = true ∧ s.Ready ∧ s.script = .txn (.write 0x000000000000000F#64 w) :: [] ∧
        (w.toNat / 256 ≠ 0 ∨ w.toNat % 256 = 0x00 ∨ (0x07 ≤ w.toNat % 256 ∧ w.toNat % 256 ≤ 0x0F) ∨
          (0x12 ≤ w.toNat % 256 ∧ w.toNat % 256 ≤ 0x1F) ∨ 0x24 ≤ w.toNat % 256) := by
  intro w hw
  refine ⟨scripted [.txn (.write 0x000000000000000F#64 w)] State.reset, test_wf_recommended, ⟨rfl, rfl⟩, rfl, ?_⟩
  revert w
  simp only [List.forall_mem_cons, List.not_mem_nil, false_implies, implies_true, and_true]
  and_intros <;> decide +kernel

theorem witness_StepRunsTheDecodedCommand : ∃ s : State, s.params.wellFormed = true ∧ s.script = .call 0x20#64 :: [] ∧
    decode 0x20#64 = .ok .ntt ∧ decodeTableWord 64 0x20 = some .ntt :=
  ⟨scripted [.call 0x20#64] four, by decide +kernel⟩

theorem witness_CommandWriteIssues : ∃ s : State, s.params.wellFormed = true ∧ s.Ready ∧
    s.script = .txn (.write 0x000000000000000F#64 0x20#64) :: [] ∧ decode 0x20#64 = .ok .ntt :=
  ⟨scripted [.txn (.write 0x000000000000000F#64 0x20#64)] four, by decide +kernel, ⟨rfl, rfl⟩, rfl, by decide⟩

theorem witness_CommandOnUnreadyBlock : faulted.fault = true ∧ staged.fault = false ∧ staged.busy = true := by
  decide +kernel

/-! Field arithmetic. -/

/-- Both clauses of FADD, FSUB and FMUL: the largest reduced operands, and each operand at `P`. -/
theorem witness_FaddAddsModuloP : ∃ s t u : State, s.Ready ∧ s.arg0.toNat < s.modulus ∧ s.arg1.toNat < s.modulus ∧
    t.Ready ∧ t.modulus ≤ t.arg0.toNat ∧ u.Ready ∧ u.modulus ≤ u.arg1.toNat :=
  ⟨ready 0xFFFFFFFF00000000#64 0xFFFFFFFF00000000#64 0#64 0#64, ready modP 0#64 0#64 0#64, ready 0#64 modP 0#64 0#64,
    ⟨rfl, rfl⟩, by decide, by decide, ⟨rfl, rfl⟩, by decide, ⟨rfl, rfl⟩, by decide⟩

theorem witness_FsubSubtractsModuloP : ∃ s t u : State, s.Ready ∧ s.arg0.toNat < s.modulus ∧
    s.arg1.toNat < s.modulus ∧ t.Ready ∧ t.modulus ≤ t.arg0.toNat ∧ u.Ready ∧ u.modulus ≤ u.arg1.toNat :=
  witness_FaddAddsModuloP

theorem witness_FmulMultipliesModuloP : ∃ s t u : State, s.Ready ∧ s.arg0.toNat < s.modulus ∧
    s.arg1.toNat < s.modulus ∧ t.Ready ∧ t.modulus ≤ t.arg0.toNat ∧ u.Ready ∧ u.modulus ≤ u.arg1.toNat :=
  witness_FaddAddsModuloP

theorem witness_MulwGivesTheWholeProduct : ∃ s : State, s.Ready ∧ s.modulus ≤ s.arg1.toNat :=
  ⟨ready modP 0xFFFFFFFFFFFFFFFF#64 0#64 0#64, ⟨rfl, rfl⟩, by decide⟩

theorem witness_FredReduces : ∃ s : State, s.Ready ∧ s.modulus ≤ s.arg1.toNat :=
  witness_MulwGivesTheWholeProduct

/-- The three clauses of FINV: the largest operand, `P`, and 0. -/
theorem witness_FinvInverts : ∃ s t u : State,
    (s.Ready ∧ s.params.Conforms ∧ s.arg0.toNat < s.modulus ∧ s.arg0 ≠ 0#64) ∧
    (t.Ready ∧ t.modulus ≤ t.arg0.toNat) ∧ u.Ready ∧ u.arg0 = 0#64 ∧ 0 < u.modulus :=
  ⟨ready 0xFFFFFFFF00000000#64 0#64 0#64 0#64, ready modP 0#64 0#64 0#64, ready 0#64 0#64 0#64 0#64,
    ⟨⟨rfl, rfl⟩, recommended_conforms, by decide, by decide⟩, ⟨⟨rfl, rfl⟩, by decide⟩, ⟨rfl, rfl⟩, rfl, by decide⟩

theorem witness_FpowIsPower : ∃ (P : Nat) (a : Word), 1 < P ∧ P < 2 ^ 64 ∧ a.toNat < P :=
  ⟨0xFFFFFFFF00000001, 0xFFFFFFFF00000000#64, by decide⟩

theorem witness_FinvIsTheUniqueInverse : ∃ (c : Params) (a : Word), c.Conforms ∧ 0 < a.toNat ∧ a.toNat < c.modulus :=
  ⟨Params.recommended, 0xFFFFFFFF00000000#64, recommended_conforms, by decide, by decide⟩

theorem witness_FieldLaws : ∃ (C : Params) (a b c : Word), C.Conforms ∧ a.toNat < C.modulus ∧ b.toNat < C.modulus ∧
    c.toNat < C.modulus ∧ a ≠ 0#64 :=
  ⟨Params.recommended, 0xFFFFFFFF00000000#64, 0#64, 5#64, recommended_conforms, by decide, by decide, by decide,
    by decide⟩

/-! Tables. -/

theorem witness_RootOfUnityHasItsOrder : ∃ (c : Params) (k : Nat), c.Conforms ∧ k ≤ c.lognMax ∧ 1 ≤ k ∧
    (∃ e, 0 < e ∧ e < 2 ^ k) ∧ (∃ d, 0 < d ∧ k + d ≤ c.lognMax) :=
  ⟨Params.recommended, 3, recommended_conforms, by decide, by decide, ⟨7, by decide⟩, 1, by decide⟩

theorem witness_InverseTablesInvert : ∃ (c : Params) (k : Nat) (b : Bundle), c.Conforms ∧ k ≤ c.lognMax ∧
    b.Holds c k ∧ ∃ j, j < 2 ^ k / 2 :=
  ⟨Params.recommended, 2, four.bundle 2, recommended_conforms, by decide, four_bundle.2.2, 1, by decide⟩

theorem witness_BitReversalIsAnInvolution : ∃ k i b : Nat, i < 2 ^ k ∧ b < k := ⟨3, 6, 2, by decide⟩

/-- The three clauses of INIT: 0 and 6; the first size above the store; the largest size. -/
theorem witness_InitBuildsItsBundle :
    (∀ n ∈ [0#64, 6#64], ∃ s : State, s.Ready ∧ s.bundles.length = s.params.lognMax + 1 ∧ s.arg0 = n ∧
      ¬ IsPow2 s.arg0.toNat) ∧
    (∃ s : State, s.Ready ∧ s.bundles.length = s.params.lognMax + 1 ∧ s.arg0.toNat = 2 ^ 5 ∧ s.params.lognMax < 5) ∧
    ∃ s : State, s.Ready ∧ s.bundles.length = s.params.lognMax + 1 ∧ s.arg0.toNat = 2 ^ 4 ∧ 4 ≤ s.params.lognMax := by
  refine ⟨?_, ⟨ready 0x20#64 0#64 0#64 0#64, ⟨rfl, rfl⟩, rfl, by decide, by decide⟩,
    ready 0x10#64 0#64 0#64 0#64, ⟨rfl, rfl⟩, rfl, by decide, by decide⟩
  simp only [List.forall_mem_cons, List.not_mem_nil, false_implies, implies_true, and_true]
  exact ⟨⟨ready 0#64 0#64 0#64 0#64, ⟨rfl, rfl⟩, rfl, rfl, not_isPow2 (by decide)⟩,
    ready 6#64 0#64 0#64 0#64, ⟨rfl, rfl⟩, rfl, rfl, not_isPow2 (by decide)⟩

theorem witness_InitIsIdempotent : ∃ s t : State, s.Inv ∧ s.Ready ∧ s.arg0.toNat = 2 ^ Nat.log2 s.arg0.toNat ∧
    Nat.log2 s.arg0.toNat ≤ s.params.lognMax ∧ exec .init s = .next t := by
  obtain ⟨t, ht⟩ := exec_is_next .init four
  exact ⟨four, t, four_inv, four_ready, by decide, by decide, ht⟩

theorem witness_TeardownInvalidatesEveryBundle : four.Ready ∧ blown.Ready ∧ IsPow2 four.arg0.toNat ∧
    IsPow2 blown.arg0.toNat ∧ IsPow2 (blown.arg0.toNat * blown.arg2.toNat) ∧
    blown.arg0.toNat * blown.arg2.toNat < 2 ^ 64 ∧ blown.arg3.toNat = blown.arg0.toNat * blown.arg2.toNat :=
  ⟨four_ready, blown_ready, ⟨2, by decide⟩, ⟨2, by decide⟩, ⟨3, by decide⟩, by decide, by decide⟩

/-! Transforms: checks. -/

/-- The three clauses of NTT and INTT. -/
theorem witness_NttAndInttCheckInOrder : ∃ s t u v : State,
    (s.Ready ∧ ¬ IsPow2 s.arg0.toNat) ∧ (t.Ready ∧ t.arg0.toNat = 2 ^ 3 ∧ t.Uninit 3) ∧
    (v.Ready ∧ v.arg0.toNat = 2 ^ 5 ∧ v.params.lognMax < 5) ∧
    u.Ready ∧ u.arg0.toNat = 2 ^ 2 ∧ ¬ u.Uninit 2 ∧ ∃ j, j < u.arg0.toNat ∧ u.modulus ≤ (u.vin.read j).toNat := by
  refine ⟨ready 0#64 0#64 0#64 0#64, ready 8#64 0#64 0#64 0#64, loaded [1#64, 2#64, 3#64, modP] four,
    ready 32#64 0#64 0#64 0#64, ?_, ?_, ?_, ?_⟩
  · exact ⟨⟨rfl, rfl⟩, not_isPow2 (by decide)⟩
  · exact ⟨⟨rfl, rfl⟩, by decide, .inr (by decide)⟩
  · exact ⟨⟨rfl, rfl⟩, by decide, by decide⟩
  · exact ⟨⟨rfl, rfl⟩, by decide, by unfold State.Uninit; decide +kernel, 3, by decide, by decide +kernel⟩

/-- The clauses of NTTC, in their order. -/
theorem witness_NttcChecksInOrder :
    (∃ s : State, s.Ready ∧ ¬ IsPow2 s.arg0.toNat) ∧
    (∃ s : State, s.Ready ∧ IsPow2 s.arg0.toNat ∧ 2 ^ 64 ≤ s.arg0.toNat * s.arg2.toNat) ∧
    (∃ s : State, s.Ready ∧ IsPow2 s.arg0.toNat ∧ ¬ IsPow2 (s.arg0.toNat * s.arg2.toNat)) ∧
    (∃ s : State, s.Ready ∧ IsPow2 s.arg0.toNat ∧ s.arg0.toNat * s.arg2.toNat = 2 ^ 3 ∧ s.arg3.toNat ≠ 2 ^ 3) ∧
    (∃ s : State, s.Ready ∧ IsPow2 s.arg0.toNat ∧ s.arg0.toNat * s.arg2.toNat = 2 ^ 3 ∧ s.arg3.toNat = 2 ^ 3 ∧
      s.Uninit 3) ∧
    (∃ s : State, s.Ready ∧ IsPow2 s.arg0.toNat ∧ s.arg0.toNat * s.arg2.toNat = 2 ^ 3 ∧ s.arg3.toNat = 2 ^ 3 ∧
      ¬ s.Uninit 3 ∧ s.modulus ≤ s.arg1.toNat) ∧
    (∃ s : State, s.Ready ∧ IsPow2 s.arg0.toNat ∧ s.arg0.toNat * s.arg2.toNat = 2 ^ 3 ∧ s.arg3.toNat = 2 ^ 3 ∧
      ¬ s.Uninit 3 ∧ 0 < s.modulus ∧ s.arg1 = 0#64) ∧
    ∃ s : State, s.Ready ∧ IsPow2 s.arg0.toNat ∧ s.arg0.toNat * s.arg2.toNat = 2 ^ 3 ∧ s.arg3.toNat = 2 ^ 3 ∧
      ¬ s.Uninit 3 ∧ s.arg1.toNat < s.modulus ∧ s.arg1 ≠ 0#64 ∧
      ∃ j, j < s.arg0.toNat ∧ s.modulus ≤ (s.vin.read j).toNat := by
  refine ⟨⟨ready 3#64 0#64 2#64 8#64, ⟨rfl, rfl⟩, not_isPow2 (by decide)⟩,
    ⟨ready 4#64 7#64 0x4000000000000000#64 0#64, ⟨rfl, rfl⟩, ⟨2, by decide⟩, by decide⟩,
    ⟨ready 4#64 7#64 3#64 12#64, ⟨rfl, rfl⟩, ⟨2, by decide⟩, not_isPow2 (by decide)⟩,
    ⟨ready 4#64 7#64 2#64 4#64, ⟨rfl, rfl⟩, ⟨2, by decide⟩, by decide, by decide⟩,
    ⟨ready 4#64 7#64 2#64 8#64, ⟨rfl, rfl⟩, ⟨2, by decide⟩, by decide, by decide, .inr (by decide)⟩,
    ⟨initialised 3 (ready 4#64 modP 2#64 8#64), ⟨rfl, rfl⟩, ⟨2, by decide⟩, by decide, by decide, ?_, by decide⟩,
    ⟨initialised 3 (ready 4#64 0#64 2#64 8#64), ⟨rfl, rfl⟩, ⟨2, by decide⟩, by decide, by decide, ?_, by decide,
      by decide⟩,
    ⟨loaded [1#64, 2#64, 3#64, modP] (initialised 3 (ready 4#64 7#64 2#64 8#64)), ⟨rfl, rfl⟩, ⟨2, by decide⟩,
      by decide, by decide, ?_, by decide, by decide, 3, by decide, by decide +kernel⟩⟩ <;>
    (unfold State.Uninit; decide +kernel)

/-- The clauses of INTTC, in their order. -/
theorem witness_InttcChecksInOrder :
    (∃ s : State, s.Ready ∧ ¬ IsPow2 s.arg0.toNat) ∧
    (∃ s : State, s.Ready ∧ s.arg0.toNat = 2 ^ 2 ∧ s.Uninit 2) ∧
    (∃ s : State, s.Ready ∧ s.arg0.toNat = 2 ^ 2 ∧ ¬ s.Uninit 2 ∧ s.modulus ≤ s.arg1.toNat) ∧
    (∃ s : State, s.Ready ∧ s.arg0.toNat = 2 ^ 2 ∧ ¬ s.Uninit 2 ∧ 0 < s.modulus ∧ s.arg1 = 0#64) ∧
    ∃ s : State, s.Ready ∧ s.arg0.toNat = 2 ^ 2 ∧ ¬ s.Uninit 2 ∧ s.arg1.toNat < s.modulus ∧ s.arg1 ≠ 0#64 ∧
      ∃ j, j < s.arg0.toNat ∧ s.modulus ≤ (s.vin.read j).toNat := by
  refine ⟨⟨ready 5#64 0#64 0#64 0#64, ⟨rfl, rfl⟩, not_isPow2 (by decide)⟩,
    ⟨ready 4#64 7#64 0#64 0#64, ⟨rfl, rfl⟩, by decide, .inr (by decide)⟩,
    ⟨initialised 2 (ready 4#64 modP 0#64 0#64), ⟨rfl, rfl⟩, by decide, ?_, by decide⟩,
    ⟨initialised 2 (ready 4#64 0#64 0#64 0#64), ⟨rfl, rfl⟩, by decide, ?_, by decide, by decide⟩,
    ⟨loaded [1#64, modP, 3#64, 4#64] (initialised 2 (ready 4#64 1#64 0#64 0#64)), ⟨rfl, rfl⟩, by decide, ?_,
      by decide, by decide, 1, by decide, by decide +kernel⟩⟩ <;>
    (unfold State.Uninit; decide +kernel)

/-! Transforms: results. -/

theorem four_initialised : ¬ four.Uninit 2 := by unfold State.Uninit; decide +kernel

theorem witness_NttCompletes : ∃ (s : State) (L : Nat), s.Ready ∧ s.arg0.toNat = 2 ^ L ∧ ¬ s.Uninit L ∧
    s.InputReduced (2 ^ L) ∧ s.NoDeviceFailure :=
  ⟨four, 2, four_ready, by decide, four_initialised, four_reduced, .inl rfl⟩

theorem witness_InttCompletes : ∃ (s : State) (L : Nat), s.Ready ∧ s.arg0.toNat = 2 ^ L ∧ ¬ s.Uninit L ∧
    s.InputReduced (2 ^ L) ∧ s.NoDeviceFailure :=
  witness_NttCompletes

theorem witness_NttcCompletes : ∃ (s : State) (L : Nat), s.Ready ∧ IsPow2 s.arg0.toNat ∧
    s.arg0.toNat * s.arg2.toNat = 2 ^ L ∧ 2 ^ L < 2 ^ 64 ∧ s.arg3.toNat = 2 ^ L ∧ ¬ s.Uninit L ∧
    s.arg1.toNat < s.modulus ∧ s.arg1 ≠ 0#64 ∧ s.InputReduced s.arg0.toNat ∧ s.NoDeviceFailure :=
  ⟨blown, 3, blown_ready, ⟨2, by decide⟩, by decide, by decide, by decide, by unfold State.Uninit; decide +kernel,
    by decide, by decide, blown_reduced, .inl rfl⟩

theorem witness_InttcCompletes : ∃ (s : State) (L : Nat), s.Ready ∧ s.arg0.toNat = 2 ^ L ∧ ¬ s.Uninit L ∧
    s.arg1.toNat < s.modulus ∧ s.arg1 ≠ 0#64 ∧ s.InputReduced (2 ^ L) ∧ s.NoDeviceFailure :=
  ⟨four, 2, four_ready, by decide, four_initialised, by decide, by decide, four_reduced, .inl rfl⟩

theorem witness_StockhamIsTheForwardSum : ∃ (c : Params) (L : Nat) (w : Word) (f : Nat → Word), c.Conforms ∧ L ≤ 62 ∧
    w.toNat < c.modulus ∧ w.toNat ^ 2 ^ L % c.modulus = 1 ∧
    (1 ≤ L ∧ w.toNat ^ 2 ^ (L - 1) % c.modulus = c.modulus - 1) ∧ (∀ i, i < 2 ^ L → (f i).toNat < c.modulus) ∧
    ∃ j, j < 2 ^ L :=
  ⟨Params.recommended, 2, 0x0001000000000000#64, four.vin.read, recommended_conforms, by decide, by decide,
    by decide +kernel, by decide +kernel, four_reduced, 3, by decide⟩

theorem witness_NttEvaluatesAtRootPowers : ∃ (s : State) (L : Nat), s.params.Conforms ∧ s.Ready ∧
    s.arg0.toNat = 2 ^ L ∧ s.BundleReady L ∧ s.InputReduced (2 ^ L) ∧ s.NoDeviceFailure :=
  ⟨four, 2, recommended_conforms, four_ready, by decide, four_bundle, four_reduced, .inl rfl⟩

theorem witness_InttInterpolates : ∃ (s : State) (L : Nat), s.params.Conforms ∧ s.Ready ∧
    s.arg0.toNat = 2 ^ L ∧ s.BundleReady L ∧ s.InputReduced (2 ^ L) ∧ s.NoDeviceFailure :=
  witness_NttEvaluatesAtRootPowers

theorem witness_NttcEvaluatesOnTheCoset : ∃ (s : State) (L : Nat), s.params.Conforms ∧ s.Ready ∧
    IsPow2 s.arg0.toNat ∧ s.arg0.toNat * s.arg2.toNat = 2 ^ L ∧ s.arg3.toNat = 2 ^ L ∧ s.BundleReady L ∧
    s.arg1.toNat < s.modulus ∧ s.arg1 ≠ 0#64 ∧ s.InputReduced s.arg0.toNat ∧ s.NoDeviceFailure :=
  ⟨blown, 3, recommended_conforms, blown_ready, ⟨2, by decide⟩, by decide, by decide, blown_bundle3, by decide,
    by decide, blown_reduced, .inl rfl⟩

theorem witness_InttUndoesNtt : ∃ (s t : State) (v : Memory) (L : Nat), s.params.Conforms ∧ s.Ready ∧
    s.arg0.toNat = 2 ^ L ∧ s.BundleReady L ∧ s.InputReduced (2 ^ L) ∧ s.NoDeviceFailure ∧ exec .ntt s = .next t ∧
    ∀ i, i < 2 ^ L → v.read i = t.vout.read i := by
  obtain ⟨t, ht⟩ := exec_is_next .ntt four
  exact ⟨four, t, t.vout, 2, recommended_conforms, four_ready, by decide, four_bundle, four_reduced, .inl rfl, ht,
    fun _ _ => rfl⟩

theorem witness_InttcUndoesNttc : ∃ (s t : State) (v : Memory) (L : Nat), s.params.Conforms ∧ s.Ready ∧
    IsPow2 s.arg0.toNat ∧ s.arg0.toNat * s.arg2.toNat = 2 ^ L ∧ s.arg3.toNat = 2 ^ L ∧ s.BundleReady L ∧
    s.arg1.toNat < s.modulus ∧ s.arg1 ≠ 0#64 ∧ s.InputReduced s.arg0.toNat ∧ s.NoDeviceFailure ∧
    exec .nttc s = .next t ∧ ∀ i, i < 2 ^ L → v.read i = t.vout.read i := by
  obtain ⟨t, ht⟩ := exec_is_next .nttc blown
  exact ⟨blown, t, t.vout, 3, recommended_conforms, blown_ready, ⟨2, by decide⟩, by decide, by decide, blown_bundle3,
    by decide, by decide, blown_reduced, .inl rfl, ht, fun _ _ => rfl⟩

theorem witness_NttIsLinear : ∃ (s t1 t2 t3 : State) (v1 v2 v3 : Memory) (L : Nat), s.params.Conforms ∧ s.Ready ∧
    s.arg0.toNat = 2 ^ L ∧ s.BundleReady L ∧ s.NoDeviceFailure ∧
    (∀ i, i < 2 ^ L → (v1.read i).toNat < s.modulus ∧ (v2.read i).toNat < s.modulus ∧
      v3.read i = fadd s.modulus (v1.read i) (v2.read i)) ∧
    exec .ntt { s with vin := v1 } = .next t1 ∧ exec .ntt { s with vin := v2 } = .next t2 ∧
    exec .ntt { s with vin := v3 } = .next t3 := by
  let v3 : Memory := four.vin.writeFrom 0 [2#64, 4#64, 6#64, 0xFFFFFFFEFFFFFFFF#64]
  obtain ⟨t, ht⟩ := exec_is_next .ntt four
  obtain ⟨t3, h3⟩ := exec_is_next .ntt { four with vin := v3 }
  exact ⟨four, t, t, t3, four.vin, four.vin, v3, 2, recommended_conforms, four_ready, by decide, four_bundle, .inl rfl,
    by decide +kernel, ht, ht, h3⟩

theorem witness_BlowupSelection : ∃ (s t t1 : State) (L M : Nat), s.params.Conforms ∧ s.Ready ∧
    s.arg0.toNat = 2 ^ M ∧ s.arg0.toNat * s.arg2.toNat = 2 ^ L ∧ s.arg3.toNat = 2 ^ L ∧ s.BundleReady L ∧
    s.BundleReady M ∧ s.arg1.toNat < s.modulus ∧ s.arg1 ≠ 0#64 ∧ s.InputReduced (2 ^ M) ∧ s.NoDeviceFailure ∧
    exec .nttc s = .next t ∧ exec .nttc { s with arg2 := 1#64, arg3 := s.arg0 } = .next t1 := by
  obtain ⟨t, ht⟩ := exec_is_next .nttc blown
  obtain ⟨t1, h1⟩ := exec_is_next .nttc { blown with arg2 := 1#64, arg3 := blown.arg0 }
  exact ⟨blown, t, t1, 3, 2, recommended_conforms, blown_ready, by decide, by decide, by decide, blown_bundle3,
    blown_bundle2, by decide, by decide, blown_reduced, .inl rfl, ht, h1⟩

theorem witness_IdentityOffsetIsNoOffset : ∃ (s : State) (L : Nat), s.params.Conforms ∧ s.Ready ∧
    s.arg0.toNat = 2 ^ L ∧ s.BundleReady L ∧ s.arg1 = 1#64 ∧ s.InputReduced (2 ^ L) ∧ s.NoDeviceFailure ∧
    s.arg2 = 1#64 ∧ s.arg3 = s.arg0 :=
  ⟨{ four with arg1 := 1#64 }, 2, recommended_conforms, ⟨rfl, rfl⟩, by decide, four_bundle, rfl, four_reduced, .inl rfl,
    rfl, rfl⟩

theorem witness_SizeOneCopies : one.params.Conforms ∧ one.Ready ∧ one.arg0 = 1#64 ∧ one.BundleReady 0 ∧
    one.InputReduced 1 ∧ one.NoDeviceFailure :=
  ⟨recommended_conforms, one_ready, rfl, one_bundle, one_reduced, .inl rfl⟩

theorem witness_DeviceFailureEndsATransform : ∃ (i : Instr) (s : State) (k : Kernel), s.Ready ∧ checkOf i s = none ∧
    kernelOf i s = some k ∧ s.params.devfail = true ∧ s.devFault = true :=
  ⟨.ntt, failing, kernelNtt failing, ⟨rfl, rfl⟩, by decide +kernel, rfl, rfl, rfl⟩

/-! The micro level. -/

theorem witness_ButterflyStepRule : ∃ (s s' : State) (j : Nat) (i : Instr) (k : Kernel), s.Inv ∧ s.busy = true ∧
    s.coreStep j = some s' ∧ decodeOpcode s.cur = some i ∧ kernelOf i s = some k := by
  obtain ⟨s', hs⟩ := Option.isSome_iff_exists.mp (show (staged.coreStep 1).isSome = true by decide +kernel)
  exact ⟨staged, s', 1, .ntt, kernelNtt staged, staged_inv, by decide +kernel, hs, by decide +kernel, rfl⟩

theorem witness_BarrierStepRule : ∃ s s' : State, s.Inv ∧ s.phase = .stage ∧ s.NoDeviceFailure ∧
    s.seqStep = some s' := by
  obtain ⟨s', hs⟩ := Option.isSome_iff_exists.mp (show stagedDone.seqStep.isSome = true by decide +kernel)
  exact ⟨stagedDone, s', stagedDone_inv, by decide +kernel, .inl (by decide +kernel), hs⟩

theorem witness_ButterflyOrderIsIrrelevant : ∃ (s : State) (i : Instr) (k : Kernel) (rounds : List (List Nat)), s.Inv ∧
    s.busy = true ∧ s.phase = .stage ∧ s.doneset = [] ∧ decodeOpcode s.cur = some i ∧ kernelOf i s = some k ∧
    (∀ js ∈ rounds, js.length ≤ s.params.lanes) ∧ rounds.flatten.Perm (List.range (2 ^ s.l / 2)) :=
  ⟨staged, .ntt, kernelNtt staged, [[1], [0]], staged_inv, by decide +kernel, by decide +kernel, by decide +kernel,
    by decide +kernel, rfl, by decide +kernel, by decide +kernel⟩

theorem witness_CommandsCommitAtomically : ∃ s s' t t' : State, (s.busy = true ∧ s.seqStep = some s' ∧ s'.busy = true) ∧
    t.busy = true ∧ (∃ j, t.coreStep j = some t') ∧ t'.busy = true := by
  obtain ⟨s', hs⟩ := Option.isSome_iff_exists.mp (show stagedDone.seqStep.isSome = true by decide +kernel)
  obtain ⟨t', ht⟩ := Option.isSome_iff_exists.mp (show (staged.coreStep 0).isSome = true by decide +kernel)
  have hb : stagedDone.seqStep.map State.busy = some true := by decide +kernel
  have hc : (staged.coreStep 0).map State.busy = some true := by decide +kernel
  exact ⟨stagedDone, s', staged, t', ⟨by decide +kernel, hs, by simpa [hs] using hb⟩, by decide +kernel, ⟨0, ht⟩,
    by simpa [ht] using hc⟩

theorem witness_TheTwoLevelsAgree : four.params.wellFormed = true ∧ four.Inv ∧ four.Ready ∧ four.script = [] :=
  ⟨by decide +kernel, four_inv, four_ready, rfl⟩

/-- One butterfly round in the reverse order, then one by one. -/
theorem witness_EveryScheduleAgreesWithExec : ∃ (s t : State) (i : Instr) (moves : List Event),
    s.params.wellFormed = true ∧ s.Inv ∧ s.Ready ∧ (∀ e ∈ moves, e = .seq ∨ ∃ js, e = .cores js) ∧
    Host.Core.run core (1 + moves.length)
      ({ s with script := .txn (.write 0x000000000000000F#64 (encode i)) :: moves } : State) = .next t ∧
    t.busy = false := by
  obtain ⟨t, ht, hp⟩ := next_of (o := Host.Core.run core 10
    (scripted (.txn (.write 0x000000000000000F#64 (encode .ntt)) ::
      [.seq, .seq, .cores [1, 0], .seq, .cores [1], .cores [0], .seq, .seq, .seq]) four))
    (p := fun t => !t.busy) (by decide +kernel)
  refine ⟨four, t, .ntt, [.seq, .seq, .cores [1, 0], .seq, .cores [1], .cores [0], .seq, .seq, .seq],
    by decide +kernel, four_inv, four_ready, ?_, ht, by simpa using hp⟩
  intro e he
  fin_cases he <;> simp

/-! Invariants. -/

/-- A step of the block in the middle of a stage. -/
theorem witness_StepKeepsInv : ∃ s s' : State, s.Inv ∧ step s = .next s' := by
  obtain ⟨s', hs⟩ := next_some (o := step staged) (by decide +kernel)
  exact ⟨staged, s', staged_inv, hs⟩

/-- INIT of a second size, beside a valid bundle. -/
theorem witness_StepKeepsBundles : ∃ s s' : State, s.Inv ∧ s.BundlesInv ∧ step s = .next s' := by
  obtain ⟨s', hs⟩ := next_some (o := step (scripted [.call 0x10#64] { four with arg0 := 8#64 })) (by decide +kernel)
  refine ⟨_, s', State.Inv.of_idle (by decide +kernel) (by decide +kernel) (by decide +kernel) rfl rfl (by decide)
    (by decide), fun _ => ⟨fun k b hb hv => ?_, fun k b hk => ?_⟩, hs⟩
  · have hk : four.validBit k = true := by
      unfold State.validBit
      rw [show four.bundles[k]? = some b from hb]
      exact hv
    have hlt : k < 5 := by
      by_contra hk'
      have hlen : four.bundles.length = 5 := by decide +kernel
      have : four.bundles[k]? = none := List.getElem?_eq_none (by omega)
      rw [show four.bundles[k]? = some b from hb] at this
      cases this
    have h2 : ∀ k, k < 5 → four.validBit k = true → k = 2 := by decide +kernel
    obtain rfl := h2 k hlt hk
    have hb2 : four.bundle 2 = b := by unfold State.bundle; rw [show four.bundles[2]? = some b from hb]; rfl
    exact hb2 ▸ four_bundle.2.2
  · cases hk

/-- A round of butterflies in the middle of a stage. -/
theorem witness_StepKeepsResultsReduced : ∃ s s' : State, s.params.Conforms ∧ s.Inv ∧ s.ReducedInv ∧
    step s = .next s' := by
  obtain ⟨s', hs⟩ := next_some (o := step staged) (by decide +kernel)
  have hp : staged.params = Params.recommended := by decide +kernel
  refine ⟨staged, s', hp ▸ recommended_conforms, staged_inv, fun _ => ⟨?_, fun _ _ => ⟨?_, ?_⟩, ?_, ?_⟩, hs⟩
  · intro i v hv
    rw [show staged.vout.cells = [] by decide +kernel] at hv
    cases hv
  · have : ∀ i, i < 2 ^ 2 → (staged.src.read i).toNat < staged.modulus := by decide +kernel
    rwa [show staged.l = 2 by decide +kernel]
  · rw [show staged.doneset = [] by decide +kernel]
    simp
  · intro _ h
    rw [show staged.phase = .stage by decide +kernel] at h
    cases h
  · intro out h
    rw [show staged.held = .nothing by decide +kernel] at h
    cases h

/-- A conforming instance with a command in flight; and an instance that the step refuses, whose `G` has too small an
order. -/
theorem witness_StepNeverSticks : (staged.params.Conforms ∧ staged.Inv) ∧
    (nextOf (step { State.reset with params := { Params.recommended with g := 49#64 } })).isNone = true :=
  ⟨⟨Params.wellFormed_iff.mp (by decide +kernel), staged_inv⟩, by decide +kernel⟩

theorem witness_FaultIsStickyUntilReset : ∃ (s s' : State) (a v : Word) (rest : List Event), s.Inv ∧ s.fault = true ∧
    step s = .next s' ∧ (∀ rest, s.script ≠ .rst :: rest) ∧ s.script = .txn (.write a v) :: rest := by
  obtain ⟨s', hs⟩ := next_some (o := step (scripted [.txn (.write 0xF#64 0x10#64)] faulted)) (by decide +kernel)
  exact ⟨_, s', 0xF#64, 0x10#64, [], faulted_inv.withScript _, by decide +kernel, hs, by simp, rfl⟩

/-! The port. -/

/-- Each register, in an idle and in a faulted block; the first and the last cell of VIN and VOUT. -/
theorem witness_PortReads :
    (∀ a ∈ [0x0#64, 0x1#64, 0x2#64, 0x3#64, 0x4#64, 0x5#64, 0x8#64, 0x9#64, 0xA#64, 0xB#64, 0xC#64, 0xD#64],
      ∃ s t : State, (s.params.wellFormed = true ∧ s.busy = false ∧ s.fault = false ∧ s.script = .txn (.read a) :: []) ∧
        t.params.wellFormed = true ∧ t.busy = false ∧ t.fault = true ∧ t.script = .txn (.read a) :: []) ∧
    ∀ j ∈ [0, 15], ∃ s : State, s.params.wellFormed = true ∧ s.busy = false ∧ j < s.params.capn ∧
      s.script = .txn (.read (0x4000000000000000#64 + BitVec.ofNat 64 j)) :: [] := by
  refine ⟨fun a _ => ⟨scripted [.txn (.read a)] four, scripted [.txn (.read a)] faulted,
    ⟨four_wellFormed, rfl, rfl, rfl⟩, faulted_idle.1, faulted_idle.2.1, faulted_idle.2.2, rfl⟩, fun j hj =>
    ⟨scripted [.txn (.read (0x4000000000000000#64 + BitVec.ofNat 64 j))] four, four_wellFormed, rfl, ?_, rfl⟩⟩
  revert j
  decide +kernel

/-- Each ARG register, and the first and the last cell of VIN. -/
theorem witness_PortWrites :
    (∀ a ∈ [0x8#64, 0x9#64, 0xA#64, 0xB#64], ∃ s : State, s.params.wellFormed = true ∧ s.Ready ∧
      s.script = .txn (.write a modP) :: []) ∧
    ∀ j ∈ [0, 15], ∃ s : State, s.params.wellFormed = true ∧ s.Ready ∧ j < s.params.capn ∧
      s.script = .txn (.write (0x4000000000000000#64 + BitVec.ofNat 64 j) modP) :: [] := by
  refine ⟨fun a _ => ⟨scripted [.txn (.write a modP)] four, four_wellFormed, ⟨rfl, rfl⟩, rfl⟩, fun j hj =>
    ⟨scripted [.txn (.write (0x4000000000000000#64 + BitVec.ofNat 64 j) modP)] four, four_wellFormed, ⟨rfl, rfl⟩, ?_,
      rfl⟩⟩
  revert j
  decide +kernel

/-- Every kind of access violation, at the ends of its range: space 3, the holes of the CSR space, CMD read, the first
cell beyond CAPN, read-only registers and VOUT written. -/
theorem witness_AccessViolationsFault :
    (∀ a ∈ [0xC000000000000000#64, 0xFFFFFFFFFFFFFFFF#64, 0x6#64, 0x7#64, 0xE#64, 0xF#64, 0x10#64,
        0x3FFFFFFFFFFFFFFF#64, 0x4000000000000010#64, 0x7FFFFFFFFFFFFFFF#64, 0x8000000000000010#64,
        0xBFFFFFFFFFFFFFFF#64],
      3 * 2 ^ 62 ≤ a.toNat ∨ (a.toNat < 2 ^ 62 ∧ (a.toNat = 0x6 ∨ a.toNat = 0x7 ∨ 0xE ≤ a.toNat)) ∨
        (2 ^ 62 ≤ a.toNat ∧ a.toNat < 2 * 2 ^ 62 ∧ four.params.capn ≤ a.toNat - 2 ^ 62) ∨
        (2 * 2 ^ 62 ≤ a.toNat ∧ a.toNat < 3 * 2 ^ 62 ∧ four.params.capn ≤ a.toNat - 2 * 2 ^ 62)) ∧
    (∀ a ∈ [0x8000000000000000#64, 0xFFFFFFFFFFFFFFFF#64, 0x0#64, 0x7#64, 0xC#64, 0xD#64, 0xE#64, 0x10#64,
        0x3FFFFFFFFFFFFFFF#64, 0x4000000000000010#64, 0x7FFFFFFFFFFFFFFF#64],
      2 * 2 ^ 62 ≤ a.toNat ∨
        (a.toNat < 2 ^ 62 ∧ (a.toNat ≤ 0x7 ∨ (0xC ≤ a.toNat ∧ a.toNat ≤ 0xE) ∨ 0x10 ≤ a.toNat)) ∨
        (2 ^ 62 ≤ a.toNat ∧ a.toNat < 2 * 2 ^ 62 ∧ four.params.capn ≤ a.toNat - 2 ^ 62)) ∧
    ∀ tr : Txn, ∃ s t : State, (s.params.wellFormed = true ∧ s.busy = false ∧ s.script = .txn tr :: [] ∧
      s.fault = false) ∧ t.params.wellFormed = true ∧ t.busy = false ∧ t.script = .txn tr :: [] ∧ t.fault = true := by
  refine ⟨?_, ?_, fun tr => ⟨scripted [.txn tr] four, scripted [.txn tr] faulted,
    ⟨four_wellFormed, rfl, rfl, rfl⟩, faulted_idle.1, faulted_idle.2.1, rfl, faulted_idle.2.2⟩⟩ <;>
  · simp only [List.forall_mem_cons, List.not_mem_nil, false_implies, implies_true, and_true]
    and_intros <;> decide +kernel

/-- A read of STATUS; any other transaction, one of them to the address of STATUS. -/
theorem witness_BusyAccessFaults : ∀ tr ∈ [Txn.read 0x0#64, .write 0x0#64 0#64, .read 0x2#64, .read 0xC000000000000000#64],
    ∃ s : State, s.params.wellFormed = true ∧ s.busy = true ∧ s.fault = false ∧ s.script = .txn tr :: [] := by
  intro tr _
  exact ⟨scripted [.txn tr] staged, staged_busy.1, staged_busy.2.1, staged_busy.2.2, rfl⟩

theorem witness_StatusViewBits : four.params.wellFormed = true ∧ four.Inv := ⟨by decide +kernel, four_inv⟩

/-- The clauses of the bridge: the lowest and the highest word address; a misaligned address; sizes 4 and 9. -/
theorem witness_ByteBusBridge : ∀ acc ∈ [BusAccess.read 0#67 8, .read (BitVec.ofNat 67 (8 * (2 ^ 64 - 1))) 8,
      .write 64#67 [1#8, 2#8, 3#8, 4#8, 5#8, 6#8, 7#8, 8#8], .read 4#67 8, .read 8#67 4, .write 8#67 [1#8],
      .write 7#67 [1#8, 2#8, 3#8, 4#8, 5#8, 6#8, 7#8, 8#8]],
    ∃ s : State, s.params.wellFormed = true ∧ s.script = .bus acc :: [] := by
  intro acc _
  exact ⟨scripted [.bus acc] four, four_wellFormed, rfl⟩

/-! Reset and frames. -/

/-- Reset of an idle, a busy and a faulted block. -/
theorem witness_ResetActionRule : ∀ s ∈ [four, staged, faulted], (scripted [.rst] s).params.wellFormed = true ∧
    (scripted [.rst] s).script = .rst :: [] := by
  decide +kernel

/-- A transform that commits, and a command that fails. -/
theorem witness_CommandFrame : ∃ t u : State, exec .ntt four = .next t ∧ t.done = true ∧
    exec .inttc (ready 0#64 0#64 0#64 0#64) = .next u ∧ u.done = false := by
  obtain ⟨t, ht, hp⟩ := next_of (o := exec .ntt four) (p := fun t => t.done) (by decide +kernel)
  obtain ⟨u, hu, hq⟩ := next_of (o := exec .inttc (ready 0#64 0#64 0#64 0#64)) (p := fun t => !t.done)
    (by decide +kernel)
  exact ⟨t, u, ht, hp, hu, by simpa using hq⟩

end Sys2Proof.Tests
end

section
/-! SUPPORT. One stage of the pipeline, butterfly by butterfly (42_transform.md R133 to R137): what a done butterfly
records, and that the stage ends in `wholeStage` whatever the order. -/

namespace Sys2Proof.Machine

/-! ### Overwriting a range of a canonical memory -/

/-- A cell written just before the range it lies in is overwritten leaves no trace in a canonical memory. -/
theorem Memory.writeFrom_write_inside {m : Memory} (h : m.wf = true) (vs : List Word) {i k : Nat}
    (hk : i ≤ k ∧ k < i + vs.length) (v : Word) : (m.write k v).writeFrom i vs = m.writeFrom i vs := by
  refine Memory.ext_of_get (Memory.writeFrom_wf _ (Memory.write_wf h _ _) _) (Memory.writeFrom_wf _ h _) (by simp) ?_
  intro x
  rw [Memory.get_writeFrom, Memory.get_writeFrom]
  by_cases hx : x = k
  · subst hx
    rw [if_pos hk, if_pos hk]
  · simp [Memory.write, cellsGet_set_other _ hx]

/-- Writing the words a canonical memory already lists changes nothing. -/
theorem Memory.writeFrom_eq_self {m : Memory} (h : m.wf = true) (f : Nat → Word) {n : Nat}
    (hf : ∀ x, x < n → cellsGet m.cells x = some (f x)) : m.writeFrom 0 ((List.range n).map f) = m := by
  refine Memory.ext_of_get (Memory.writeFrom_wf _ h _) h (by simp) ?_
  intro x
  rw [Memory.get_writeFrom]
  split
  · rename_i hx
    simp only [List.length_map, List.length_range] at hx
    have hlt : x < n := by omega
    simp [hlt, hf x hlt]
  · rfl

/-! ### The set DONESET as a list -/

theorem length_insertIndex {j : Nat} {l : List Nat} (h : j ∉ l) : (insertIndex j l).length = l.length + 1 := by
  induction l with
  | nil => rfl
  | cons i is ih =>
    simp only [List.mem_cons, not_or] at h
    obtain ⟨hi, his⟩ := h
    simp only [insertIndex, if_neg hi]
    split
    · rfl
    · simp [ih his]

/-- A strictly rising list of indexes below `n` has at most `n` entries. -/
theorem length_le_of_rising {l : List Nat} {n : Nat} (hs : l.Pairwise (· < ·)) (hn : ∀ j ∈ l, j < n) :
    l.length ≤ n := by
  have hsub : l.Subperm (List.range n) :=
    List.subperm_of_subset (hs.imp Nat.ne_of_lt) fun j hj => List.mem_range.mpr (hn j hj)
  simpa using hsub.length_le

/-- A strictly rising list of indexes below `n` that misses none of them is the whole range. -/
theorem eq_range_of_rising {l : List Nat} {n : Nat} (hs : l.Pairwise (· < ·)) (hn : ∀ j, j ∈ l ↔ j < n) :
    l = List.range n := by
  refine List.Perm.eq_of_pairwise (le := (· < ·)) (fun a b _ _ hab hba => by omega) hs
    List.pairwise_lt_range ?_
  exact (List.perm_ext_iff_of_nodup (hs.imp Nat.ne_of_lt) List.nodup_range).mpr (by simpa using hn)

@[simp] theorem State.setDst_self (s : State) : s.setDst s.dst = s := by
  unfold State.setDst State.dst
  split <;> rfl

/-! ### The butterflies of a stage -/

/-- The value that a stage leaves in cell `x` of the destination buffer (R133). -/
def State.stageValue (s : State) (inverse : Bool) (x : Nat) : Word :=
  stageCell s.modulus (s.twiddle inverse) s.l s.t s.src.read x

theorem State.wholeStage_eq_stageValue (s : State) (inverse : Bool) : s.wholeStage inverse =
    (s.setDst (s.dst.writeFrom 0 ((List.range (2 ^ s.l)).map (s.stageValue inverse)))).barrierStep := rfl

/-- A butterfly writes the stage's values in its two cells (R133). -/
theorem State.butterfly_eq_stageValue (s : State) (inverse : Bool) {j : Nat} (hj : j < 2 ^ s.l / 2) :
    s.butterfly inverse j =
      { s.setDst ((s.dst.write j (s.stageValue inverse j)).write (j + 2 ^ s.l / 2)
          (s.stageValue inverse (j + 2 ^ s.l / 2))) with doneset := insertIndex j s.doneset } := by
  simp [State.butterfly, State.stageValue, stageCell, hj]

/-- The butterfly that writes cell `x` of a stage of size `2^L` (R133). -/
def owner (L x : Nat) : Nat := if x < 2 ^ L / 2 then x else x - 2 ^ L / 2

/-- The butterflies of DONESET have left the stage's values in their cells of the destination buffer (R133). -/
def State.StageRecorded (s : State) (inverse : Bool) : Prop :=
  ∀ x, x < 2 ^ s.l → owner s.l x ∈ s.doneset → cellsGet s.dst.cells x = some (s.stageValue inverse x)

@[simp] theorem State.butterfly_doneset (s : State) (inv : Bool) (j : Nat) :
    (s.butterfly inv j).doneset = insertIndex j s.doneset := rfl

@[simp] theorem State.butterfly_dst (s : State) (inv : Bool) {j : Nat} (hj : j < 2 ^ s.l / 2) :
    (s.butterfly inv j).dst = (s.dst.write j (s.stageValue inv j)).write (j + 2 ^ s.l / 2)
      (s.stageValue inv (j + 2 ^ s.l / 2)) := by
  rw [State.butterfly_eq_stageValue s inv hj]
  exact State.setDst_dst _ _

/-- A butterfly changes nothing that the values of its stage are made of (R136). -/
@[simp] theorem State.butterfly_stageValue (s : State) (inv inv' : Bool) (j : Nat) :
    (s.butterfly inv j).stageValue inv' = s.stageValue inv' := by
  have hsrc : (s.butterfly inv j).src = s.src := State.setDst_src _ _
  have htw : (s.butterfly inv j).twiddle inv' = s.twiddle inv' := by
    funext e
    simp [State.butterfly, State.twiddle, State.bundle]
  funext x
  simp only [State.stageValue, hsrc, htw]
  simp [State.butterfly, State.modulus]

/-- The two cells of butterfly `j` are its own. -/
theorem eq_of_owner_eq {L j x : Nat} (h : owner L x = j) : x = j ∨ x = j + 2 ^ L / 2 := by
  unfold owner at h
  split at h <;> omega

/-- At the start of a stage there is nothing to record. -/
theorem State.StageRecorded.of_none {s : State} {inv : Bool} (h : s.doneset = []) : s.StageRecorded inv :=
  fun _ _ hx => by simp [h] at hx

/-- A butterfly records its values and keeps those recorded before it. -/
theorem State.StageRecorded.butterfly {s : State} {inv : Bool} (h : s.StageRecorded inv) {j : Nat}
    (hj : j < 2 ^ s.l / 2) : (s.butterfly inv j).StageRecorded inv := by
  have hl : (s.butterfly inv j).l = s.l := by simp [State.butterfly]
  intro x hx hown
  rw [hl] at hx hown
  rw [State.butterfly_dst s inv hj, State.butterfly_stageValue]
  simp only [Memory.write]
  by_cases hhi : x = j + 2 ^ s.l / 2
  · rw [hhi, cellsGet_set_same]
  · rw [cellsGet_set_other _ hhi]
    by_cases hlo : x = j
    · rw [hlo, cellsGet_set_same]
    · rw [cellsGet_set_other _ hlo]
      have hne : owner s.l x ≠ j := fun he => (eq_of_owner_eq he).elim hlo hhi
      exact h x hx ((mem_insertIndex.mp hown).resolve_left hne)

/-- What a stage leaves does not depend on the butterflies that are done already (R136). -/
theorem State.wholeStage_butterfly {s : State} (hw : s.memoriesWf = true) (inv : Bool) {j : Nat}
    (hj : j < 2 ^ s.l / 2) : (s.butterfly inv j).wholeStage inv = s.wholeStage inv := by
  have hl : (s.butterfly inv j).l = s.l := by simp [State.butterfly]
  have hd := State.dst_wf hw
  rw [State.wholeStage_eq_stageValue, State.wholeStage_eq_stageValue, State.butterfly_dst s inv hj,
    State.butterfly_stageValue, hl, Memory.writeFrom_write_inside (Memory.write_wf hd _ _) _ (by simp; omega),
    Memory.writeFrom_write_inside hd _ (by simp; omega), State.butterfly_eq_stageValue s inv hj]
  cases hsel : s.sel <;> simp [State.setDst, State.barrierStep, hsel]

/-- Once every butterfly is done, the barrier completes the stage (R135, R136). -/
theorem State.barrierStep_eq_wholeStage {s : State} (hw : s.memoriesWf = true) {inv : Bool}
    (hr : s.StageRecorded inv) (hl : 0 < s.l) (hd : s.stageDone = true) : s.barrierStep = s.wholeStage inv := by
  have hall : s.doneset = List.range (2 ^ s.l / 2) := by simpa [State.stageDone] using hd
  have hdst : s.dst.writeFrom 0 ((List.range (2 ^ s.l)).map (s.stageValue inv)) = s.dst := by
    refine Memory.writeFrom_eq_self (State.dst_wf hw) _ fun x hx => hr x hx ?_
    rw [hall, List.mem_range]
    exact stage_owner_lt hl hx
  rw [State.wholeStage_eq_stageValue, hdst, State.setDst_self]

end Sys2Proof.Machine
end

section
/-! SUPPORT. The part of a command that follows its check: it does not depend on PHASE and runs beside the script. -/

namespace Sys2Proof.Machine

/-- The body of a command sets PHASE before anything reads it. -/
@[simp] theorem bodyOf_toPhase (i : Instr) (s : State) (p : Phase) : bodyOf i (s.toPhase p) = bodyOf i s := by
  cases i <;> rfl

theorem State.toPhase_self {s : State} {p : Phase} (h : s.phase = p) : s.toPhase p = s := by
  subst h
  rfl

/-- The body of a transform is its pipeline. -/
theorem bodyOf_of_kernel {i : Instr} {s : State} {k : Kernel} (hk : kernelOf i s = some k) :
    bodyOf i s = runTransform k s := by
  cases i <;> simp [kernelOf] at hk <;> subst hk <;> rfl

/-- The body of the other commands is the execute step and the commit step. -/
theorem bodyOf_of_execute {i : Instr} {s u : State} (hp : s.phase = .exec) (he : executeOf i s = some u) :
    bodyOf i s = u.commit := by
  rw [← State.toPhase_self hp] at he
  cases i <;> simp [executeOf] at he <;> subst he <;> rfl

/-- An execute step holds a result, and none that is a vector (30_encoding.md R73 step 3; 42_transform.md R138). -/
theorem executeOf_held {i : Instr} {s u : State} (he : executeOf i s = some u) :
    u.held ≠ .nothing ∧ ∀ out, u.held ≠ .vector out := by
  cases i <;> simp [executeOf] at he <;> subst he <;>
    simp [executeFadd, executeFsub, executeFmul, executeMulw, executeFred, executeFinv, executeInit, executeTeardown]

/-! ### The script -/

/-- The state with another script. -/
def State.withScript (s : State) (sc : List Event) : State := { s with script := sc }

@[simp] theorem State.withScript_script (s : State) (sc : List Event) : (s.withScript sc).script = sc := rfl

@[simp] theorem State.withScript_withScript (s : State) (sc sc' : List Event) :
    (s.withScript sc).withScript sc' = s.withScript sc' := rfl

theorem State.withScript_self {s : State} {sc : List Event} (h : s.script = sc) : s.withScript sc = s := by
  subst h
  rfl

theorem State.raise_withScript (s : State) (r : Raise) (sc : List Event) :
    (s.withScript sc).raise r = (s.raise r).withScript sc := by
  cases r with
  | fail c => rfl
  | fatal c =>
    unfold State.raise State.takeFatal
    cases hf : s.fault <;> simp [State.withScript, hf, State.abandonedBundles]

theorem State.setDst_withScript (s : State) (m : Memory) (sc : List Event) :
    (s.withScript sc).setDst m = (s.setDst m).withScript sc := by
  cases hsel : s.sel <;> simp [State.setDst, State.withScript, hsel]

theorem State.wholeStage_withScript (s : State) (inv : Bool) (sc : List Event) :
    (s.withScript sc).wholeStage inv = (s.wholeStage inv).withScript sc :=
  congrArg State.barrierStep (State.setDst_withScript s _ sc)

theorem State.runStages_withScript (inv : Bool) (n : Nat) (s : State) (sc : List Event) :
    State.runStages inv n (s.withScript sc) = (State.runStages inv n s).withScript sc := by
  induction n generalizing s with
  | zero => rfl
  | succ n ih =>
    rw [State.runStages, State.runStages, State.wholeStage_withScript, ih]

theorem runTransform_withScript (k : Kernel) (s : State) (sc : List Event) :
    runTransform k (s.withScript sc) = (runTransform k s).withScript sc := by
  have hload : ((s.withScript sc).toPhase .load).loadStep k = ((s.toPhase .load).loadStep k).withScript sc := rfl
  have hdev : (s.withScript sc).devicePending = s.devicePending := rfl
  unfold runTransform
  rw [hload, State.runStages_withScript, hdev]
  split <;> rfl

theorem bodyOf_withScript (i : Instr) (s : State) (sc : List Event) :
    bodyOf i (s.withScript sc) = (bodyOf i s).withScript sc := by
  cases i with
  | ntt | nttc | intt | inttc => exact runTransform_withScript _ s sc
  | _ => rfl

end Sys2Proof.Machine
end

section
/-! SUPPORT. The micro level refines `exec` (00_scope.md R10): the state a command in flight will end in, the number of
steps it still takes (70_reset_and_hazards.md R208), and that every micro step keeps the one and takes one off the
other. -/

namespace Sys2Proof.Machine

/-! ### The end of a command in flight, and how far it is -/

/-- The state in which the command `i` in flight ends, when all that is left of it is done at once. -/
def State.settle (s : State) (i : Instr) : State :=
  match s.phase with
  | .idle => s
  | .check =>
    match checkOf i s with
    | some r => s.raise r
    | none => bodyOf i s
  | .exec => if s.held = .nothing then bodyOf i s else s.commit
  | .load => bodyOf i s
  | .stage =>
    match kernelOf i s with
    | some k => ((State.runStages k.inverse (s.l - s.t) s).storeStep k).commit
    | none => s
  | .store =>
    match kernelOf i s with
    | some k => if s.held = .nothing then (s.storeStep k).commit else s.commit
    | none => s

/-- How many steps the command `i` in flight still takes (70_reset_and_hazards.md R208). -/
def State.stepsLeft (s : State) (i : Instr) : Nat :=
  match s.phase with
  | .idle => 0
  | .check => microSteps i s
  | .exec => if s.held = .nothing then 2 else 1
  | .load => microSteps i s - 1
  | .stage => (s.l - s.t) * (2 ^ s.l / 2 + 1) - s.doneset.length + 2
  | .store => if s.held = .nothing then 2 else 1

theorem State.settle_idle {s : State} (i : Instr) (h : s.phase = .idle) : s.settle i = s := by
  simp [State.settle, h]

theorem State.settle_stage {s : State} {i : Instr} {k : Kernel} (h : s.phase = .stage) (hk : kernelOf i s = some k) :
    s.settle i = ((State.runStages k.inverse (s.l - s.t) s).storeStep k).commit := by
  simp [State.settle, h, hk]

theorem State.settle_store {s : State} {i : Instr} {k : Kernel} (h : s.phase = .store) (hk : kernelOf i s = some k)
    (hn : s.held = .nothing) : s.settle i = (s.storeStep k).commit := by
  simp [State.settle, h, hk, hn]

theorem State.commit_withScript (s : State) (sc : List Event) :
    (s.withScript sc).commit = s.commit.withScript sc := by
  have hheld : (s.withScript sc).held = s.held := rfl
  unfold State.commit State.writeResult
  rw [hheld]
  cases s.held <;> rfl

theorem State.storeStep_withScript (s : State) (k : Kernel) (sc : List Event) :
    (s.withScript sc).storeStep k = (s.storeStep k).withScript sc := rfl

/-- The end of a command does not depend on the script. -/
theorem State.settle_withScript (s : State) (i : Instr) (sc : List Event) :
    (s.withScript sc).settle i = (s.settle i).withScript sc := by
  have hp : (s.withScript sc).phase = s.phase := rfl
  have hh : (s.withScript sc).held = s.held := rfl
  have hl : (s.withScript sc).l - (s.withScript sc).t = s.l - s.t := rfl
  have hk : kernelOf i (s.withScript sc) = kernelOf i s := kernelOf_congr i rfl rfl rfl rfl rfl rfl
  have hc : checkOf i (s.withScript sc) = checkOf i s := checkOf_congr i rfl rfl rfl rfl rfl rfl rfl
  unfold State.settle
  rw [hp, hh, hl, hk, hc]
  cases s.phase with
  | idle => rfl
  | check => cases checkOf i s <;> simp [State.raise_withScript, bodyOf_withScript]
  | exec => by_cases hn : s.held = .nothing <;> simp [hn, State.commit_withScript, bodyOf_withScript]
  | load => exact bodyOf_withScript i s sc
  | stage =>
    cases kernelOf i s <;>
      simp [State.runStages_withScript, State.storeStep_withScript, State.commit_withScript]
  | store =>
    cases kernelOf i s with
    | none => rfl
    | some k => simp only [State.storeStep_withScript, State.commit_withScript]; split <;> rfl

theorem State.settle_withScript_self {s : State} (i : Instr) {sc : List Event} (h : s.script = sc) :
    (s.settle i).withScript sc = s.settle i := by
  rw [← State.settle_withScript, State.withScript_self h]

/-! ### The invariant of a run of one command -/

/-- While BUSY = 1 no fatal fault was taken (10_state.md R23). -/
theorem State.Inv.fault_of_busy {s : State} (h : s.Inv) (hb : s.busy = true) : s.fault = false := by
  cases hf : s.fault
  · rfl
  · simp [(h.faultAlone hf).1] at hb

/-- The command `i` is in flight or has ended: the block meets its invariant, CUR names the command, no device failure
is pending once the pipeline runs, and the done butterflies of a stage have written their cells. -/
structure State.OnCourse (s : State) (i : Instr) : Prop where
  inv : s.Inv
  current : s.busy = true → decodeOpcode s.cur = some i
  noDevice : s.phase = .stage ∨ s.phase = .store → s.devicePending = false
  recorded : s.phase = .stage → ∀ k, kernelOf i s = some k → s.StageRecorded k.inverse

theorem State.OnCourse.of_idle {i : Instr} {s : State} (h : s.Inv) (hb : s.busy = false) : s.OnCourse i where
  inv := h
  current := by simp [hb]
  noDevice := by simp [h.phase_idle hb]
  recorded := by simp [h.phase_idle hb]

theorem State.OnCourse.withScript {i : Instr} {s : State} (h : s.OnCourse i) (sc : List Event) :
    (s.withScript sc).OnCourse i where
  inv := h.inv.withScript sc
  current := h.current
  noDevice := h.noDevice
  recorded := fun hp k hk => h.recorded hp k (by rw [← hk]; exact (kernelOf_congr i rfl rfl rfl rfl rfl rfl))

theorem State.OnCourse.sequencing {i : Instr} {s : State} (h : s.OnCourse i) (hb : s.busy = true) :
    s.sequencing i := by
  obtain ⟨i', hi', hs⟩ := h.inv.inFlight hb
  rw [h.current hb, Option.some.injEq] at hi'
  rwa [hi']

/-- From `s` to `s'` the block works on the command `i` without changing the state it will end in. -/
structure Follows (i : Instr) (s s' : State) : Prop where
  onCourse : s'.OnCourse i
  settle : s'.settle i = s.settle i
  params : s'.params = s.params
  script : s'.script = s.script

theorem Follows.refl {i : Instr} {s : State} (h : s.OnCourse i) : Follows i s s := ⟨h, rfl, rfl, rfl⟩

theorem Follows.trans {i : Instr} {s s' s'' : State} (h : Follows i s s') (h' : Follows i s' s'') :
    Follows i s s'' :=
  ⟨h'.onCourse, h'.settle.trans h.settle, h'.params.trans h.params, h'.script.trans h.script⟩

/-- From `s` to `s'` the command `i` takes one of the steps it has left. -/
structure Advances (i : Instr) (s s' : State) : Prop extends Follows i s s' where
  stepsLeft : s.stepsLeft i = s'.stepsLeft i + 1

/-- The last step of a command. -/
theorem Advances.of_end {i : Instr} {s s' : State} (hinv : s'.Inv) (hb : s'.busy = false) (hs : s.settle i = s')
    (hn : s.stepsLeft i = 1) (hp : s'.params = s.params) (hsc : s'.script = s.script) : Advances i s s' where
  onCourse := .of_idle hinv hb
  settle := by rw [State.settle_idle i (hinv.phase_idle hb), hs]
  params := hp
  script := hsc
  stepsLeft := by rw [hn]; simp [State.stepsLeft, hinv.phase_idle hb]

/-! ### The micro steps, one by one -/

variable {i : Instr} {s s' : State}

/-- The check step (30_encoding.md R73 step 2). -/
theorem State.OnCourse.checkStep (h : s.OnCourse i) (hb : s.busy = true) (hp : s.phase = .check) :
    Advances i s (s.checkStep i) := by
  have hf := h.inv.fault_of_busy hb
  have hheld : s.held = .nothing := by simpa [State.sequencing, hp] using h.sequencing hb
  have hinv := h.inv.checkStep hb (h.current hb) hp
  cases hc : checkOf i s with
  | some r =>
    have hr : s.checkStep i = s.raise r := by simp [State.checkStep, hc]
    rw [hr] at hinv ⊢
    refine .of_end hinv ?_ (by simp [State.settle, hp, hc]) (by simp [State.stepsLeft, hp, microSteps, hc]) ?_ ?_
    all_goals cases r <;> simp [State.raise, State.takeFatal_eq s hf]
  | none =>
    have hr : s.checkStep i = s.toPhase (phaseAfterCheck i) := by simp [State.checkStep, hc]
    rw [hr] at hinv ⊢
    have hk : kernelOf i (s.toPhase (phaseAfterCheck i)) = kernelOf i s := kernelOf_congr i rfl rfl rfl rfl rfl rfl
    have hc' : checkOf i (s.toPhase (phaseAfterCheck i)) = none :=
      (checkOf_congr i rfl rfl rfl rfl rfl rfl rfl).trans hc
    have hm : microSteps i (s.toPhase (phaseAfterCheck i)) = microSteps i s := by
      simp [microSteps, hc, hc', hk, State.devicePending]
    have hph : phaseAfterCheck i = .exec ∨ phaseAfterCheck i = .load := by cases i <;> simp [phaseAfterCheck]
    refine ⟨⟨⟨hinv, h.current, ?_, ?_⟩, ?_, rfl, rfl⟩, ?_⟩
    · rcases hph with hph | hph <;> simp [hph]
    · rcases hph with hph | hph <;> simp [hph]
    · rcases hph with hph | hph <;> simp [State.settle, hph, hp, hc, hheld]
    · have := phaseAfterCheck_eq i s
      simp only [State.stepsLeft, hm, hp, State.toPhase_phase, State.toPhase_held, hheld]
      cases hk : kernelOf i s with
      | none => simp [this, hk, microSteps, hc]
      | some k =>
        simp only [this, hk, microSteps, hc, reduceCtorEq, if_false]
        split <;> omega

/-- The execute step of a command that is no transform (30_encoding.md R73 step 3). -/
theorem State.OnCourse.executeStep (h : s.OnCourse i) (hb : s.busy = true) (hp : s.phase = .exec)
    (hn : s.held = .nothing) (he : executeOf i s = some s') : Advances i s s' := by
  have hinv := h.inv.executeStep hb (h.current hb) hp he
  obtain ⟨hheld, -⟩ := executeOf_held he
  have hbody := bodyOf_of_execute hp he
  obtain ⟨hf, -⟩ := executeOf_frame he
  have hp' : s'.phase = .exec := by rw [hf]; exact hp
  refine ⟨⟨⟨hinv, ?_, by simp [hp'], by simp [hp']⟩, ?_, by rw [hf], by rw [hf]⟩, ?_⟩
  · rw [hf]; exact h.current
  · simp [State.settle, hp, hp', hn, hheld, hbody]
  · simp [State.stepsLeft, hp, hp', hn, hheld]

/-- The commit step (30_encoding.md R73 step 4; 42_transform.md R139). -/
theorem State.OnCourse.commitStep (h : s.OnCourse i) (hb : s.busy = true)
    (hp : s.phase = .exec ∨ s.phase = .store) (hn : s.held ≠ .nothing) : Advances i s s.commit := by
  have hseq := h.sequencing hb
  have hfit : ∀ out, s.held = .vector out → out.length ≤ s.params.capn := by
    intro out hout
    rcases hp with hp | hp <;> simp only [State.sequencing, hp] at hseq
    · obtain ⟨-, -, hheld⟩ := hseq
      obtain ⟨u, hu, hu'⟩ := hheld.resolve_left hn
      exact absurd (hu'.symm.trans hout) ((executeOf_held hu).2 out)
    · obtain ⟨hc, ⟨k, hk, hl⟩, -, -, hheld⟩ := hseq
      obtain ⟨out', hout', hlen⟩ := hheld.resolve_left hn
      obtain rfl : out = out' := by simpa [hout] using hout'
      rw [hlen, hl]
      exact kernel_size_le hc hk
  have hfault : s.fault = false := h.inv.fault_of_busy hb
  have hinv := State.Inv.commit h.inv.canonical h.inv.bounded h.inv.registry (h.inv.busyAlone hb).2 hfault hfit
  refine .of_end hinv (by simp [State.commit]) ?_ ?_ (by simp [State.commit]) (by simp [State.commit])
  · rcases hp with hp | hp
    · simp [State.settle, hp, hn]
    · simp only [State.sequencing, hp] at hseq
      obtain ⟨-, ⟨k, hk, -⟩, -⟩ := hseq
      simp [State.settle, hp, hk, hn]
  · rcases hp with hp | hp <;> simp [State.stepsLeft, hp, hn]

/-- A pending device failure ends a transform at its load step (60_exceptions.md R179). -/
theorem State.OnCourse.deviceStep {k : Kernel} (h : s.OnCourse i) (hb : s.busy = true) (hp : s.phase = .load)
    (hk : kernelOf i s = some k) (hd : s.devicePending = true) : Advances i s (s.takeDevice (2 ^ k.logSize)) := by
  have hseq := h.sequencing hb
  simp only [State.sequencing, hp] at hseq
  obtain ⟨-, hc, -⟩ := hseq
  refine .of_end (h.inv.takeDevice (kernel_size_le hc hk)) rfl ?_ ?_ rfl rfl
  · have hbody := bodyOf_of_kernel hk
    simp only [runTransform, hd, if_true, State.toPhase_self hp] at hbody
    simp [State.settle, hp, hbody]
  · simp [State.stepsLeft, hp, microSteps, hc, hk, hd]

/-- The load step (42_transform.md R131). -/
theorem State.OnCourse.loadStep {k : Kernel} (h : s.OnCourse i) (hb : s.busy = true) (hp : s.phase = .load)
    (hk : kernelOf i s = some k) (hd : s.devicePending = false) : Advances i s (s.loadStep k) := by
  have hseq := h.sequencing hb
  simp only [State.sequencing, hp] at hseq
  obtain ⟨hn, hc, -⟩ := hseq
  have hk' : kernelOf i (s.loadStep k) = some k := (kernelOf_congr i rfl rfl rfl rfl rfl rfl).trans hk
  have hbody := bodyOf_of_kernel hk
  simp only [runTransform, hd, Bool.false_eq_true, if_false, State.toPhase_self hp] at hbody
  refine ⟨⟨⟨h.inv.loadStep hb (h.current hb) hp hk, h.current, fun _ => hd, fun _ _ _ => .of_none rfl⟩, ?_,
    rfl, rfl⟩, ?_⟩
  · have hs : s.settle i = bodyOf i s := by simp [State.settle, hp]
    rw [hs, hbody]
    by_cases hl : k.logSize = 0
    · rw [State.settle_store (by simp [hl]) hk' hn, hl]
      rfl
    · rw [State.settle_stage (by simp [hl]) hk']
      rfl
  · by_cases hl : k.logSize = 0
    · simp [State.stepsLeft, hp, microSteps, hc, hk, hd, hl, hn]
    · simp only [State.stepsLeft, hp, microSteps, hc, hk, hd, State.loadStep_phase, hl, State.loadStep_l,
        State.loadStep_t, State.loadStep_doneset, Bool.false_eq_true, if_false, List.length_nil, Nat.sub_zero, Nat.mul_add]
      omega

/-- The store step (42_transform.md R138). -/
theorem State.OnCourse.storeStep {k : Kernel} (h : s.OnCourse i) (hb : s.busy = true) (hp : s.phase = .store)
    (hk : kernelOf i s = some k) (hn : s.held = .nothing) : Advances i s (s.storeStep k) := by
  have hk' : kernelOf i (s.storeStep k) = some k := (kernelOf_congr i rfl rfl rfl rfl rfl rfl).trans hk
  have hp' : (s.storeStep k).phase = .store := hp
  have hn' : (s.storeStep k).held ≠ .nothing := by simp [State.storeStep]
  refine ⟨⟨⟨h.inv.storeStep hb hp k, h.current, fun _ => h.noDevice (.inr hp), by simp [hp']⟩, ?_, rfl, rfl⟩, ?_⟩
  · simp [State.settle, hp, hp', hk, hk', hn, hn']
  · simp [State.stepsLeft, hp, hp', hn, hn']

/-- The barrier step (42_transform.md R135). -/
theorem State.OnCourse.barrierStep {k : Kernel} (h : s.OnCourse i) (hb : s.busy = true) (hp : s.phase = .stage)
    (hk : kernelOf i s = some k) (hdone : s.stageDone = true) : Advances i s s.barrierStep := by
  have hseq := h.sequencing hb
  simp only [State.sequencing, hp] at hseq
  obtain ⟨hn, -, -, hlt, -, -, -⟩ := hseq
  have hk' : kernelOf i s.barrierStep = some k := (kernelOf_congr i rfl rfl rfl rfl rfl rfl).trans hk
  have hwhole := State.barrierStep_eq_wholeStage h.inv.canonical (h.recorded hp k hk) (by omega) hdone
  have hset : s.doneset = List.range (2 ^ s.l / 2) := by simpa [State.stageDone] using hdone
  obtain ⟨n, hleft⟩ : ∃ n, s.l - s.t = n + 1 := ⟨s.l - s.t - 1, by omega⟩
  have hs : s.settle i = ((State.runStages k.inverse n s.barrierStep).storeStep k).commit := by
    rw [State.settle_stage hp hk, hleft, State.runStages, hwhole]
  have hleft' : s.l - (s.t + 1) = n := by omega
  refine ⟨⟨⟨h.inv.barrierStep hb hp, h.current, fun _ => h.noDevice (.inl hp), fun _ _ _ => .of_none rfl⟩, ?_,
    rfl, rfl⟩, ?_⟩
  · by_cases hlast : s.t + 1 = s.l
    · obtain rfl : n = 0 := by omega
      rw [hs, State.settle_store (by simp [hlast]) hk' hn]
      rfl
    · rw [hs, State.settle_stage (by simp [hlast, hp]) hk', State.barrierStep_l, State.barrierStep_t, hleft']
  · by_cases hlast : s.t + 1 = s.l
    · obtain rfl : n = 0 := by omega
      simp [State.stepsLeft, hp, hlast, hn, hleft, hset]
    · simp only [State.stepsLeft, hp, State.barrierStep_phase, hlast, if_false, hleft, hset, List.length_range,
        State.barrierStep_l, State.barrierStep_t, hleft', State.barrierStep_doneset, List.length_nil, Nat.succ_mul]
      omega

/-- A step of a butterfly core (42_transform.md R133, R136). -/
theorem State.OnCourse.coreStep (h : s.OnCourse i) {j : Nat} (hs : s.coreStep j = some s') : Advances i s s' := by
  have hinv := h.inv.coreStep hs
  obtain ⟨hb, hp, hj, hnot, i', k, hi, hk, rfl⟩ := State.coreStep_cases hs
  obtain rfl : i = i' := by simpa [h.current hb] using hi
  have hseq := h.sequencing hb
  simp only [State.sequencing, hp] at hseq
  obtain ⟨-, -, -, hlt, -, hsort, hbelow⟩ := hseq
  obtain ⟨m, he, -⟩ := s.butterfly_eq k.inverse j
  have hk' : kernelOf i (s.butterfly k.inverse j) = some k := by
    rw [← hk, he]
    exact kernelOf_congr i (by simp) (by simp) (by simp) (by simp) (by simp) (by simp)
  have hp' : (s.butterfly k.inverse j).phase = .stage := by simp [he, hp]
  have hl' : (s.butterfly k.inverse j).l = s.l := by simp [he]
  have ht' : (s.butterfly k.inverse j).t = s.t := by simp [he]
  obtain ⟨n, hleft⟩ : ∃ n, s.l - s.t = n + 1 := ⟨s.l - s.t - 1, by omega⟩
  refine ⟨⟨⟨hinv, ?_, ?_, ?_⟩, ?_, by simp [he], by simp [he]⟩, ?_⟩
  · simpa [he] using h.current
  · intro _
    simpa [he, State.devicePending] using h.noDevice (.inl hp)
  · intro _ k' hk''
    obtain rfl : k = k' := by simpa [hk'] using hk''
    exact (h.recorded hp k hk).butterfly hj
  · rw [State.settle_stage hp' hk', State.settle_stage hp hk, hl', ht', hleft, State.runStages, State.runStages,
      State.wholeStage_butterfly h.inv.canonical k.inverse hj]
  · have hlen := length_le_of_rising hsort hbelow
    simp only [State.stepsLeft, hp, hp', hl', ht', hleft, State.butterfly_doneset, length_insertIndex hnot,
      Nat.succ_mul]
    omega

end Sys2Proof.Machine
end

section
/-! SUPPORT. Runs of one command: any step of the block or of a schedule, from the write to CMD to the end. -/

namespace Sys2Proof.Machine

variable {i : Instr} {s s' : State}

/-- Every step of the sequencer takes the command one step on. -/
theorem State.OnCourse.seqStep (h : s.OnCourse i) (hs : s.seqStep = some s') : Advances i s s' := by
  obtain ⟨hb, i', hi, hcases⟩ := State.seqStep_cases hs
  obtain rfl : i = i' := by simpa [h.current hb] using hi
  rcases hcases with ⟨hp, rfl⟩ | ⟨hp, hn, he⟩ | ⟨hp, hn, rfl⟩ | ⟨hphase, k, hk, hpipe⟩
  · exact h.checkStep hb hp
  · exact h.executeStep hb hp hn he
  · exact h.commitStep hb (.inl hp) hn
  · rcases State.pipelineStep_cases hpipe with ⟨hd, rfl⟩ | ⟨hd, hp, rfl⟩ | ⟨-, hp, hdone, rfl⟩ | ⟨-, hp, hn, rfl⟩ |
      ⟨-, hp, hn, rfl⟩
    · have hp : s.phase = .load := by
        rcases hphase with hp | hp
        · exact hp
        · simp [h.noDevice hp] at hd
      exact h.deviceStep hb hp hk hd
    · exact h.loadStep hb hp hk hd
    · exact h.barrierStep hb hp hk hdone
    · exact h.storeStep hb hp hk hn
    · exact h.commitStep hb (.inr hp) hn

/-- A round of the cores leaves the end of the command as it is (42_transform.md R136, R137). -/
theorem State.OnCourse.coreRound (h : s.OnCourse i) (js : List Nat) : Follows i s (s.coreRound js) :=
  State.coreRound_induct (p := Follows i s) js (.refl h)
    fun _ _ _ hf hstep => hf.trans (hf.onCourse.coreStep hstep).toFollows

/-- A step of the block takes the command one step on. -/
theorem State.OnCourse.blockStep (h : s.OnCourse i) (hs : s.blockStep = some s') : Advances i s s' := by
  rcases State.blockStep_cases hs with hs | ⟨j, hs⟩
  · exact h.seqStep hs
  · exact h.coreStep hs

/-! ### A command in flight goes on (60_exceptions.md R182) -/

/-- While a stage is not done one of its butterflies is enabled. -/
theorem State.nextButterfly_of_not_done {s : State} (hsort : s.doneset.Pairwise (· < ·))
    (hlt : ∀ j ∈ s.doneset, j < 2 ^ s.l / 2) (hd : s.stageDone = false) :
    ∃ j, s.nextButterfly = some j ∧ j < 2 ^ s.l / 2 ∧ j ∉ s.doneset := by
  cases hn : s.nextButterfly with
  | some j =>
    unfold State.nextButterfly at hn
    exact ⟨j, rfl, List.mem_range.mp (List.mem_of_find?_eq_some hn), by simpa using List.find?_some hn⟩
  | none =>
    have hall : ∀ j, j < 2 ^ s.l / 2 → j ∈ s.doneset := by simpa [State.nextButterfly] using hn
    have := eq_range_of_rising hsort fun j => ⟨hlt j, hall j⟩
    simp [State.stageDone, this] at hd

/-- A block with BUSY = 1 that meets its invariant has a step. -/
theorem State.Inv.blockStep_exists {s : State} (h : s.Inv) (hb : s.busy = true) : ∃ s', s.blockStep = some s' := by
  obtain ⟨i, hi, hseq⟩ := h.inFlight hb
  have hsome : (∃ s', s.seqStep = some s') → ∃ s', s.blockStep = some s' := by
    rintro ⟨s', hs⟩
    exact ⟨s', by simp [State.blockStep, hs]⟩
  cases hp : s.phase with
  | idle => simp [State.sequencing, hp] at hseq
  | check => exact hsome ⟨s.checkStep i, by simp [State.seqStep, hb, hi, hp]⟩
  | exec =>
    simp only [State.sequencing, hp] at hseq
    obtain ⟨hk, -, -⟩ := hseq
    refine hsome ?_
    by_cases hn : s.held = .nothing
    · obtain ⟨u, hu⟩ := Option.ne_none_iff_exists'.mp fun he => (executeOf_eq_none_iff i s).mp he hk
      exact ⟨u, by simp [State.seqStep, hb, hi, hp, hn, hu]⟩
    · exact ⟨s.commit, by simp [State.seqStep, hb, hi, hp, hn]⟩
  | load =>
    simp only [State.sequencing, hp] at hseq
    obtain ⟨-, -, k, hk⟩ := hseq
    refine hsome ?_
    cases hd : s.devicePending <;> simp [State.seqStep, State.pipelineStep, hb, hi, hp, hk, hd]
  | store =>
    simp only [State.sequencing, hp] at hseq
    obtain ⟨-, ⟨k, hk, -⟩, -⟩ := hseq
    refine hsome ?_
    cases hd : s.devicePending <;> simp [State.seqStep, State.pipelineStep, hb, hi, hp, hk, hd]
  | stage =>
    simp only [State.sequencing, hp] at hseq
    obtain ⟨-, -, ⟨k, hk, -⟩, -, -, hsort, hlt⟩ := hseq
    cases hd : s.devicePending with
    | true => exact hsome (by simp [State.seqStep, State.pipelineStep, hb, hi, hp, hk, hd])
    | false =>
      cases hdone : s.stageDone with
      | true => exact hsome (by simp [State.seqStep, State.pipelineStep, hb, hi, hp, hk, hd, hdone])
      | false =>
        obtain ⟨j, hj, hjlt, hnot⟩ := State.nextButterfly_of_not_done hsort hlt hdone
        have hseq : s.seqStep = none := by simp [State.seqStep, State.pipelineStep, hb, hi, hp, hk, hd, hdone]
        exact ⟨s.butterfly k.inverse j, by
          simp [State.blockStep, hseq, State.coreStep, hb, hi, hp, hk, hj, hjlt, hnot]⟩

/-! ### From issue to the end -/

/-- `exec` of a ready state issues the command and gives the state it ends in. -/
theorem exec_eq_settle (hr : s.Ready) : exec i s = .next (((s.respond Response.okay).issue i).settle i) := by
  cases hc : checkOf i s with
  | some r => simp [exec_of_failed hr hc, State.settle, hc]
  | none => simp [exec_of_checked hr hc, State.settle, hc]

theorem State.Inv.onCourse_issue (h : s.Inv) (hr : s.Ready) : ((s.respond Response.okay).issue i).OnCourse i where
  inv := (h.respond _).issue hr.2 i
  current := fun _ => decodeOpcode_opcode i
  noDevice := by simp
  recorded := by simp

/-- An issued command has the steps R208 counts. -/
theorem State.stepsLeft_issue (i : Instr) (s : State) (sc : List Event) :
    (((s.respond Response.okay).issue i).withScript sc).stepsLeft i = microSteps i s := by
  have hp : (((s.respond Response.okay).issue i).withScript sc).phase = .check := rfl
  have hd : (((s.respond Response.okay).issue i).withScript sc).devicePending = s.devicePending := rfl
  have hc : checkOf i (((s.respond Response.okay).issue i).withScript sc) = checkOf i s :=
    checkOf_congr i rfl rfl rfl rfl rfl rfl rfl
  have hk : kernelOf i (((s.respond Response.okay).issue i).withScript sc) = kernelOf i s :=
    kernelOf_congr i rfl rfl rfl rfl rfl rfl
  simp only [State.stepsLeft, hp, microSteps, hc, hk, hd]

theorem decode_encode (i : Instr) : decode (encode i) = .ok i := by
  cases i <;> decide

/-- A write of a command word to CMD issues the command in a ready state (30_encoding.md R73 step 1). -/
theorem State.transact_command (hr : s.Ready) (i : Instr) :
    s.transact (.write 0x000000000000000F#64 (encode i)) = (s.respond Response.okay).issue i := by
  have hport : s.portWrite 0x000000000000000F#64 (encode i) = some (s.issueWord (encode i)) := rfl
  simp only [State.transact, hr.1, hr.2, Bool.false_eq_true, if_false, State.transactIdle, hport, State.issueWord,
    decode_encode]
  rfl

/-- A read of STATUS is answered while BUSY = 0 (20_memory.md R57, R59). -/
theorem State.transact_status (hb : s.busy = false) :
    s.transact (.read statusAddr) = s.respond (Response.okWith s.statusWord) := by
  have hport : s.portRead statusAddr = some s.statusWord := rfl
  cases hf : s.fault <;> simp [State.transact, hb, hf, State.transactIdle, State.transactFaulted, hport]

theorem step_of_script {e : Event} {rest : List Event} (hw : s.params.wellFormed = true) (hs : s.script = e :: rest) :
    step s = State.perform e (s.withScript rest) := by
  simp only [step, hw, if_true, State.advance, hs]
  rfl

/-- A wait in a busy block is a step of the block (log 15). -/
theorem State.perform_wait (hb : s.busy = true) (hs : s.script = [.wait]) :
    State.perform .wait (s.withScript []) = s.runBlock := by
  have hwait : State.perform .wait (s.withScript []) = if s.busy then (s.withScript [.wait]).runBlock else
    .next ((s.withScript []).transact (.read statusAddr)) := rfl
  rw [hwait, hb, State.withScript_self hs]
  rfl

theorem run_succ {n : Nat} (h : step s = .next s') : Host.Core.run core (n + 1) s = Host.Core.run core n s' := by
  have hstep : core.step s = .next s' := h
  simp only [Host.Core.run, hstep]

/-- A wait runs the command to its end, a step at a time, and reads STATUS (30_encoding.md R85). -/
theorem run_wait (h : s.OnCourse i) (hw : s.params.wellFormed = true) (hs : s.script = [.wait]) :
    Host.Core.run core (s.stepsLeft i + 1) s =
      .next (((s.settle i).withScript []).respond (Response.okWith (s.settle i).statusWord)) := by
  generalize hn : s.stepsLeft i = n
  induction n generalizing s with
  | zero =>
    have hb : s.busy = false := by
      by_contra hb
      obtain ⟨s', hstep⟩ := h.inv.blockStep_exists (by simpa using hb)
      have := (h.blockStep hstep).stepsLeft
      omega
    rw [State.settle_idle i (h.inv.phase_idle hb)]
    refine run_succ (n := 0) ((step_of_script hw hs).trans ?_)
    have hb' : (s.withScript []).busy = false := hb
    simp only [State.perform, hb', Bool.false_eq_true, if_false, State.transact_status hb']
    rfl
  | succ n ih =>
    have hb : s.busy = true := by
      by_contra hb
      have := h.inv.phase_idle (by simpa using hb)
      simp [State.stepsLeft, this] at hn
    obtain ⟨s', hstep⟩ := h.inv.blockStep_exists hb
    have hadv := h.blockStep hstep
    have hrun : step s = .next s' := by
      rw [step_of_script hw hs, State.perform_wait hb hs, State.runBlock, hstep]
    have hleft : s'.stepsLeft i = n := by have := hadv.stepsLeft; omega
    rw [run_succ hrun, ih hadv.onCourse (by rw [hadv.params, hw]) (by rw [hadv.script, hs]) hleft, hadv.settle]

/-- Entries of the sequencer and of the cores leave the end of the command as it is (42_transform.md R137). -/
theorem run_moves {moves : List Event} {t : State} (h : s.OnCourse i) (hw : s.params.wellFormed = true)
    (hs : s.script = moves) (hm : ∀ e ∈ moves, e = .seq ∨ ∃ js, e = .cores js)
    (hr : Host.Core.run core moves.length s = .next t) :
    t.OnCourse i ∧ t.settle i = (s.settle i).withScript [] := by
  induction moves generalizing s with
  | nil =>
    obtain rfl : s = t := Host.Outcome.next.inj hr
    exact ⟨h, (State.settle_withScript_self i hs).symm⟩
  | cons e rest ih =>
    have h0 : (s.withScript rest).OnCourse i := h.withScript rest
    obtain ⟨s', hperf, hf⟩ : ∃ s', State.perform e (s.withScript rest) = .next s' ∧
        Follows i (s.withScript rest) s' := by
      rcases hm e List.mem_cons_self with rfl | ⟨js, rfl⟩
      · refine ⟨_, rfl, ?_⟩
        cases hseq : (s.withScript rest).seqStep with
        | none => exact .refl h0
        | some s' => exact (h0.seqStep hseq).toFollows
      · exact ⟨_, rfl, h0.coreRound js⟩
    rw [List.length_cons, run_succ ((step_of_script hw hs).trans hperf)] at hr
    obtain ⟨ht, hset⟩ := ih hf.onCourse (by rw [hf.params]; exact hw) hf.script
      (fun e he => hm e (List.mem_cons_of_mem _ he)) hr
    refine ⟨ht, ?_⟩
    rw [hset, hf.settle, State.settle_withScript, State.withScript_withScript]

/-- The first step of the two levels: the write to CMD (30_encoding.md R73 step 1). -/
theorem step_command {rest : List Event} (hw : s.params.wellFormed = true) (hr : s.Ready)
    (hs : s.script = .txn (.write 0x000000000000000F#64 (encode i)) :: rest) :
    step s = .next (((s.respond Response.okay).issue i).withScript rest) := by
  have hr' : (s.withScript rest).Ready := hr
  rw [step_of_script hw hs, State.perform, State.transact_command hr']
  rfl

end Sys2Proof.Machine
end

section
/-! PROOFS. The statements that the two levels agree (O45, O46). -/

namespace Sys2Proof.Machine

/-- Settles O45: the run keeps the end of the command and takes one of its steps at a time. -/
theorem theTwoLevelsAgree : Obligations.TheTwoLevelsAgree := by
  unfold Obligations.TheTwoLevelsAgree
  intro s i hw hinv hr hsc
  have hcourse := hinv.onCourse_issue (i := i) hr
  have hstep := step_command
    (s := s.withScript [.txn (.write 0x000000000000000F#64 (encode i)), .wait]) hw hr rfl
  have hrun := run_wait (hcourse.withScript [.wait]) hw rfl
  rw [State.stepsLeft_issue, State.settle_withScript, State.withScript_withScript,
    State.settle_withScript_self (s := (s.respond Response.okay).issue i) i hsc] at hrun
  refine ⟨_, exec_eq_settle hr, ?_⟩
  rw [Nat.add_assoc, Nat.add_comm 1]
  exact (run_succ hstep).trans hrun

/-- Settles O46: every move keeps the end of the command, and in a block with BUSY = 0 the end is reached. -/
theorem everyScheduleAgreesWithExec : Obligations.EveryScheduleAgreesWithExec := by
  unfold Obligations.EveryScheduleAgreesWithExec
  intro s t i moves hw hinv hr hm hrun hb
  have hstep := step_command (s := s.withScript (.txn (.write 0x000000000000000F#64 (encode i)) :: moves)) hw hr rfl
  rw [Nat.add_comm] at hrun
  have hrun' := (run_succ hstep).symm.trans hrun
  obtain ⟨ht, hset⟩ := run_moves ((hinv.onCourse_issue (i := i) hr).withScript moves) hw rfl hm hrun'
  rw [State.settle_idle i (ht.inv.phase_idle hb), State.settle_withScript, State.withScript_withScript,
    ← State.settle_withScript] at hset
  rw [hset]
  exact exec_eq_settle (s := s.withScript []) hr

end Sys2Proof.Machine
end

section
/-! SUPPORT. Everything a step of the machine can do, as a sequence of moves, so that an invariant of `step` is a case
split over one move. -/

namespace Sys2Proof.Machine

/-- One change that a step of the machine makes: of the model's own fields, by the environment, by the host port
(20_memory.md R57 to R60), by the sequencer (30_encoding.md R73; 42_transform.md R130 to R139) or by a butterfly
core. -/
inductive Move : State → State → Prop
  | own (s : State) (r : Option Response) (sc : List Event) (d : Bool) :
      Move s { s with response := r, script := sc, devFault := d }
  | reset (s : State) : Move s s.rstAction
  | fatal (s : State) (c : FatalCode) (o : Byte) : Move s (s.takeFatal c o)
  | operands (s : State) (a0 a1 a2 a3 : Word) : s.Ready →
      Move s { s with arg0 := a0, arg1 := a1, arg2 := a2, arg3 := a3 }
  | input (s : State) (j : Nat) (v : Word) : s.Ready → j < s.params.capn → Move s { s with vin := s.vin.write j v }
  | issue (s : State) (i : Instr) : s.Ready → Move s (s.issue i)
  | check (s : State) (i : Instr) : s.busy = true → s.phase = .check → decodeOpcode s.cur = some i →
      Move s (s.checkStep i)
  | execute {s s' : State} (i : Instr) : s.busy = true → s.phase = .exec → decodeOpcode s.cur = some i →
      executeOf i s = some s' → Move s s'
  | commit (s : State) : s.busy = true → Move s s.commit
  | device (s : State) (i : Instr) (k : Kernel) : s.busy = true → decodeOpcode s.cur = some i →
      s.phase = .load ∨ s.phase = .stage ∨ s.phase = .store → kernelOf i s = some k → s.devicePending = true →
      Move s (s.takeDevice (2 ^ k.logSize))
  | load (s : State) (i : Instr) (k : Kernel) : s.busy = true → s.phase = .load → decodeOpcode s.cur = some i →
      kernelOf i s = some k → Move s (s.loadStep k)
  | barrier (s : State) : s.busy = true → s.phase = .stage → s.stageDone = true → Move s s.barrierStep
  | store (s : State) (i : Instr) (k : Kernel) : s.busy = true → s.phase = .store → s.held = .nothing →
      kernelOf i s = some k → Move s (s.storeStep k)
  | core {s s' : State} (j : Nat) : s.coreStep j = some s' → Move s s'

/-- Moves one after another. -/
abbrev Moves : State → State → Prop := Relation.ReflTransGen Move

/-! ### Every step is a sequence of moves -/

variable {s s' : State}

theorem Move.respond (s : State) (r : Response) : Move s (s.respond r) := .own s (some r) s.script s.devFault

theorem Move.withScript (s : State) (sc : List Event) : Move s (s.withScript sc) := .own s s.response sc s.devFault

/-- A step of the sequencer is one move. -/
theorem Move.of_seqStep (h : s.seqStep = some s') : Move s s' := by
  obtain ⟨hb, i, hi, hcases⟩ := State.seqStep_cases h
  rcases hcases with ⟨hp, rfl⟩ | ⟨hp, -, he⟩ | ⟨-, -, rfl⟩ | ⟨hp, k, hk, hpipe⟩
  · exact .check s i hb hp hi
  · exact .execute i hb hp hi he
  · exact .commit s hb
  · rcases State.pipelineStep_cases hpipe with ⟨hd, rfl⟩ | ⟨-, hl, rfl⟩ | ⟨-, hst, hdone, rfl⟩ | ⟨-, hst, hn, rfl⟩ |
      ⟨-, -, -, rfl⟩
    · exact .device s i k hb hi hp hk hd
    · exact .load s i k hb hl hi hk
    · exact .barrier s hb hst hdone
    · exact .store s i k hb hst hn hk
    · exact .commit s hb

theorem Move.of_blockStep (h : s.blockStep = some s') : Move s s' := by
  rcases State.blockStep_cases h with hs | ⟨j, hs⟩
  · exact .of_seqStep hs
  · exact .core j hs

/-- A legal write is one move. -/
theorem Move.of_portWrite {a v : Word} (hr : s.Ready) (h : s.portWrite a v = some s') : Move s s' := by
  rcases State.portWrite_cases h with rfl | rfl | rfl | rfl | rfl | ⟨hj, rfl⟩
  · exact .operands s v s.arg1 s.arg2 s.arg3 hr
  · exact .operands s s.arg0 v s.arg2 s.arg3 hr
  · exact .operands s s.arg0 s.arg1 v s.arg3 hr
  · exact .operands s s.arg0 s.arg1 s.arg2 v hr
  · rcases s.issueWord_cases v with ⟨i, -, he⟩ | ⟨d, -, he⟩ <;> rw [he]
    · exact .issue s i hr
    · exact .fatal s _ _
  · exact .input s _ v hr hj

theorem Moves.of_transact (s : State) (t : Txn) : Moves s (s.transact t) := by
  rcases s.transact_cases t with ⟨r, he⟩ | ⟨c, -, -, he⟩ | ⟨a, v, u, hr, -, hw, he⟩ <;> rw [he]
  · exact .single (.respond s r)
  · exact .head (.fatal s c _) (.single (.respond _ _))
  · exact .head (.of_portWrite hr hw) (.single (.respond _ _))

theorem Moves.of_busTransact (s : State) (a : BusAccess) : Moves s (s.busTransact a) := by
  unfold State.busTransact
  split
  · exact .of_transact s _
  · exact .single (.respond s _)

/-- The end of a command in flight is reached by the block's own steps (60_exceptions.md R182). -/
theorem State.OnCourse.moves_settle {i : Instr} (h : s.OnCourse i) : Moves s (s.settle i) := by
  generalize hn : s.stepsLeft i = n
  induction n generalizing s with
  | zero =>
    have hb : s.busy = false := by
      by_contra hb
      obtain ⟨s', hstep⟩ := h.inv.blockStep_exists (by simpa using hb)
      have := (h.blockStep hstep).stepsLeft
      omega
    rw [State.settle_idle i (h.inv.phase_idle hb)]
  | succ n ih =>
    cases hb : s.busy with
    | false => rw [State.settle_idle i (h.inv.phase_idle hb)]
    | true =>
      obtain ⟨s', hstep⟩ := h.inv.blockStep_exists hb
      have hadv := h.blockStep hstep
      have hleft : s'.stepsLeft i = n := by have := hadv.stepsLeft; omega
      rw [← hadv.settle]
      exact .head (.of_blockStep hstep) (ih hadv.onCourse hleft)

/-- A command at the architectural level is its issue and the steps of the micro level (00_scope.md R10). -/
theorem Moves.of_exec {i : Instr} (hinv : s.Inv) (h : exec i s = .next s') : Moves s s' := by
  by_cases hr : s.Ready
  · obtain rfl : ((s.respond Response.okay).issue i).settle i = s' := by simpa [exec_eq_settle hr] using h
    exact .head (.respond s _) (.head (.issue _ i hr) (hinv.onCourse_issue hr).moves_settle)
  · rcases exec_cases i s with ⟨-, he⟩ | ⟨-, -, he⟩ | ⟨hr', -⟩ | ⟨hr', -⟩
    · obtain rfl : s.respond Response.error = s' := by simpa [he] using h
      exact .single (.respond s _)
    · obtain rfl : (s.takeFatal .busyAccess 0#8).respond Response.error = s' := by simpa [he] using h
      exact .head (.fatal s _ _) (.single (.respond _ _))
    · exact absurd hr' hr
    · exact absurd hr' hr

theorem Moves.of_perform {e : Event} (hinv : s.Inv) (h : State.perform e s = .next s') : Moves s s' := by
  rcases State.perform_cases h with ⟨-, rfl⟩ | ⟨t, -, rfl⟩ | ⟨a, -, rfl⟩ | ⟨w, i, -, -, he⟩ | ⟨w, d, -, -, rfl⟩ |
    ⟨-, -, hs⟩ | ⟨-, -, rfl⟩ | ⟨-, rfl⟩ | ⟨js, -, rfl⟩ | ⟨-, rfl⟩
  · exact .single (.reset s)
  · exact .of_transact s t
  · exact .of_busTransact s a
  · exact .of_exec hinv he
  · exact .of_transact s _
  · exact .head (.withScript s _) (.single (.of_blockStep hs))
  · exact .of_transact s _
  · cases hs : s.seqStep with
    | none => exact .refl
    | some u => exact .single (.of_seqStep hs)
  · exact State.coreRound_induct (p := Moves s) js .refl fun u j u' hu hstep => hu.tail (.core j hstep)
  · exact .single (.own s s.response s.script _)

theorem Moves.of_step (hinv : s.Inv) (h : step s = .next s') : Moves s s' := by
  obtain ⟨-, ⟨-, -, rfl⟩ | ⟨-, -, hs⟩ | ⟨e, rest, -, hp⟩⟩ := step_cases h
  · exact .refl
  · exact .single (.of_blockStep hs)
  · exact .head (.withScript s rest) (Moves.of_perform (hinv.withScript rest) hp)

/-! ### What every move keeps -/

/-- No move changes the parameters (10_state.md R27, R28). -/
theorem Move.params (h : Move s s') : s'.params = s.params := by
  cases h with
  | own | reset | operands | input | issue | device | load | barrier | store => rfl
  | fatal => simp
  | check i hb hp hi =>
    unfold State.checkStep
    split
    · rename_i r _
      cases r <;> simp [State.raise]
    · rfl
  | execute i hb hp hi he =>
    obtain ⟨hf, -⟩ := executeOf_frame he
    rw [hf]
  | commit => simp [State.commit]
  | core j hc =>
    obtain ⟨-, -, -, -, -, k, -, -, rfl⟩ := State.coreStep_cases hc
    simp [State.butterfly]

/-- The vector that a transform holds for its commit fits VOUT (42_transform.md R138). -/
theorem State.Inv.vector_fits (h : s.Inv) (hb : s.busy = true) {out : List Word} (ho : s.held = .vector out) :
    out.length ≤ s.params.capn := by
  obtain ⟨i, -, hseq⟩ := h.inFlight hb
  cases hp : s.phase with
  | idle | check | load | stage => simp [State.sequencing, hp, ho] at hseq
  | exec =>
    simp only [State.sequencing, hp, ho, reduceCtorEq, false_or] at hseq
    obtain ⟨-, -, u, hu, hheld⟩ := hseq
    exact absurd hheld.symm ((executeOf_held hu).2 out)
  | store =>
    simp only [State.sequencing, hp, ho, reduceCtorEq, false_or, Held.vector.injEq] at hseq
    obtain ⟨hc, ⟨k, hk, hl⟩, -, -, out', rfl, hlen⟩ := hseq
    rw [hlen, hl]
    exact kernel_size_le hc hk

/-- While a transform is in flight past its check, the check's conditions still hold (10_state.md R26). -/
theorem State.Inv.check_passed (h : s.Inv) (hb : s.busy = true) {i : Instr} (hi : decodeOpcode s.cur = some i)
    (hp : s.phase = .load ∨ s.phase = .stage ∨ s.phase = .store) : checkOf i s = none := by
  obtain ⟨i', hi', hseq⟩ := h.inFlight hb
  obtain rfl : i = i' := by simpa [hi] using hi'
  rcases hp with hp | hp | hp <;> simp only [State.sequencing, hp] at hseq
  · obtain ⟨-, hc, -⟩ := hseq
    exact hc
  · obtain ⟨-, hc, -⟩ := hseq
    exact hc
  · obtain ⟨hc, -⟩ := hseq
    exact hc

/-- Every reset state meets the structural invariant (10_state.md R39). -/
theorem State.resetOf_inv (c : Params) (d : Nat) : (State.resetOf c d).Inv := by
  refine State.Inv.of_idle ?_ rfl (bundlesUnspecified_length _ _) rfl rfl (by simp [State.resetOf])
    (by simp [State.resetOf])
  rw [State.memoriesWf_iff]
  refine ⟨rfl, rfl, rfl, rfl, fun b hb => ?_⟩
  obtain ⟨e, rfl⟩ := mem_bundlesUnspecified hb
  rfl

/-- A host write to a ready block keeps the structural invariant. -/
theorem State.Inv.of_ready (h : s.Inv) (hr : s.Ready) {m : Memory} (hw : m.wf = true)
    (hb : m.below s.params.capn = true) (a0 a1 a2 a3 : Word) :
    State.Inv { s with arg0 := a0, arg1 := a1, arg2 := a2, arg3 := a3, vin := m } := by
  have hwf := (State.memoriesWf_iff s).mp h.canonical
  have hbelow := (State.memoriesBelow_iff s).mp h.bounded
  refine State.Inv.of_idle ?_ ?_ h.registry hr.1 (h.phase_idle hr.1) h.doneAlone fun hf => (h.faultAlone hf).2
  · exact (State.memoriesWf_iff _).mpr ⟨hw, hwf.2⟩
  · exact (State.memoriesBelow_iff _).mpr ⟨hb, hbelow.2⟩

/-- Every move keeps the structural invariant. -/
theorem Move.inv (hm : Move s s') (h : s.Inv) : s'.Inv := by
  have hw := (State.memoriesWf_iff s).mp h.canonical
  have hbelow := (State.memoriesBelow_iff s).mp h.bounded
  cases hm with
  | own r sc d => exact h.own_fields r sc d s.draws
  | reset => exact (State.resetOf_inv s.params s.draws).withScript s.script
  | fatal c o => exact h.takeFatal c o
  | operands a0 a1 a2 a3 hr => exact h.of_ready hr hw.1 hbelow.1 a0 a1 a2 a3
  | input j v hr hj =>
    exact h.of_ready hr (Memory.write_wf hw.1 j v) (Memory.write_below hbelow.1 hj v) s.arg0 s.arg1 s.arg2 s.arg3
  | issue i hr => exact h.issue hr.2 i
  | check i hb hp hi => exact h.checkStep hb hi hp
  | execute i hb hp hi he => exact h.executeStep hb hi hp he
  | commit hb =>
    exact State.Inv.commit h.canonical h.bounded h.registry (h.busyAlone hb).2 (h.fault_of_busy hb)
      fun _ => h.vector_fits hb
  | device i k hb hi hp hk => exact h.takeDevice (kernel_size_le (h.check_passed hb hi hp) hk)
  | load i k hb hp hi hk => exact h.loadStep hb hi hp hk
  | barrier hb hp => exact h.barrierStep hb hp
  | store i k hb hp => exact h.storeStep hb hp k
  | core j hc => exact h.coreStep hc

theorem Moves.inv (hm : Moves s s') (h : s.Inv) : s'.Inv := by
  induction hm with
  | refl => exact h
  | tail _ hm ih => exact hm.inv ih

/-- What every move keeps under conforming parameters and the structural invariant, every step keeps. -/
theorem step_keeps {p : State → Prop}
    (hp : ∀ u u' : State, u.params.Conforms → u.Inv → p u → Move u u' → p u')
    (hinv : s.Inv) (h : p s) (hstep : step s = .next s') : p s' := by
  have hc : s.params.Conforms := Params.wellFormed_iff.mp (step_cases hstep).1
  have hmoves := Moves.of_step hinv hstep
  clear hstep
  have hall : s'.params.Conforms ∧ s'.Inv ∧ p s' := by
    induction hmoves with
    | refl => exact ⟨hc, hinv, h⟩
    | tail _ hm ih =>
      obtain ⟨hc, hinv, h⟩ := ih
      exact ⟨hm.params ▸ hc, hm.inv hinv, hp _ _ hc hinv h hm⟩
  exact hall.2.2

end Sys2Proof.Machine
end

section
/-! PROOFS. The structural invariant is kept by every step (O48). -/

namespace Sys2Proof.Machine

/-- Settles O48: a step is a sequence of moves, and every move keeps the invariant. -/
theorem stepKeepsInv : Obligations.StepKeepsInv := by
  unfold Obligations.StepKeepsInv
  exact fun s s' hinv hstep => (Moves.of_step hinv hstep).inv hinv

end Sys2Proof.Machine
end

section
/-! SUPPORT. The bundles through a move (10_state.md R37, R40 b; 41_twiddle_init.md R110 to R118). -/

namespace Sys2Proof.Machine

variable {s s' : State}

/-- INIT computes the values of R110 to R115. -/
theorem Bundle.generate_holds (c : Params) (k : Nat) (b : Bundle) : (b.generate c k).Holds c k where
  root := rfl
  rootinv := rfl
  ninv := rfl
  twf := fun _ hj => Memory.read_writeFrom_range _ _ hj
  twi := fun _ hj => Memory.read_writeFrom_range _ _ hj
  brev := fun _ hi => Memory.read_writeFrom_range _ _ hi

/-- The values of a bundle do not include its VALID bit. -/
theorem Bundle.Holds.validate {c : Params} {k : Nat} {b : Bundle} (h : b.Holds c k) :
    Bundle.Holds c k { b with valid := true } :=
  ⟨h.root, h.rootinv, h.ninv, h.twf, h.twi, h.brev⟩

theorem getElem?_modify_eq_some {bs : List Bundle} {f : Bundle → Bundle} {j k : Nat} {b : Bundle}
    (h : (bs.modify j f)[k]? = some b) : ∃ a, bs[k]? = some a ∧ b = if j = k then f a else a := by
  rw [List.getElem?_modify] at h
  obtain ⟨a, ha, hb⟩ := Option.map_eq_some_iff.mp h
  exact ⟨a, ha, hb.symm⟩

theorem bundlesUnspecified_invalid {n d k : Nat} {b : Bundle} (h : (bundlesUnspecified n d)[k]? = some b) :
    b.valid = false := by
  obtain ⟨e, rfl⟩ := mem_bundlesUnspecified (List.mem_of_getElem? h)
  rfl

/-- Only INIT computes a bundle or holds one for its VALID bit. -/
theorem executeOf_bundles {i : Instr} {u : State} (h : executeOf i s = some u) :
    (u.bundles = s.bundles ∧ ∀ k, u.held ≠ .validate k) ∨ u = executeInit s := by
  cases i <;> simp [executeOf] at h <;> subst h <;>
    simp [executeFadd, executeFsub, executeFmul, executeMulw, executeFred, executeFinv, executeTeardown]

/-- A state with no valid bundle and none that waits for its VALID bit. -/
theorem State.BundlesInv.of_invalid (h : ∀ (k : Nat) (b : Bundle), s.bundles[k]? = some b → b.valid = false)
    (hh : ∀ k, s.held ≠ .validate k) : s.BundlesInv :=
  fun _ => ⟨fun k b hb hv => absurd ((h k b hb).symm.trans hv) (by simp), fun k _ hk => absurd hk (hh k)⟩

/-- The invariant reads FAULT, the parameters, the registry and the bundle that waits for its VALID bit. -/
theorem State.BundlesInv.congr (h : s.BundlesInv) (hf : s'.fault = false → s.fault = false)
    (hp : s'.params = s.params) (hb : s'.bundles = s.bundles)
    (hh : ∀ k, s'.held = .validate k → s.held = .validate k) : s'.BundlesInv := by
  intro hfault
  obtain ⟨hvalid, hwait⟩ := h (hf hfault)
  rw [hp, hb]
  exact ⟨hvalid, fun k b hk => hwait k b (hh k hk)⟩

theorem State.resetOf_bundlesInv (c : Params) (d : Nat) : (State.resetOf c d).BundlesInv :=
  .of_invalid (fun _ _ => bundlesUnspecified_invalid) (by simp [State.resetOf])

/-- In a state with FAULT = 1 nothing is claimed of the bundles (60_exceptions.md R174). -/
theorem State.BundlesInv.takeFatal (s : State) (c : FatalCode) (o : Byte) : (s.takeFatal c o).BundlesInv :=
  fun hf => by simp at hf

/-- The check step (30_encoding.md R73 step 2). -/
theorem State.BundlesInv.checkStep (h : s.BundlesInv) (hf : s.fault = false) (i : Instr) :
    (s.checkStep i).BundlesInv := by
  unfold State.checkStep
  split
  · rename_i r _
    cases r with
    | fatal c => exact .takeFatal s c _
    | fail c => exact h.congr (fun _ => hf) rfl rfl (by simp [State.raise])
  · exact h.congr (fun _ => hf) rfl rfl fun _ hk => hk

/-- INIT computes bundle `log2 n` and leaves every other bundle alone (41_twiddle_init.md R116). -/
theorem State.BundlesInv.executeInit (h : s.BundlesInv) (hf : s.fault = false) : (executeInit s).BundlesInv := by
  have hcomputed (k : Nat) (b : Bundle) (hb : (Machine.executeInit s).bundles[k]? = some b) :
      (Nat.log2 s.opN = k ∧ b.Holds s.params k) ∨ s.bundles[k]? = some b := by
    obtain ⟨a, ha, rfl⟩ := getElem?_modify_eq_some hb
    by_cases hk : Nat.log2 s.opN = k
    · rw [if_pos hk, hk]
      exact .inl ⟨rfl, Bundle.generate_holds _ _ _⟩
    · rw [if_neg hk]
      exact .inr ha
  refine fun _ => ⟨fun k b hb hv => ?_, fun k b hk hb => ?_⟩
  · rcases hcomputed k b hb with ⟨-, hholds⟩ | hsame
    · exact hholds
    · exact (h hf).1 k b hsame hv
  · obtain rfl : Nat.log2 s.opN = k := Held.validate.inj hk
    obtain ⟨a, -, rfl⟩ := getElem?_modify_eq_some hb
    rw [if_pos rfl]
    exact Bundle.generate_holds _ _ _

/-- The commit step sets the VALID bit of a bundle that holds its values, or clears every VALID bit (R116, R118). -/
theorem State.BundlesInv.commit (h : s.BundlesInv) (hf : s.fault = false) : s.commit.BundlesInv := by
  obtain ⟨hvalid, hwait⟩ := h hf
  cases hh : s.held with
  | nothing | scalar | wide | vector =>
    exact h.congr (fun _ => hf) (by simp [State.commit]) (by simp [State.commit, State.writeResult, hh])
      (by simp [State.commit])
  | invalidate =>
    refine .of_invalid (fun k b hb => ?_) (by simp [State.commit])
    simp only [State.commit, State.writeResult, hh, State.finish_bundles] at hb
    exact bundlesUnspecified_invalid hb
  | validate j =>
    refine fun _ => ⟨fun k b hb hv => ?_, by simp [State.commit]⟩
    simp only [State.commit, State.writeResult, hh, State.finish_bundles] at hb
    obtain ⟨a, ha, rfl⟩ := getElem?_modify_eq_some hb
    simp only [State.commit, State.finish_params, State.writeResult_params]
    split
    · subst j
      exact (hwait k a hh ha).validate
    · rename_i hne
      exact hvalid k a ha (by simpa [hne] using hv)

/-- Every move keeps each valid bundle at its values. -/
theorem Move.bundlesInv (hm : Move s s') (hinv : s.Inv) (h : s.BundlesInv) : s'.BundlesInv := by
  cases hm with
  | own | operands | input => exact h.congr id rfl rfl fun _ hk => hk
  | reset => exact (State.resetOf_bundlesInv s.params s.draws).congr id rfl rfl fun _ hk => hk
  | fatal c o => exact .takeFatal s c o
  | issue => exact h.congr id rfl rfl (by simp)
  | check i hb => exact h.checkStep (hinv.fault_of_busy hb) i
  | execute i hb hp hi he =>
    have hf := hinv.fault_of_busy hb
    rcases executeOf_bundles he with ⟨hbundles, hheld⟩ | rfl
    · obtain ⟨hframe, -⟩ := executeOf_frame he
      exact h.congr (fun _ => hf) (by rw [hframe]) hbundles fun k hk => absurd hk (hheld k)
    · exact h.executeInit hf
  | commit hb => exact h.commit (hinv.fault_of_busy hb)
  | device i k hb => exact h.congr (fun _ => hinv.fault_of_busy hb) rfl rfl (by simp [State.takeDevice])
  | load | barrier => exact h.congr id rfl rfl fun _ hk => hk
  | store => exact h.congr id rfl rfl (by simp [State.storeStep])
  | core j hc =>
    obtain ⟨-, -, -, -, -, k, -, -, rfl⟩ := State.coreStep_cases hc
    exact h.congr (by simp [State.butterfly]) (by simp [State.butterfly]) (by simp [State.butterfly])
      (by simp [State.butterfly])

end Sys2Proof.Machine
end

section
/-! PROOFS. Every step keeps each valid bundle at its values (O49). -/

namespace Sys2Proof.Machine

/-- Settles O49: every move keeps the bundles' values; INIT computes them before it validates. -/
theorem stepKeepsBundles : Obligations.StepKeepsBundles := by
  unfold Obligations.StepKeepsBundles
  exact fun s s' hinv h hstep => step_keeps (fun _ _ _ hinv h hm => hm.bundlesInv hinv h) hinv h hstep

end Sys2Proof.Machine
end

section
/-! SUPPORT. The words of a transform through a move, all reduced (10_state.md R40 a; 42_transform.md R136 d). -/

namespace Sys2Proof.Machine

variable {s s' : State} {i : Instr} {k : Kernel}

/-! ### What a transform feeds the pipeline, and what it makes of the last stage -/

/-- The input map of a transform whose check has passed gives reduced words (42_transform.md R129, R131; 43_coset.md
R152, R155). -/
theorem kernelOf_pre_lt (hp : s.params.Conforms) (hc : checkOf i s = none) (hk : kernelOf i s = some k) {j : Nat}
    (hj : j < 2 ^ k.logSize) : (k.pre j).toNat < s.modulus := by
  have hP : 0 < s.modulus := hp.prime.pos
  cases i <;> simp [kernelOf] at hk <;> subst hk
  case ntt =>
    simp only [checkOf, checkNtt, orElseCheck_eq_none, checkPow2_eq_none, State.checkInput_eq_none] at hc
    obtain ⟨hn, -, hin⟩ := hc
    exact hin j (ispow2_eq hn ▸ hj)
  case intt =>
    simp only [checkOf, checkIntt, orElseCheck_eq_none, checkPow2_eq_none, State.checkInput_eq_none] at hc
    obtain ⟨hn, -, hin⟩ := hc
    exact hin j (ispow2_eq hn ▸ hj)
  case inttc =>
    simp only [checkOf, checkInttc, orElseCheck_eq_none, checkPow2_eq_none, State.checkInput_eq_none] at hc
    obtain ⟨hn, -, -, hin⟩ := hc
    exact hin j (ispow2_eq hn ▸ hj)
  case nttc =>
    simp only [kernelNttc]
    split
    · exact fmul_lt hP s.params.p.isLt _ _
    · exact hP

/-- The output map of a transform keeps words reduced (42_transform.md R138). -/
theorem kernelOf_post_lt (hp : s.params.Conforms) (hk : kernelOf i s = some k) (j : Nat) {v : Word}
    (hv : v.toNat < s.modulus) : (k.post j v).toNat < s.modulus := by
  have hP : 0 < s.modulus := hp.prime.pos
  have hmul (a b : Word) : (fmul s.modulus a b).toNat < s.modulus := fmul_lt hP s.params.p.isLt a b
  cases i <;> simp [kernelOf] at hk <;> subst hk
  case ntt | nttc => exact hv
  case intt | inttc => exact hmul _ _

/-! ### The parts of the invariant -/

/-- Every listed cell of a memory is reduced. -/
def Memory.ListedReduced (P : Nat) (m : Memory) : Prop := ∀ x v, cellsGet m.cells x = some v → v.toNat < P

theorem Memory.ListedReduced.writeFrom {P : Nat} {m : Memory} (h : m.ListedReduced P) {vs : List Word}
    (hvs : ∀ v ∈ vs, v.toNat < P) (x : Nat) : (m.writeFrom x vs).ListedReduced P := by
  intro y v hv
  rw [Memory.get_writeFrom] at hv
  split at hv
  · exact hvs v (List.mem_of_getElem? hv)
  · exact h y v hv

/-- The first `n` cells of a memory are reduced. -/
def Memory.FirstReduced (P n : Nat) (m : Memory) : Prop := ∀ x, x < n → (m.read x).toNat < P

/-- A stage has a reduced source, and its done butterflies have left reduced words (42_transform.md R136 d). -/
def State.StageReduced (s : State) : Prop :=
  s.src.FirstReduced s.modulus (2 ^ s.l) ∧
    ∀ j ∈ s.doneset, (s.dst.read j).toNat < s.modulus ∧ (s.dst.read (j + 2 ^ s.l / 2)).toNat < s.modulus

/-- The words that the block will commit to VOUT are reduced. -/
structure State.FlightReduced (s : State) : Prop where
  stage : s.busy = true → s.phase = .stage → s.StageReduced
  store : s.busy = true → s.phase = .store → s.held = .nothing → s.src.FirstReduced s.modulus (2 ^ s.l)
  held : ∀ out, s.held = .vector out → ∀ v ∈ out, v.toNat < s.modulus

theorem State.reducedInv_iff (s : State) : s.ReducedInv ↔
    (s.params.devfail = false → s.vout.ListedReduced s.modulus ∧ s.FlightReduced) :=
  ⟨fun h hd => let ⟨hv, hst, hso, hh⟩ := h hd; ⟨hv, hst, hso, hh⟩,
    fun h hd => let ⟨hv, hst, hso, hh⟩ := h hd; ⟨hv, hst, hso, hh⟩⟩

/-- Outside STAGE and STORE only a held vector is in flight. -/
theorem State.FlightReduced.of_phase (hp : s.phase ≠ .stage ∧ s.phase ≠ .store)
    (hh : ∀ out, s.held = .vector out → ∀ v ∈ out, v.toNat < s.modulus) : s.FlightReduced :=
  ⟨fun _ h => absurd h hp.1, fun _ h => absurd h hp.2, hh⟩

/-- Outside STAGE and STORE, with no result held, nothing is in flight. -/
theorem State.FlightReduced.of_nothing (hp : s.phase ≠ .stage ∧ s.phase ≠ .store) (hh : s.held = .nothing) :
    s.FlightReduced :=
  .of_phase hp (by simp [hh])

/-! ### Moves of the pipeline -/

/-- The load step gives the pipeline a reduced source (42_transform.md R131). -/
theorem State.FlightReduced.loadStep (h : s.FlightReduced) (hp : s.params.Conforms) (hc : checkOf i s = none)
    (hk : kernelOf i s = some k) : (s.loadStep k).FlightReduced := by
  have hsrc : (s.loadStep k).src.FirstReduced s.modulus (2 ^ k.logSize) := by
    intro x hx
    have hread : (s.loadStep k).src.read x = k.pre x := Memory.read_writeFrom_range _ _ hx
    rw [hread]
    exact kernelOf_pre_lt hp hc hk hx
  exact ⟨fun _ _ => ⟨hsrc, by simp⟩, fun _ _ _ => hsrc, h.held⟩

/-- A butterfly leaves reduced words in its two cells and leaves the others alone (42_transform.md R133). -/
theorem State.StageReduced.butterfly (h : s.StageReduced) (hp : s.params.Conforms) (ht : s.t < s.l) (inv : Bool)
    {j : Nat} (hj : j < 2 ^ s.l / 2) : (s.butterfly inv j).StageReduced := by
  obtain ⟨hsrc, hdst⟩ := h
  have hl : (s.butterfly inv j).l = s.l := by simp [State.butterfly]
  have hm : (s.butterfly inv j).modulus = s.modulus := by simp [State.butterfly, State.modulus]
  have hvalue (x : Nat) (hx : x < 2 ^ s.l) : (s.stageValue inv x).toNat < s.modulus :=
    stageCell_lt hp.prime.pos s.params.p.isLt hsrc hx ht
  have hcell (x : Nat) (hx : x ≠ j → x ≠ j + 2 ^ s.l / 2 → (s.dst.read x).toNat < s.modulus) :
      ((s.butterfly inv j).dst.read x).toNat < s.modulus := by
    rw [State.butterfly_dst s inv hj]
    by_cases hhi : x = j + 2 ^ s.l / 2
    · rw [hhi, Memory.read_write_same]
      exact hvalue _ (by omega)
    · rw [Memory.read_write_other _ hhi]
      by_cases hlo : x = j
      · rw [hlo, Memory.read_write_same]
        exact hvalue _ (by omega)
      · rw [Memory.read_write_other _ hlo]
        exact hx hlo hhi
  refine ⟨?_, fun x hx => ?_⟩
  · rw [hl, hm]
    exact (State.setDst_src s _).symm ▸ hsrc
  · rw [hl, hm]
    have hold (hne : x ≠ j) := hdst x ((mem_insertIndex.mp hx).resolve_left hne)
    exact ⟨hcell x fun hne _ => (hold hne).1, hcell _ fun _ hne => (hold (by omega)).2⟩

/-- A done stage has left its reduced words in every cell (42_transform.md R135). -/
theorem State.StageReduced.dst_reduced (h : s.StageReduced) (ht : s.t < s.l) (hd : s.stageDone = true) :
    s.dst.FirstReduced s.modulus (2 ^ s.l) := by
  have hall : s.doneset = List.range (2 ^ s.l / 2) := by simpa [State.stageDone] using hd
  intro x hx
  have hown : owner s.l x ∈ s.doneset := by
    rw [hall, List.mem_range]
    exact stage_owner_lt (by omega) hx
  rcases eq_of_owner_eq (L := s.l) (x := x) rfl with hlo | hhi
  · rw [hlo]; exact (h.2 _ hown).1
  · rw [hhi]; exact (h.2 _ hown).2

/-- The barrier makes the destination of a done stage the source (42_transform.md R135). -/
theorem State.FlightReduced.barrierStep (h : s.FlightReduced) (hb : s.busy = true) (hp : s.phase = .stage)
    (ht : s.t < s.l) (hd : s.stageDone = true) : s.barrierStep.FlightReduced := by
  have hsrc : s.barrierStep.src.FirstReduced s.modulus (2 ^ s.l) := by
    rw [State.barrierStep_src]
    exact (h.stage hb hp).dst_reduced ht hd
  exact ⟨fun _ _ => ⟨hsrc, by simp⟩, fun _ _ _ => hsrc, h.held⟩

/-- The store step holds reduced words (42_transform.md R138). -/
theorem State.FlightReduced.storeStep (h : s.src.FirstReduced s.modulus (2 ^ s.l)) (hp : s.params.Conforms)
    (hph : s.phase = .store) (hk : kernelOf i s = some k) : (s.storeStep k).FlightReduced := by
  refine ⟨fun _ hst => absurd (hph.symm.trans hst) (by simp), fun _ _ hn => absurd hn (by simp [State.storeStep]), ?_⟩
  intro out hout v hv
  obtain rfl := Held.vector.inj hout
  obtain ⟨x, hx, rfl⟩ := List.mem_map.mp hv
  exact kernelOf_post_lt hp hk x (h x (List.mem_range.mp hx))

theorem State.FlightReduced.takeFatal (h : s.FlightReduced) (c : FatalCode) (o : Byte) :
    (s.takeFatal c o).FlightReduced := by
  cases hf : s.fault
  · rw [State.takeFatal_eq s hf]
    exact .of_nothing (by simp) rfl
  · rw [State.takeFatal_of_fault s hf]
    exact h

theorem State.FlightReduced.checkStep (h : s.FlightReduced) (i : Instr) : (s.checkStep i).FlightReduced := by
  unfold State.checkStep
  split
  · rename_i r _
    cases r with
    | fatal c => exact h.takeFatal c _
    | fail c => exact .of_nothing (by simp [State.raise]) rfl
  · exact .of_phase (by cases i <;> simp [phaseAfterCheck]) h.held

/-! ### Every move -/

/-- The check step leaves VOUT alone (60_exceptions.md R174 to R176). -/
theorem State.checkStep_vout (s : State) (i : Instr) : (s.checkStep i).vout = s.vout := by
  unfold State.checkStep
  split
  · rename_i r _
    cases r <;> simp [State.raise]
  · rfl

/-- What the commit step writes to VOUT is reduced (42_transform.md R139). -/
theorem State.FlightReduced.commit_vout (h : s.FlightReduced) (hv : s.vout.ListedReduced s.modulus) :
    s.commit.vout.ListedReduced s.modulus := by
  simp only [State.commit, State.finish_vout, State.writeResult]
  split
  case h_4 out hout => exact hv.writeFrom (h.held out hout) 0
  all_goals exact hv

/-- A stage that is not yet left has its number below `L` (42_transform.md R135). -/
theorem State.Inv.stage_lt (h : s.Inv) (hb : s.busy = true) (hp : s.phase = .stage) : s.t < s.l := by
  obtain ⟨i, -, hseq⟩ := h.inFlight hb
  simp only [State.sequencing, hp] at hseq
  obtain ⟨-, -, -, ht, -⟩ := hseq
  exact ht

theorem State.resetOf_reducedInv (c : Params) (d : Nat) : (State.resetOf c d).ReducedInv :=
  (State.reducedInv_iff _).mpr fun _ =>
    ⟨fun x v hv => by simp [State.resetOf, cellsGet] at hv, .of_nothing (by simp [State.resetOf]) rfl⟩

/-- Every move keeps VOUT and what is in flight reduced. -/
theorem Move.reducedInv (hm : Move s s') (hp : s.params.Conforms) (hinv : s.Inv) (h : s.ReducedInv) :
    s'.ReducedInv := by
  rw [State.reducedInv_iff] at h ⊢
  intro hd
  rw [hm.params] at hd
  obtain ⟨hv, hflight⟩ := h hd
  cases hm with
  | own | operands | input => exact ⟨hv, hflight.stage, hflight.store, hflight.held⟩
  | reset =>
    obtain ⟨hv', hst, hso, hheld⟩ := State.resetOf_reducedInv s.params s.draws hd
    exact ⟨hv', hst, hso, hheld⟩
  | fatal c o => exact ⟨by simpa [State.modulus] using hv, hflight.takeFatal c o⟩
  | issue i => exact ⟨hv, .of_nothing (by simp) rfl⟩
  | check i hb hph hi =>
    have hm : (s.checkStep i).modulus = s.modulus := congrArg Params.modulus (Move.check s i hb hph hi).params
    exact ⟨by rw [State.checkStep_vout, hm]; exact hv, hflight.checkStep i⟩
  | execute i hb hph hi he =>
    obtain ⟨hframe, -⟩ := executeOf_frame he
    obtain ⟨-, hheld⟩ := executeOf_held he
    have hph' : s'.phase = .exec := by rw [hframe]; exact hph
    refine ⟨?_, .of_phase (by simp [hph']) fun out hout => absurd hout (hheld out)⟩
    rw [hframe]
    exact hv
  | commit =>
    exact ⟨by simpa [State.modulus, State.commit] using hflight.commit_vout hv,
      .of_nothing (by simp [State.commit]) rfl⟩
  | device i k hb hi hph hk hdev => simp [State.devicePending, hd] at hdev
  | load i k hb hph hi hk => exact ⟨hv, hflight.loadStep hp (hinv.check_passed hb hi (.inl hph)) hk⟩
  | barrier hb hph hdone => exact ⟨hv, hflight.barrierStep hb hph (hinv.stage_lt hb hph) hdone⟩
  | store i k hb hph hn hk => exact ⟨hv, .storeStep (hflight.store hb hph hn) hp hph hk⟩
  | core j hc =>
    obtain ⟨hb, hph, hj, -, i, k, -, -, rfl⟩ := State.coreStep_cases hc
    have hst := (hflight.stage hb hph).butterfly hp (hinv.stage_lt hb hph) k.inverse hj
    have hph' : (s.butterfly k.inverse j).phase = .stage := by simp [State.butterfly, hph]
    refine ⟨by simpa [State.modulus, State.butterfly] using hv, fun _ _ => hst, by simp [hph'], ?_⟩
    simpa [State.butterfly, State.modulus] using hflight.held

end Sys2Proof.Machine
end

section
/-! PROOFS. Every step keeps the written cells of VOUT reduced (O50). -/

namespace Sys2Proof.Machine

/-- Settles O50: every move keeps reduced what is in VOUT and what a transform in flight will commit. -/
theorem stepKeepsResultsReduced : Obligations.StepKeepsResultsReduced := by
  unfold Obligations.StepKeepsResultsReduced
  exact fun s s' _ hinv h hstep => step_keeps (fun _ _ hp hinv h hm => hm.reducedInv hp hinv h) hinv h hstep

end Sys2Proof.Machine
end

section
/-! SUPPORT. The bits of STATUS, VALID and CAP (10_state.md R23, R25, R27). -/

namespace Sys2Proof

/-- A field above `w` bits contributes its value times `2^w`. -/
theorem toNat_append_eq_add {v w : Nat} (x : BitVec v) (y : BitVec w) :
    (x ++ y).toNat = 2 ^ w * x.toNat + y.toNat := by
  rw [BitVec.toNat_append, ← Nat.shiftLeft_add_eq_or_of_lt y.isLt, Nat.shiftLeft_eq, Nat.mul_comm]

theorem two_pow_twoAdicityUpTo_dvd (fuel n : Nat) : 2 ^ twoAdicityUpTo fuel n ∣ n := by
  induction fuel generalizing n with
  | zero => simp [twoAdicityUpTo]
  | succ fuel ih =>
    rw [twoAdicityUpTo]
    split
    · have := Nat.mul_dvd_mul_left 2 (ih (n / 2))
      rwa [Nat.mul_div_cancel' (by omega), ← pow_succ'] at this
    · simp

/-- `S` fits the six bits of its field (00_scope.md R6; 10_state.md R27). -/
theorem Params.twoAdicity_lt {c : Params} (h : 1 < c.modulus) : c.twoAdicity < 64 := by
  have hle := Nat.le_of_dvd (by omega) (two_pow_twoAdicityUpTo_dvd 64 (c.modulus - 1))
  exact (Nat.pow_lt_pow_iff_right (by omega)).mp (lt_of_le_of_lt hle (lt_of_le_of_lt (Nat.sub_le _ _) c.p.isLt))

/-- CAP as a number: its fields stand side by side (10_state.md R27). -/
theorem Params.capWord_toNat {c : Params} (h : c.wellFormed = true) :
    c.capWord.toNat = c.lognMax + 2 ^ 8 * c.twoAdicity + 2 ^ 16 * c.lanes := by
  obtain ⟨hlarge, -, -, -, -, hsize, -, hlanes⟩ := Params.bounds h
  have hS := Params.twoAdicity_lt (c := c) (by omega)
  simp only [Params.capWord, toNat_append_eq_add, BitVec.toNat_ofNat]
  rw [Nat.mod_eq_of_lt (show c.lanes < 2 ^ 16 by omega), Nat.mod_eq_of_lt (show c.twoAdicity < 2 ^ 6 by omega),
    Nat.mod_eq_of_lt (show c.lognMax < 2 ^ 6 by omega)]
  omega

namespace Machine

/-- Bit `k` of the number of a registry is the VALID bit of its bundle `k`. -/
theorem testBit_validBits (bs : List Bundle) (k : Nat) :
    (validBits bs).testBit k = (bs[k]?.map Bundle.valid).getD false := by
  induction bs generalizing k with
  | nil => simp [validBits]
  | cons b bs ih =>
    cases k with
    | zero => cases hb : b.valid <;> simp [validBits, hb, Nat.testBit_zero]
    | succ k =>
      have hhalf : validBits (b :: bs) / 2 = validBits bs := by
        rw [validBits]
        split <;> omega
      rw [Nat.testBit_succ, hhalf, ih, List.getElem?_cons_succ]

/-- Bit `k` of VALID is `VALID[k]` (10_state.md R25). -/
theorem State.validWord_getLsbD (s : State) {k : Nat} (hk : k < 64) : s.validWord.getLsbD k = s.validBit k := by
  simp only [State.validWord, BitVec.getLsbD_ofNat, hk, decide_true, Bool.true_and, testBit_validBits,
    State.validBit]
  cases s.bundles[k]? <;> rfl

/-- The bits of STATUS, and no bit above them (10_state.md R23). -/
theorem State.statusWord_bits (s : State) : s.statusWord.getLsbD 0 = s.busy ∧ s.statusWord.getLsbD 1 = s.done ∧
    s.statusWord.getLsbD 2 = s.fail ∧ s.statusWord.getLsbD 3 = s.fault ∧ s.statusWord.toNat < 16 := by
  unfold State.statusWord
  generalize s.busy = b, s.done = d, s.fail = f, s.fault = x
  revert b d f x
  decide

end Machine

end Sys2Proof
end

section
/-! SUPPORT. What a command changes, and what it leaves alone (10_state.md R21, R22, R30, R31; 60_exceptions.md
R176). -/

namespace Sys2Proof.Machine

variable {i : Instr} {s t : State}

/-- From `s` to `t` the command `i` changes no more than it may. -/
structure CommandKept (i : Instr) (s t : State) : Prop where
  params : t.params = s.params
  arg0 : t.arg0 = s.arg0
  arg1 : t.arg1 = s.arg1
  arg2 : t.arg2 = s.arg2
  arg3 : t.arg3 = s.arg3
  vin : t.vin = s.vin
  script : t.script = s.script
  res0 : i ≠ .fadd → i ≠ .fsub → i ≠ .fmul → i ≠ .mulw → i ≠ .fred → i ≠ .finv → t.res0 = s.res0
  res1 : i ≠ .mulw → t.res1 = s.res1
  validBits : i ≠ .init → i ≠ .teardown → t.bundles.map Bundle.valid = s.bundles.map Bundle.valid
  vout : kernelOf i s = none → t.vout = s.vout
  outside : ∀ k, kernelOf i s = some k → ∀ j, 2 ^ k.logSize ≤ j → t.vout.read j = s.vout.read j
  notDone : t.done = false → t.res0 = s.res0 ∧ t.res1 = s.res1 ∧
    t.bundles.map Bundle.valid = s.bundles.map Bundle.valid

/-- A command that changes nothing the host sees but STATUS and ERR (60_exceptions.md R176). -/
theorem CommandKept.of_kept (h : HostVisibleKept s t) (hs : t.script = s.script) : CommandKept i s t where
  params := h.params
  arg0 := h.arg0
  arg1 := h.arg1
  arg2 := h.arg2
  arg3 := h.arg3
  vin := h.vin
  script := hs
  res0 := fun _ _ _ _ _ _ => h.res0
  res1 := fun _ => h.res1
  validBits := fun _ _ => h.validBits
  vout := fun _ => h.vout
  outside := fun _ _ _ _ => by rw [h.vout]
  notDone := fun _ => ⟨h.res0, h.res1, h.validBits⟩

/-- A command that changes nothing the host sees but STATUS, ERR and its result cells of VOUT. -/
theorem CommandKept.of_transform {k : Kernel} (hk : kernelOf i s = some k) {out : List Word}
    (hlen : out.length ≤ 2 ^ k.logSize) (h : HostVisibleKept { s with vout := s.vout.writeFrom 0 out } t)
    (hs : t.script = s.script) : CommandKept i s t where
  params := h.params
  arg0 := h.arg0
  arg1 := h.arg1
  arg2 := h.arg2
  arg3 := h.arg3
  vin := h.vin
  script := hs
  res0 := fun _ _ _ _ _ _ => h.res0
  res1 := fun _ => h.res1
  validBits := fun _ _ => h.validBits
  vout := fun hn => absurd (hn.symm.trans hk) (by simp)
  outside := fun k' hk' j hj => by
    obtain rfl : k = k' := Option.some.inj (hk.symm.trans hk')
    rw [h.vout]
    exact Memory.read_writeFrom_outside _ _ (.inr (by omega))
  notDone := fun _ => ⟨h.res0, h.res1, h.validBits⟩

/-- A command that ends with DONE and changes nothing the host sees but STATUS, ERR, RES0, RES1 and the registry, each
only where it may. -/
theorem CommandKept.of_done {r0 r1 : Word} {bs : List Bundle}
    (h : HostVisibleKept { s with res0 := r0, res1 := r1, bundles := bs } t) (hs : t.script = s.script)
    (hd : t.done = true)
    (hr0 : i ≠ .fadd → i ≠ .fsub → i ≠ .fmul → i ≠ .mulw → i ≠ .fred → i ≠ .finv → r0 = s.res0)
    (hr1 : i ≠ .mulw → r1 = s.res1)
    (hb : i ≠ .init → i ≠ .teardown → bs.map Bundle.valid = s.bundles.map Bundle.valid) : CommandKept i s t where
  params := h.params
  arg0 := h.arg0
  arg1 := h.arg1
  arg2 := h.arg2
  arg3 := h.arg3
  vin := h.vin
  script := hs
  res0 := fun h1 h2 h3 h4 h5 h6 => h.res0.trans (hr0 h1 h2 h3 h4 h5 h6)
  res1 := fun h1 => h.res1.trans (hr1 h1)
  validBits := fun h1 h2 => h.validBits.trans (hb h1 h2)
  vout := fun _ => h.vout
  outside := fun _ _ _ _ => by rw [h.vout]
  notDone := fun hn => absurd (hn.symm.trans hd) (by simp)

/-- The commit of a scalar result changes RES0 alone of what a command may change (30_encoding.md R73 step 4). -/
theorem CommandKept.of_scalar {lo : Word}
    (hr0 : i ≠ .fadd → i ≠ .fsub → i ≠ .fmul → i ≠ .mulw → i ≠ .fred → i ≠ .finv → lo = s.res0) :
    CommandKept i s ((s.toPhase .exec).hold (.scalar lo)).commit :=
  .of_done ⟨rfl, rfl, rfl, rfl, rfl, rfl, rfl, rfl, rfl, rfl⟩ rfl rfl hr0 (fun _ => rfl) fun _ _ => rfl

/-- The fatal path keeps what the host sees but STATUS and ERR, whatever FAULT was. -/
theorem HostVisibleKept.takeFatal (s : State) (c : FatalCode) (o : Byte) : HostVisibleKept s (s.takeFatal c o) := by
  cases hf : s.fault with
  | false => exact (State.takeFatal_ended hf c o).kept
  | true =>
    rw [State.takeFatal_of_fault s hf]
    exact ⟨rfl, rfl, rfl, rfl, rfl, rfl, rfl, rfl, rfl, rfl⟩

/-- A command that ends by a failing check keeps what the host sees but STATUS and ERR (60_exceptions.md R174,
R175). -/
theorem HostVisibleKept.raise (s : State) (r : Raise) : HostVisibleKept s (s.raise r) := by
  cases r with
  | fatal c => exact .takeFatal s c _
  | fail c => exact ⟨rfl, rfl, rfl, rfl, rfl, rfl, rfl, rfl, rfl, rfl⟩

/-- The body of a transform, committed or ended by a device failure (60_exceptions.md R179). -/
theorem CommandKept.runTransform {k : Kernel} (hk : kernelOf i s = some k) :
    CommandKept i s (runTransform k s) := by
  cases hd : s.devicePending with
  | true =>
    have he : Machine.runTransform k s = (s.toPhase .load).takeDevice (2 ^ k.logSize) := by
      simp [Machine.runTransform, hd]
    rw [he]
    exact .of_transform hk (out := (List.range (2 ^ k.logSize)).map (Config.freeWord s.draws)) (by simp)
      ⟨rfl, rfl, rfl, rfl, rfl, rfl, rfl, rfl, rfl, rfl⟩ rfl
  | false =>
    obtain ⟨b0, b1, sel, he⟩ := runTransform_eq (k := k) hd
    rw [he]
    exact .of_transform hk (out := (List.range (2 ^ k.logSize)).map (s.resultOf k)) (by simp)
      ⟨rfl, rfl, rfl, rfl, rfl, rfl, rfl, rfl, rfl, rfl⟩ rfl

/-- The body of a command whose checks have passed. -/
theorem CommandKept.bodyOf (i : Instr) (s : State) : CommandKept i s (bodyOf i s) := by
  cases i with
  | fadd | fsub | fmul | fred | finv => exact .of_scalar (by simp)
  | mulw =>
    exact .of_done ⟨rfl, rfl, rfl, rfl, rfl, rfl, rfl, rfl, rfl, rfl⟩ rfl rfl (by simp) (by simp) fun _ _ => rfl
  | init | teardown =>
    exact .of_done ⟨rfl, rfl, rfl, rfl, rfl, rfl, rfl, rfl, rfl, rfl⟩ rfl rfl (fun _ _ _ _ _ _ => rfl) (fun _ => rfl)
      (by simp)
  | ntt | nttc | intt | inttc => exact .runTransform rfl

/-- What a command in the issued state may change, it may change in the state it was issued in. -/
theorem CommandKept.of_issued {r : Response} (h : CommandKept i ((s.respond r).issue i) t) : CommandKept i s t where
  __ := h
  vout := fun hk => h.vout ((kernelOf_issued i s r).trans hk)
  outside := fun k hk => h.outside k ((kernelOf_issued i s r).trans hk)

/-- Every end of a command changes no more than it may. -/
theorem exec_commandKept (h : exec i s = .next t) : CommandKept i s t := by
  rcases exec_cases i s with ⟨-, he⟩ | ⟨-, -, he⟩ | ⟨-, r, -, he⟩ | ⟨-, -, he⟩ <;> rw [he] at h <;>
    obtain rfl := Host.Outcome.next.inj h
  · exact .of_kept ⟨rfl, rfl, rfl, rfl, rfl, rfl, rfl, rfl, rfl, rfl⟩ rfl
  · obtain ⟨hp, h0, h1, h2, h3, hr0, hr1, hvin, hvout, hvalid⟩ := HostVisibleKept.takeFatal s .busyAccess 0#8
    exact .of_kept ⟨hp, h0, h1, h2, h3, hr0, hr1, hvin, hvout, hvalid⟩ (by simp)
  · exact .of_issued (.of_kept (.raise _ r) (by cases r <;> simp [State.raise]))
  · exact .of_issued (.bodyOf i _)

end Sys2Proof.Machine
end

section
/-! PROOFS. The reset state (O47), the views of STATUS, VALID and CAP (O57) and the frame of a command (O60). -/

namespace Sys2Proof.Machine

/-- Settles O47: nothing is in flight, no bundle is valid and no cell is written. -/
theorem resetMeetsTheInvariants : Obligations.ResetMeetsTheInvariants := by
  unfold Obligations.ResetMeetsTheInvariants
  exact ⟨fun c d => ⟨State.resetOf_inv c d, State.resetOf_bundlesInv c d, State.resetOf_reducedInv c d⟩,
    State.resetOf_inv _ _, Params.wellFormed_iff.mpr recommended_conforms⟩

/-- Settles O57: the fields of the three views stand side by side. -/
theorem statusViewBits : Obligations.StatusViewBits := by
  unfold Obligations.StatusViewBits
  intro s hw _
  obtain ⟨hbusy, hdone, hfail, hfault, hrest⟩ := s.statusWord_bits
  exact ⟨hbusy, hdone, hfail, hfault, hrest, fun k hk => s.validWord_getLsbD hk, Params.capWord_toNat hw⟩

/-- Settles O60, by the four ways a command can end. -/
theorem commandFrame : Obligations.CommandFrame := by
  unfold Obligations.CommandFrame
  intro i s t h
  obtain ⟨hp, h0, h1, h2, h3, hvin, hscript, hr0, hr1, hvalid, hvout, hout, hnot⟩ := exec_commandKept h
  exact ⟨hp, h0, h1, h2, h3, hvin, hscript, hr0, hr1, hvalid, hvout, hout, hnot⟩

end Sys2Proof.Machine
end

section
/-! SUPPORT. The steps of a command in flight, as the host sees them (20_memory.md R63). -/

namespace Sys2Proof.Machine

variable {s s' : State}

/-- From `s` to `t` nothing the host can see changes, DONE, FAIL, FAULT and ERR among it; BUSY is not spoken of. -/
structure HostSeesNoChange (s t : State) : Prop extends HostVisibleKept s t where
  done : t.done = s.done
  fail : t.fail = s.fail
  fault : t.fault = s.fault
  err : t.err = s.err

theorem HostSeesNoChange.refl (s : State) : HostSeesNoChange s s :=
  ⟨⟨rfl, rfl, rfl, rfl, rfl, rfl, rfl, rfl, rfl, rfl⟩, rfl, rfl, rfl, rfl⟩

/-- A command that ends by a failing check clears BUSY, unless FAULT = 1 already, when the fatal path changes nothing
(60_exceptions.md R174, R175). -/
theorem HostSeesNoChange.raise {r : Raise} (hb : (s.raise r).busy = true) : HostSeesNoChange s (s.raise r) := by
  cases r with
  | fail c => simp [State.raise] at hb
  | fatal c =>
    cases hf : s.fault with
    | false => simp [State.raise, State.takeFatal_eq s hf] at hb
    | true =>
      rw [State.raise, State.takeFatal_of_fault s hf]
      exact .refl s

theorem HostSeesNoChange.checkStep {i : Instr} (hb : (s.checkStep i).busy = true) :
    HostSeesNoChange s (s.checkStep i) := by
  unfold State.checkStep at hb ⊢
  split at hb
  · exact .raise hb
  · exact { HostSeesNoChange.refl s with }

/-- The execute step only holds a result, or computes the fields of a bundle besides its VALID bit. -/
theorem HostSeesNoChange.execute {i : Instr} (h : executeOf i s = some s') : HostSeesNoChange s s' := by
  have hvalid := executeOf_valid h
  obtain ⟨hframe, -⟩ := executeOf_frame h
  generalize s'.held = hd, s'.bundles = bs at *
  subst hframe
  exact { HostSeesNoChange.refl s with validBits := hvalid }

theorem State.commit_busy (s : State) : s.commit.busy = false := rfl

/-- A step of the sequencer that leaves the command in flight is none of those that end it: a failing check, the
commit step, a device failure. -/
theorem HostSeesNoChange.of_seqStep (h : s.seqStep = some s') (hb : s'.busy = true) : HostSeesNoChange s s' := by
  obtain ⟨-, i, -, hcases⟩ := State.seqStep_cases h
  rcases hcases with ⟨-, rfl⟩ | ⟨-, -, he⟩ | ⟨-, -, rfl⟩ | ⟨-, k, -, hpipe⟩
  · exact .checkStep hb
  · exact .execute he
  · simp [State.commit_busy] at hb
  · rcases State.pipelineStep_cases hpipe with ⟨-, rfl⟩ | ⟨-, -, rfl⟩ | ⟨-, -, -, rfl⟩ | ⟨-, -, -, rfl⟩ |
      ⟨-, -, -, rfl⟩
    · simp [State.takeDevice] at hb
    · exact { HostSeesNoChange.refl s with }
    · exact { HostSeesNoChange.refl s with }
    · exact { HostSeesNoChange.refl s with }
    · simp [State.commit_busy] at hb

/-- A butterfly writes a work buffer and DONESET (42_transform.md R133). -/
theorem HostSeesNoChange.of_coreStep {j : Nat} (h : s.coreStep j = some s') : HostSeesNoChange s s' := by
  obtain ⟨-, -, -, -, -, k, -, -, rfl⟩ := State.coreStep_cases h
  obtain ⟨m, he, -⟩ := s.butterfly_eq k.inverse j
  rw [he]
  constructor
  · constructor <;> simp
  all_goals simp

end Sys2Proof.Machine
end

section
/-! PROOFS. The atomic commit (O44). -/

namespace Sys2Proof.Machine

/-- Settles O44, by the steps of the sequencer and of a core. -/
theorem commandsCommitAtomically : Obligations.CommandsCommitAtomically := by
  unfold Obligations.CommandsCommitAtomically
  intro s s' _ hstep hb
  have h : HostSeesNoChange s s' := by
    rcases hstep with hseq | ⟨j, hcore⟩
    · exact .of_seqStep hseq hb
    · exact .of_coreStep hcore
  exact ⟨h.toHostVisibleKept, h.done, h.fail, h.fault, h.err⟩

end Sys2Proof.Machine
end

section
/-! SUPPORT. What a block answers while it is not ready: FAULT = 1 (20_memory.md R59) or BUSY = 1 (R58). -/

namespace Sys2Proof.Machine

variable {s s' : State}

/-! ### FAULT = 1 -/

/-- While FAULT = 1 a transaction changes the response alone. -/
theorem State.transact_of_fault (hf : s.fault = true) (t : Txn) : ∃ r, s.transact t = s.respond r := by
  rcases s.transact_cases t with h | ⟨c, hn, -⟩ | ⟨a, v, u, hr, -⟩
  · exact h
  · simp [hf] at hn
  · simp [hr.2] at hf

theorem State.transact_write_of_fault (hf : s.fault = true) (a v : Word) :
    s.transact (.write a v) = s.respond Response.error := by
  simp [State.transact, hf, State.transactFaulted]

theorem exec_of_fault (hf : s.fault = true) (i : Instr) : exec i s = .next (s.respond Response.error) := by
  rcases exec_cases i s with ⟨-, h⟩ | ⟨hn, -⟩ | ⟨hr, -⟩ | ⟨hr, -⟩
  · exact h
  · simp [hf] at hn
  · simp [hr.2] at hf
  · simp [hr.2] at hf

/-- From `s` to `t` only the model's own fields may change (log 4, log 13, log 10). -/
def OnlyOwnFieldsChange (s t : State) : Prop :=
  t = { s with script := t.script, response := t.response, devFault := t.devFault }

theorem OnlyOwnFieldsChange.refl (s : State) : OnlyOwnFieldsChange s s := rfl

theorem OnlyOwnFieldsChange.respond (s : State) (r : Response) : OnlyOwnFieldsChange s (s.respond r) := rfl

theorem OnlyOwnFieldsChange.armDevice (s : State) : OnlyOwnFieldsChange s s.armDevice := rfl

theorem OnlyOwnFieldsChange.transact (hf : s.fault = true) (t : Txn) : OnlyOwnFieldsChange s (s.transact t) := by
  obtain ⟨r, h⟩ := State.transact_of_fault hf t
  rw [h]
  exact .respond s r

theorem OnlyOwnFieldsChange.busTransact (hf : s.fault = true) (a : BusAccess) :
    OnlyOwnFieldsChange s (s.busTransact a) := by
  unfold State.busTransact
  split
  · exact .transact hf _
  · exact .respond s _

/-- An idle block has no step of the sequencer and none of a core. -/
theorem State.seqStep_of_idle (hb : s.busy = false) : s.seqStep = none := by simp [State.seqStep, hb]

theorem State.coreRound_of_idle (hb : s.busy = false) (js : List Nat) : s.coreRound js = s := by
  refine State.coreRound_induct (p := (· = s)) js rfl fun u j u' hu hstep => ?_
  obtain ⟨hb', -⟩ := State.coreStep_cases hstep
  rw [hu, hb] at hb'
  exact absurd hb' Bool.false_ne_true

/-- While FAULT = 1 every script entry but a reset changes the model's own fields alone. -/
theorem OnlyOwnFieldsChange.perform {e : Event} (hf : s.fault = true) (hb : s.busy = false) (he : e ≠ .rst)
    (h : State.perform e s = .next s') : OnlyOwnFieldsChange s s' := by
  rcases State.perform_cases h with ⟨hrst, -⟩ | ⟨t, -, rfl⟩ | ⟨a, -, rfl⟩ | ⟨w, i, -, -, hexec⟩ | ⟨w, d, -, -, rfl⟩ |
    ⟨-, hbusy, -⟩ | ⟨-, -, rfl⟩ | ⟨-, rfl⟩ | ⟨js, -, rfl⟩ | ⟨-, rfl⟩
  · exact absurd hrst he
  · exact .transact hf t
  · exact .busTransact hf a
  · rw [exec_of_fault hf] at hexec
    cases hexec
    exact .respond s _
  · exact .transact hf _
  · simp [hb] at hbusy
  · exact .transact hf _
  · simpa [State.seqStep_of_idle hb] using OnlyOwnFieldsChange.refl s
  · rw [State.coreRound_of_idle hb]
    exact .refl s
  · exact .armDevice s

theorem OnlyOwnFieldsChange.of_withScript {sc : List Event} (h : OnlyOwnFieldsChange (s.withScript sc) s') :
    OnlyOwnFieldsChange s s' := h

/-- While FAULT = 1 every step but a reset changes the model's own fields alone. -/
theorem OnlyOwnFieldsChange.step (hf : s.fault = true) (hb : s.busy = false) (hrst : ∀ rest, s.script ≠ .rst :: rest)
    (h : step s = .next s') : OnlyOwnFieldsChange s s' := by
  obtain ⟨-, ⟨-, -, rfl⟩ | ⟨-, hbusy, -⟩ | ⟨e, rest, hs, hp⟩⟩ := step_cases h
  · exact .refl s'
  · simp [hb] at hbusy
  · have he : e ≠ .rst := by
      rintro rfl
      exact hrst rest hs
    exact OnlyOwnFieldsChange.of_withScript (sc := rest) (.perform hf hb he hp)

/-! ### BUSY = 1 -/

theorem exec_of_busy (hf : s.fault = false) (hb : s.busy = true) (i : Instr) :
    exec i s = .next ((s.takeFatal .busyAccess 0#8).respond Response.error) := by
  rcases exec_cases i s with ⟨hn, -⟩ | ⟨-, -, h⟩ | ⟨hr, -⟩ | ⟨hr, -⟩
  · simp [hf] at hn
  · exact h
  · simp [hr.1] at hb
  · simp [hr.1] at hb

/-- The one transaction that a block with BUSY = 1 answers. -/
theorem State.transact_status_of_busy (hf : s.fault = false) (hb : s.busy = true) :
    s.transact (.read statusAddr) = s.respond (Response.okWith s.statusWord) := by
  simp [State.transact, hf, hb, State.transactBusy]

theorem State.transact_of_busy (hf : s.fault = false) (hb : s.busy = true) {t : Txn} (ht : t ≠ .read statusAddr) :
    s.transact t = (s.takeFatal .busyAccess 0#8).respond Response.error := by
  simp [State.transact, hf, hb, State.transactBusy, ht]

end Sys2Proof.Machine
end

section
/-! SUPPORT. The addresses of the port (20_memory.md R51 to R53) and the accesses that R57 calls violations. -/

namespace Sys2Proof

/-- The cells of a data memory fit its space (00_scope.md R6; 20_memory.md R53). -/
theorem Params.capn_le {c : Params} (h : c.wellFormed = true) : c.capn ≤ 2 ^ 62 := by
  obtain ⟨-, -, -, -, -, hsize, -⟩ := Params.bounds h
  exact Nat.pow_le_pow_right (by omega) hsize

namespace Machine

variable {s : State} {a v : Word}

/-! ### Space and index -/

theorem space_eq (a : Word) : space a = a.toNat / 2 ^ 62 := by
  have := a.isLt
  simp only [space, BitVec.extractLsb'_toNat, Nat.shiftRight_eq_div_pow]
  omega

theorem index_eq (a : Word) : index a = a.toNat % 2 ^ 62 := by
  simp [index]

/-- The index stands below the two bits of the space (R51), so no carry reaches them. -/
theorem toNat_vinAddr {j : Nat} (hj : j < 2 ^ 62) : (vinAddr j).toNat = 2 ^ 62 + j := by
  rw [vinAddr, BitVec.toNat_add, toNat_ofNat_of_lt (by omega), BitVec.toNat_ofNat]
  omega

theorem toNat_voutAddr {j : Nat} (hj : j < 2 ^ 62) : (voutAddr j).toNat = 2 * 2 ^ 62 + j := by
  rw [voutAddr, BitVec.toNat_add, toNat_ofNat_of_lt (by omega), BitVec.toNat_ofNat]
  omega

theorem space_vinAddr {j : Nat} (hj : j < 2 ^ 62) : space (vinAddr j) = 1 := by
  rw [space_eq, toNat_vinAddr hj]
  omega

theorem index_vinAddr {j : Nat} (hj : j < 2 ^ 62) : index (vinAddr j) = j := by
  rw [index_eq, toNat_vinAddr hj]
  omega

theorem space_voutAddr {j : Nat} (hj : j < 2 ^ 62) : space (voutAddr j) = 2 := by
  rw [space_eq, toNat_voutAddr hj]
  omega

theorem index_voutAddr {j : Nat} (hj : j < 2 ^ 62) : index (voutAddr j) = j := by
  rw [index_eq, toNat_voutAddr hj]
  omega

/-! ### What is mapped -/

theorem State.portRead_vin (hw : s.params.wellFormed = true) {j : Nat} (hj : j < s.params.capn) :
    s.portRead (vinAddr j) = some (s.vin.read j) := by
  have hlt := Nat.lt_of_lt_of_le hj (Params.capn_le hw)
  simp [State.portRead, space_vinAddr hlt, index_vinAddr hlt, hj]

theorem State.portRead_vout (hw : s.params.wellFormed = true) {j : Nat} (hj : j < s.params.capn) :
    s.portRead (voutAddr j) = some (s.vout.read j) := by
  have hlt := Nat.lt_of_lt_of_le hj (Params.capn_le hw)
  simp [State.portRead, space_voutAddr hlt, index_voutAddr hlt, hj]

theorem State.portWrite_vin (hw : s.params.wellFormed = true) {j : Nat} (hj : j < s.params.capn) (v : Word) :
    s.portWrite (vinAddr j) v = some { s with vin := s.vin.write j v } := by
  have hlt := Nat.lt_of_lt_of_le hj (Params.capn_le hw)
  simp [State.portWrite, space_vinAddr hlt, index_vinAddr hlt, hj]

/-- The readable registers and their words (R52). -/
theorem State.portRead_register (h :
    (a = 0x0#64 ∧ v = s.statusWord) ∨ (a = 0x1#64 ∧ v = s.err) ∨ (a = 0x2#64 ∧ v = s.validWord) ∨
      (a = 0x3#64 ∧ v = s.params.capWord) ∨ (a = 0x4#64 ∧ v = s.params.p) ∨ (a = 0x5#64 ∧ v = s.params.g) ∨
      (a = 0x8#64 ∧ v = s.arg0) ∨ (a = 0x9#64 ∧ v = s.arg1) ∨ (a = 0xA#64 ∧ v = s.arg2) ∨
      (a = 0xB#64 ∧ v = s.arg3) ∨ (a = 0xC#64 ∧ v = s.res0) ∨ (a = 0xD#64 ∧ v = s.res1)) :
    s.portRead a = some v := by
  rcases h with ⟨rfl, rfl⟩ | ⟨rfl, rfl⟩ | ⟨rfl, rfl⟩ | ⟨rfl, rfl⟩ | ⟨rfl, rfl⟩ | ⟨rfl, rfl⟩ | ⟨rfl, rfl⟩ |
    ⟨rfl, rfl⟩ | ⟨rfl, rfl⟩ | ⟨rfl, rfl⟩ | ⟨rfl, rfl⟩ | ⟨rfl, rfl⟩ <;> rfl

/-! ### What is not mapped (R57) -/

theorem State.csrRead_eq_none {n : Nat} (h : n = 0x6 ∨ n = 0x7 ∨ 0xE ≤ n) : s.csrRead n = none := by
  unfold State.csrRead
  split
  case h_13 => rfl
  all_goals omega

theorem State.csrWrite_eq_none {n : Nat} (h : n ≤ 0x7 ∨ (0xC ≤ n ∧ n ≤ 0xE) ∨ 0x10 ≤ n) : s.csrWrite n v = none := by
  unfold State.csrWrite
  split
  case h_6 => rfl
  all_goals omega

/-- An access violation of R57: a read or a write of an address that is not mapped for it. -/
def State.Violates (s : State) : Txn → Prop
  | .read a => s.portRead a = none
  | .write a v => s.portWrite a v = none

theorem State.violates_read
    (h : 3 * 2 ^ 62 ≤ a.toNat ∨ (a.toNat < 2 ^ 62 ∧ (a.toNat = 0x6 ∨ a.toNat = 0x7 ∨ 0xE ≤ a.toNat)) ∨
      (2 ^ 62 ≤ a.toNat ∧ a.toNat < 2 * 2 ^ 62 ∧ s.params.capn ≤ a.toNat - 2 ^ 62) ∨
      (2 * 2 ^ 62 ≤ a.toNat ∧ a.toNat < 3 * 2 ^ 62 ∧ s.params.capn ≤ a.toNat - 2 * 2 ^ 62)) :
    s.Violates (.read a) := by
  have hspace := space_eq a
  have hindex := index_eq a
  simp only [State.Violates, State.portRead]
  split
  · exact State.csrRead_eq_none (by omega)
  · exact if_neg (by omega)
  · exact if_neg (by omega)
  · rfl

theorem State.violates_write
    (h : 2 * 2 ^ 62 ≤ a.toNat ∨
      (a.toNat < 2 ^ 62 ∧ (a.toNat ≤ 0x7 ∨ (0xC ≤ a.toNat ∧ a.toNat ≤ 0xE) ∨ 0x10 ≤ a.toNat)) ∨
      (2 ^ 62 ≤ a.toNat ∧ a.toNat < 2 * 2 ^ 62 ∧ s.params.capn ≤ a.toNat - 2 ^ 62)) :
    s.Violates (.write a v) := by
  have hspace := space_eq a
  have hindex := index_eq a
  simp only [State.Violates, State.portWrite]
  split
  · exact State.csrWrite_eq_none (by omega)
  · exact if_neg (by omega)
  · rfl

end Machine

end Sys2Proof
end

section
/-! SUPPORT. What an idle block answers (20_memory.md R57, R59, R60), a transaction as a step, and the byte-bus bridge
(R55, R56). -/

namespace Sys2Proof.Machine

variable {s u : State} {a v : Word} {rest : List Event}

/-! ### The idle block -/

/-- A read of a mapped address answers its word, FAULT set or not. -/
theorem State.transact_read (hb : s.busy = false) (h : s.portRead a = some v) :
    s.transact (.read a) = s.respond (Response.okWith v) := by
  cases hf : s.fault <;> simp [State.transact, hb, hf, State.transactIdle, State.transactFaulted, h]

theorem State.transact_write (hr : s.Ready) (h : s.portWrite a v = some u) :
    s.transact (.write a v) = u.respond Response.okay := by
  simp [State.transact, hr.1, hr.2, State.transactIdle, h]

theorem State.transact_violation (hr : s.Ready) {t : Txn} (h : s.Violates t) :
    s.transact t = (s.takeFatal .badAddr 0#8).respond Response.error := by
  cases t <;> simp only [State.Violates] at h <;> simp [State.transact, hr.1, hr.2, State.transactIdle, h]

theorem State.transact_violation_of_fault (hf : s.fault = true) {t : Txn} (h : s.Violates t) :
    s.transact t = s.respond Response.error := by
  cases t with
  | read a => simp only [State.Violates] at h; simp [State.transact, hf, State.transactFaulted, h]
  | write a v => exact State.transact_write_of_fault hf a v

/-! ### A transaction as a step -/

theorem step_txn {t : Txn} (hw : s.params.wellFormed = true) (hs : s.script = .txn t :: rest) :
    step s = .next ((s.withScript rest).transact t) := step_of_script hw hs

/-- A transaction that the block only answers. -/
theorem step_txn_respond {t : Txn} {r : Response} (hw : s.params.wellFormed = true) (hs : s.script = .txn t :: rest)
    (ht : (s.withScript rest).transact t = (s.withScript rest).respond r) :
    step s = .next { s with response := some r, script := rest } := by
  rw [step_txn hw hs, ht]
  rfl

theorem step_read (hw : s.params.wellFormed = true) (hb : s.busy = false) (hs : s.script = .txn (.read a) :: rest)
    (hv : (s.withScript rest).portRead a = some v) :
    step s = .next { s with response := some ⟨true, v⟩, script := rest } :=
  step_txn_respond hw hs (State.transact_read (s := s.withScript rest) hb hv)

theorem step_write (hw : s.params.wellFormed = true) (hr : s.Ready) (hs : s.script = .txn (.write a v) :: rest)
    (hu : (s.withScript rest).portWrite a v = some u) : step s = .next (u.respond Response.okay) := by
  rw [step_txn hw hs, State.transact_write (s := s.withScript rest) hr hu]

theorem FatallyEnded.of_withScript {sc : List Event} {opc code : Byte}
    (h : FatallyEnded (s.withScript sc) u opc code) : FatallyEnded s u opc code :=
  { h with kept := { h.kept with } }

/-- A transaction that the block answers by the fatal path (60_exceptions.md R174, R180). -/
theorem step_txn_fatal {t : Txn} {c : FatalCode} (hw : s.params.wellFormed = true) (hf : s.fault = false)
    (hs : s.script = .txn t :: rest)
    (ht : (s.withScript rest).transact t = ((s.withScript rest).takeFatal c 0#8).respond Response.error) :
    ∃ u, step s = .next u ∧ FatallyEnded s u 0#8 c.code ∧ u.response = some ⟨false, 0#64⟩ ∧ u.script = rest :=
  ⟨_, by rw [step_txn hw hs, ht],
    ((State.takeFatal_ended (s := s.withScript rest) hf c 0#8).respond Response.error).of_withScript, rfl, by simp⟩

/-! ### The byte-bus bridge -/

/-- The byte address of a word address (R55). -/
theorem toNat_byteAddr (w : Word) : (BitVec.ofNat 67 (8 * w.toNat)).toNat = 8 * w.toNat := by
  have := w.isLt
  rw [BitVec.toNat_ofNat]
  omega

theorem BusAccess.toTxn_read (w : Word) :
    (BusAccess.read (BitVec.ofNat 67 (8 * w.toNat)) 8).toTxn = some (.read w) := by
  simp only [BusAccess.toTxn, toNat_byteAddr]
  simp

/-- Eight bytes, lowest first, are one word (R55). -/
theorem natOfBytes_eight (b0 b1 b2 b3 b4 b5 b6 b7 : Byte) : natOfBytes [b0, b1, b2, b3, b4, b5, b6, b7] =
    (b7 ++ b6 ++ b5 ++ b4 ++ b3 ++ b2 ++ b1 ++ b0 : BitVec 64).toNat := by
  simp only [natOfBytes, toNat_append_eq_add]
  omega

theorem BusAccess.toTxn_write (w : Word) (b0 b1 b2 b3 b4 b5 b6 b7 : Byte) :
    (BusAccess.write (BitVec.ofNat 67 (8 * w.toNat)) [b0, b1, b2, b3, b4, b5, b6, b7]).toTxn =
      some (.write w (b7 ++ b6 ++ b5 ++ b4 ++ b3 ++ b2 ++ b1 ++ b0 : BitVec 64)) := by
  simp only [BusAccess.toTxn, toNat_byteAddr, natOfBytes_eight]
  simp

/-- The accesses that the bridge refuses (R56). -/
theorem BusAccess.toTxn_refused {acc : BusAccess}
    (h : (∃ a n, acc = .read a n ∧ (a.toNat % 8 ≠ 0 ∨ n ≠ 8)) ∨
      (∃ a bs, acc = .write a bs ∧ (a.toNat % 8 ≠ 0 ∨ bs.length ≠ 8))) : acc.toTxn = none := by
  rcases h with ⟨a, n, rfl, h⟩ | ⟨a, bs, rfl, h⟩
  · exact if_neg (by omega)
  · exact if_neg (by omega)

/-- An access that the bridge lets through steps as its transaction does. -/
theorem step_bus {acc : BusAccess} {t : Txn} (hw : s.params.wellFormed = true) (hs : s.script = .bus acc :: rest)
    (ht : acc.toTxn = some t) : step s = step (s.withScript (.txn t :: rest)) := by
  rw [step_of_script hw hs, step_txn (s := s.withScript (.txn t :: rest)) hw rfl, State.perform, State.busTransact, ht]
  rfl

theorem step_bus_refused {acc : BusAccess} (hw : s.params.wellFormed = true) (hs : s.script = .bus acc :: rest)
    (ht : acc.toTxn = none) : step s = .next ((s.withScript rest).respond Response.error) := by
  rw [step_of_script hw hs, State.perform, State.busTransact, ht]

end Sys2Proof.Machine
end

section
/-! PROOFS. The host port (O7, O52 to O56, O58). -/

namespace Sys2Proof.Machine

/-- Settles O52: only a reset does more than answer the host or arm a device failure. -/
theorem faultIsStickyUntilReset : Obligations.FaultIsStickyUntilReset := by
  unfold Obligations.FaultIsStickyUntilReset
  intro s s' hinv hf hstep hrst
  obtain ⟨hb, -, -⟩ := hinv.faultAlone hf
  refine ⟨OnlyOwnFieldsChange.step hf hb hrst hstep, fun a v rest hs => ?_⟩
  have hf' : (s.withScript rest).fault = true := hf
  rw [step_txn (step_cases hstep).1 hs, State.transact_write_of_fault hf'] at hstep
  cases hstep
  rfl

/-- Settles O55: the violations are the accesses the port does not map. -/
theorem accessViolationsFault : Obligations.AccessViolationsFault := by
  unfold Obligations.AccessViolationsFault
  intro s tr rest hw hb hs hviol
  have hv : (s.withScript rest).Violates tr := by
    rcases hviol with ⟨a, rfl, h⟩ | ⟨a, v, rfl, h⟩
    · exact State.violates_read h
    · exact State.violates_write h
  exact ⟨fun hf => step_txn_fatal hw hf hs (State.transact_violation (s := s.withScript rest) ⟨hb, hf⟩ hv),
    fun hf => step_txn_respond hw hs (State.transact_violation_of_fault (s := s.withScript rest) hf hv)⟩

/-- Settles O56: the fatal path for every transaction but the read of STATUS. -/
theorem busyAccessFaults : Obligations.BusyAccessFaults := by
  unfold Obligations.BusyAccessFaults
  intro s tr rest hw hb hf hs
  refine ⟨?_, fun htr => step_txn_fatal hw hf hs (State.transact_of_busy (s := s.withScript rest) hf hb htr)⟩
  rintro rfl
  exact step_txn_respond hw hs (State.transact_status_of_busy (s := s.withScript rest) hf hb)

/-- Settles O58: an access is its transaction, or none. -/
theorem byteBusBridge : Obligations.ByteBusBridge := by
  unfold Obligations.ByteBusBridge
  intro s acc rest hw hs
  refine ⟨?_, ?_, fun h => step_bus_refused hw hs (BusAccess.toTxn_refused h)⟩
  · rintro w rfl
    exact step_bus hw hs (BusAccess.toTxn_read w)
  · rintro w b0 b1 b2 b3 b4 b5 b6 b7 rfl
    exact step_bus hw hs (BusAccess.toTxn_write w b0 b1 b2 b3 b4 b5 b6 b7)

/-- Settles O7: of the four answers of `exec`, the two of a block that is not ready. -/
theorem commandOnUnreadyBlock : Obligations.CommandOnUnreadyBlock := by
  unfold Obligations.CommandOnUnreadyBlock
  intro i s
  exact ⟨fun hf => exec_of_fault hf i, fun hf hb =>
    ⟨_, exec_of_busy hf hb i, (State.takeFatal_ended hf .busyAccess 0#8).respond Response.error, rfl⟩⟩

/-- Settles O53: the registers by R52, the cells by their addresses. -/
theorem portReads : Obligations.PortReads := by
  unfold Obligations.PortReads
  refine ⟨fun s a v rest hw hb hs hv => step_read hw hb hs (State.portRead_register hv), fun s j rest hw hb hj => ?_⟩
  exact ⟨fun hs => step_read hw hb hs (State.portRead_vin (s := s.withScript rest) hw hj),
    fun hs => step_read hw hb hs (State.portRead_vout (s := s.withScript rest) hw hj)⟩

/-- Settles O54: an ARG register by its address, a cell of VIN by the laws of memories. -/
theorem portWrites : Obligations.PortWrites := by
  unfold Obligations.PortWrites
  intro s v rest hw hr
  refine ⟨fun hs => step_write hw hr hs rfl, fun hs => step_write hw hr hs rfl, fun hs => step_write hw hr hs rfl,
    fun hs => step_write hw hr hs rfl, fun j hj hs => ?_⟩
  exact ⟨s.vin.write j v, step_write hw hr hs (State.portWrite_vin (s := s.withScript rest) hw hj v),
    Memory.read_write_same _ _ _, fun x hx => Memory.read_write_other _ hx _⟩

end Sys2Proof.Machine
end

section
/-! SUPPORT. The command word (30_encoding.md R71, R74 to R77): which word decodes to which command, which words are
illegal, and that the byte order of 20_memory.md R55 loses nothing. -/

namespace Sys2Proof

variable {w : Word} {i : Instr}

/-! ### The opcode map -/

/-- Every row of R74 compares the whole word, and its pattern is the encoding of its command. -/
theorem opcodeTable_row : ∀ r ∈ opcodeTable, r.mask = fullMask ∧ r.pattern = encode r.instr := by
  decide

theorem OpcodeRow.selects_iff {r : OpcodeRow} (hr : r ∈ opcodeTable) : r.selects w = true ↔ encode r.instr = w := by
  obtain ⟨hmask, hpattern⟩ := opcodeTable_row r hr
  have hfull : w &&& fullMask = w := BitVec.and_allOnes
  rw [OpcodeRow.selects, decide_eq_true_iff, hmask, hpattern, hfull, eq_comm]

/-- No bit of a command word is dropped. -/
theorem encode_of_decode (h : decode w = .ok i) : encode i = w := by
  unfold decode at h
  split at h
  · rename_i r hfound
    obtain rfl : r.instr = i := Except.ok.inj h
    exact (OpcodeRow.selects_iff (List.mem_of_find?_eq_some hfound)).mp
      (List.find?_some (p := (OpcodeRow.selects · w)) hfound)
  · cases h

/-! ### The word format `CW` (R71) -/

theorem encode_toNat (i : Instr) : (encode i).toNat = i.opcode.toNat := by
  simp only [encode, toNat_append_eq_add, BitVec.toNat_ofNat, Nat.zero_mod, Nat.mul_zero, Nat.zero_add]

/-- OPC stands in bits 7:0. -/
theorem encode_lowByte (i : Instr) : (encode i).extractLsb' 0 8 = i.opcode :=
  BitVec.extractLsb'_append_eq_right

/-- The column OPC of R74 as ranges. -/
theorem Instr.opcode_range (i : Instr) : (0x01 ≤ i.opcode.toNat ∧ i.opcode.toNat ≤ 0x06) ∨
    (0x10 ≤ i.opcode.toNat ∧ i.opcode.toNat ≤ 0x11) ∨ (0x20 ≤ i.opcode.toNat ∧ i.opcode.toNat ≤ 0x23) := by
  cases i <;> decide

/-! ### Illegal words (R75, R76) -/

/-- A bit of 63:8 is set, or the low byte is a reserved opcode. -/
def ReservedWord (w : Word) : Prop :=
  w.toNat / 256 ≠ 0 ∨ w.toNat % 256 = 0x00 ∨ (0x07 ≤ w.toNat % 256 ∧ w.toNat % 256 ≤ 0x0F) ∨
    (0x12 ≤ w.toNat % 256 ∧ w.toNat % 256 ≤ 0x1F) ∨ 0x24 ≤ w.toNat % 256

theorem not_reservedWord_encode (i : Instr) : ¬ ReservedWord (encode i) := by
  have hrange := i.opcode_range
  rw [ReservedWord, encode_toNat]
  omega

theorem decode_of_reservedWord (h : ReservedWord w) : ∃ d, decode w = .error d := by
  cases hd : decode w with
  | error d => exact ⟨d, rfl⟩
  | ok i => exact absurd (encode_of_decode hd ▸ h) (not_reservedWord_encode i)

/-! ### A command word as bytes (20_memory.md R55) -/

theorem bytesOfNat_length (n v : Nat) : (bytesOfNat n v).length = n := by
  induction n generalizing v with
  | zero => rfl
  | succ n ih => rw [bytesOfNat, List.length_cons, ih]

theorem natOfBytes_bytesOfNat (n v : Nat) : natOfBytes (bytesOfNat n v) = v % 256 ^ n := by
  induction n generalizing v with
  | zero => rw [pow_zero, Nat.mod_one, bytesOfNat, natOfBytes]
  | succ n ih => rw [bytesOfNat, natOfBytes, ih, BitVec.toNat_ofNat, pow_succ' 256 n, Nat.mod_mul]

/-- The bytes of one word decode as the word. -/
theorem decodeBytes_bytesOfNat (v : Nat) :
    decodeBytes (bytesOfNat 8 v) = (decode (BitVec.ofNat 64 v)).map (·, []) := by
  have hlen := bytesOfNat_length 8 v
  have hword : BitVec.ofNat 64 (natOfBytes (bytesOfNat 8 v)) = BitVec.ofNat 64 v := by
    rw [natOfBytes_bytesOfNat]
    exact BitVec.eq_of_toNat_eq (by simp)
  rw [decodeBytes, if_neg (by omega), List.take_of_length_le hlen.le, List.drop_of_length_le hlen.le, hword]

/-- A table word of 64 bits is read as the word that `fetchEvent` calls (log 25). -/
theorem decode_of_decodeTableWord {v : Nat} (h : decodeTableWord 64 v = some i) :
    decode (BitVec.ofNat 64 (v % 2 ^ 64)) = .ok i := by
  rw [decodeTableWord, if_pos (Nat.mod_lt v (by decide)), decodeBytes_bytesOfNat] at h
  cases hd : decode (BitVec.ofNat 64 (v % 2 ^ 64)) with
  | error d => rw [hd] at h; cases h
  | ok j => rw [hd] at h; cases h; rfl

end Sys2Proof
end

section
/-! SUPPORT. The HT record of a transaction (30_encoding.md R70). -/

namespace Sys2Proof.Machine

theorem Txn.toHT_read_toNat (a : Word) : (Txn.read a).toHT.toNat = a.toNat * 2 ^ 64 := by
  simp only [Txn.toHT, toNat_append_eq_add, BitVec.toNat_ofNat]
  omega

theorem Txn.toHT_write_toNat (a v : Word) : (Txn.write a v).toHT.toNat = 2 ^ 128 + a.toNat * 2 ^ 64 + v.toNat := by
  simp only [Txn.toHT, toNat_append_eq_add, BitVec.toNat_ofNat]
  omega

/-- The three fields of a record, read back from their places. -/
theorem extract_record (b : BitVec 1) (a v : Word) :
    (b ++ a ++ v : BitVec 129).extractLsb' 128 1 = b ∧ (b ++ a ++ v : BitVec 129).extractLsb' 64 64 = a ∧
      (b ++ a ++ v : BitVec 129).extractLsb' 0 64 = v := by
  refine ⟨?_, ?_, BitVec.extractLsb'_append_eq_right⟩
  · exact (BitVec.extractLsb'_append_eq_of_le (by decide)).trans BitVec.extractLsb'_append_eq_left
  · exact (BitVec.extractLsb'_append_eq_of_le (by decide)).trans BitVec.extractLsb'_append_eq_right

theorem Txn.ofHT_toHT (t : Txn) : Txn.ofHT t.toHT = some t := by
  cases t with
  | read a =>
    obtain ⟨hbit, haddr, hdata⟩ := extract_record 0#1 a 0#64
    simp [Txn.toHT, Txn.ofHT, hbit, haddr, hdata]
  | write a v =>
    obtain ⟨hbit, haddr, hdata⟩ := extract_record 1#1 a v
    simp [Txn.toHT, Txn.ofHT, hbit, haddr, hdata]

end Sys2Proof.Machine
end

section
/-! SUPPORT. A call and a write to CMD as a step (30_encoding.md R73 step 1; log 4, log 5). -/

namespace Sys2Proof.Machine

variable {s : State} {w : Word} {i : Instr} {rest : List Event}

theorem State.issueWord_of_error {d : DecodeError} (h : decode w = .error d) :
    s.issueWord w = s.takeFatal .illegalCmd (w.extractLsb' 0 8) := by
  rw [State.issueWord, h]

theorem State.callWord_of_ok (h : decode w = .ok i) : s.callWord w = exec i s := by
  rw [State.callWord, h]

theorem step_call (hw : s.params.wellFormed = true) (hs : s.script = .call w :: rest) (hi : decode w = .ok i) :
    step s = exec i (s.withScript rest) :=
  (step_of_script hw hs).trans (State.callWord_of_ok hi)

/-- A word that is not legal is answered OK and takes the fatal path at issue. -/
theorem step_illegal {d : DecodeError} (hw : s.params.wellFormed = true) (hr : s.Ready)
    (hs : s.script = .txn (.write 0x000000000000000F#64 w) :: rest) (hd : decode w = .error d) :
    step s = .next (((s.withScript rest).takeFatal .illegalCmd (w.extractLsb' 0 8)).respond Response.okay) := by
  rw [← State.issueWord_of_error hd]
  exact step_write hw hr hs rfl

end Sys2Proof.Machine
end

section
/-! PROOFS. The encoding and the issue of a command (O1 to O6). -/

namespace Sys2Proof.Machine

/-- Settles O2: a row of the opcode map is selected by the encoding of its command and by no other word. -/
theorem decodeEncodeAgree : Obligations.DecodeEncodeAgree := by
  unfold Obligations.DecodeEncodeAgree
  exact ⟨fun i _ => decode_encode i, fun _ _ => encode_of_decode⟩

/-- Settles O3: no reserved word is an encoding, so it takes the fatal path at issue. -/
theorem illegalWordsFaultAtIssue : Obligations.IllegalWordsFaultAtIssue := by
  unfold Obligations.IllegalWordsFaultAtIssue
  intro s w rest hw hr hs hreserved
  obtain ⟨d, hd⟩ := decode_of_reservedWord hreserved
  have hend := State.takeFatal_ended (s := s.withScript rest) hr.2 .illegalCmd (w.extractLsb' 0 8)
  exact ⟨_, step_illegal hw hr hs hd, (hend.respond Response.okay).of_withScript, rfl, by simp⟩

/-- Settles O1: the twelve words are the encodings of the twelve commands. -/
theorem decodesTheTwelveWords : Obligations.DecodesTheTwelveWords := by
  unfold Obligations.DecodesTheTwelveWords
  exact ⟨decode_encode .fadd, decode_encode .fsub, decode_encode .fmul, decode_encode .mulw, decode_encode .fred,
    decode_encode .finv, decode_encode .init, decode_encode .teardown, decode_encode .ntt, decode_encode .nttc,
    decode_encode .intt, decode_encode .inttc⟩

/-- Settles O4: the three fields stand at bits 128, 127:64 and 63:0. -/
theorem hostTransactionRecordRoundTrip : Obligations.HostTransactionRecordRoundTrip := by
  unfold Obligations.HostTransactionRecordRoundTrip
  exact ⟨Txn.ofHT_toHT, Txn.toHT_read_toNat, Txn.toHT_write_toNat⟩

/-- Settles O5: the step takes the call from the script; a table word is the word that its bytes decode as. -/
theorem stepRunsTheDecodedCommand : Obligations.StepRunsTheDecodedCommand := by
  unfold Obligations.StepRunsTheDecodedCommand
  refine ⟨fun s w i rest hw hs hi => step_call hw hs hi, fun s w i hw hi => ?_⟩
  exact step_call (s := s.withFetchWord 64 w) hw rfl (decode_of_decodeTableWord hi)

/-- Settles O6: a legal word is the encoding of its command, whose opcode is the low byte. -/
theorem commandWriteIssues : Obligations.CommandWriteIssues := by
  unfold Obligations.CommandWriteIssues
  intro s w i rest hw hr hs hi
  obtain rfl := encode_of_decode hi
  rw [step_command hw hr hs, encode_lowByte]
  rfl

end Sys2Proof.Machine
end

section
/-! SUPPORT. The laws of the units on reduced words, by their values in the ring of integers modulo `P`, and their
extreme values (40_field_arithmetic.md R96, R97, R104). -/

namespace Sys2Proof.Machine

variable {P : Nat} {a b c y : Word}

theorem toRing_zero (P : Nat) : toRing P 0#64 = 0 := by simp [toRing]

theorem toRing_one (P : Nat) : toRing P 1#64 = 1 := by simp [toRing]

theorem toNat_zero_lt (h0 : 0 < P) : (0#64).toNat < P := by simpa using h0

theorem toNat_one_lt (h1 : 1 < P) : (1#64).toNat < P := by simpa using h1

/-! ### The adder and the subtractor -/

theorem fadd_comm (hP : P < 2 ^ 64) (ha : a.toNat < P) (hb : b.toNat < P) : fadd P a b = fadd P b a := by
  refine toRing_inj (fadd_lt ha hb hP) (fadd_lt hb ha hP) ?_
  rw [toRing_fadd ha hb hP, toRing_fadd hb ha hP, add_comm]

theorem fadd_assoc (hP : P < 2 ^ 64) (ha : a.toNat < P) (hb : b.toNat < P) (hc : c.toNat < P) :
    fadd P (fadd P a b) c = fadd P a (fadd P b c) := by
  have hab := fadd_lt ha hb hP
  have hbc := fadd_lt hb hc hP
  refine toRing_inj (fadd_lt hab hc hP) (fadd_lt ha hbc hP) ?_
  rw [toRing_fadd hab hc hP, toRing_fadd ha hb hP, toRing_fadd ha hbc hP, toRing_fadd hb hc hP, add_assoc]

theorem fadd_zero (hP : P < 2 ^ 64) (ha : a.toNat < P) : fadd P a 0#64 = a := by
  have h0 := toNat_zero_lt (by omega : 0 < P)
  refine toRing_inj (fadd_lt ha h0 hP) ha ?_
  rw [toRing_fadd ha h0 hP, toRing_zero, add_zero]

theorem fsub_self (hP : P < 2 ^ 64) (ha : a.toNat < P) : fsub P a a = 0#64 := by
  refine toRing_inj (fsub_lt ha ha hP) (toNat_zero_lt (by omega)) ?_
  rw [toRing_fsub ha ha hP, toRing_zero, sub_self]

/-- Subtraction adds the opposite `0 - b`. -/
theorem fsub_eq_fadd_neg (hP : P < 2 ^ 64) (ha : a.toNat < P) (hb : b.toNat < P) :
    fsub P a b = fadd P a (fsub P 0#64 b) := by
  have h0 := toNat_zero_lt (by omega : 0 < P)
  have hneg := fsub_lt h0 hb hP
  refine toRing_inj (fsub_lt ha hb hP) (fadd_lt ha hneg hP) ?_
  rw [toRing_fsub ha hb hP, toRing_fadd ha hneg hP, toRing_fsub h0 hb hP, toRing_zero, zero_sub, sub_eq_add_neg]

theorem fsub_fadd_cancel (hP : P < 2 ^ 64) (ha : a.toNat < P) (hb : b.toNat < P) :
    fadd P (fsub P a b) b = a := by
  have hab := fsub_lt ha hb hP
  refine toRing_inj (fadd_lt hab hb hP) ha ?_
  rw [toRing_fadd hab hb hP, toRing_fsub ha hb hP, sub_add_cancel]

/-! ### The multiplier -/

/-- The multiplier is commutative on all words, reduced or not. -/
theorem fmul_comm (P : Nat) (a b : Word) : fmul P a b = fmul P b a := by
  rw [fmul, fmul, mulw, mulw, Nat.mul_comm]

theorem fmul_assoc (h0 : 0 < P) (hP : P < 2 ^ 64) (a b c : Word) :
    fmul P (fmul P a b) c = fmul P a (fmul P b c) := by
  refine toRing_inj (fmul_lt h0 hP _ _) (fmul_lt h0 hP _ _) ?_
  simp only [toRing_fmul h0 hP, mul_assoc]

theorem fmul_fadd (h0 : 0 < P) (hP : P < 2 ^ 64) (a : Word) (hb : b.toNat < P) (hc : c.toNat < P) :
    fmul P a (fadd P b c) = fadd P (fmul P a b) (fmul P a c) := by
  have hab := fmul_lt h0 hP a b
  have hac := fmul_lt h0 hP a c
  refine toRing_inj (fmul_lt h0 hP _ _) (fadd_lt hab hac hP) ?_
  simp only [toRing_fadd hab hac hP, toRing_fmul h0 hP, toRing_fadd hb hc hP, mul_add]

theorem fmul_one (hP : P < 2 ^ 64) (ha : a.toNat < P) : fmul P a 1#64 = a := by
  have h0 : 0 < P := by omega
  refine toRing_inj (fmul_lt h0 hP _ _) ha ?_
  rw [toRing_fmul h0 hP, toRing_one, mul_one]

theorem fmul_zero (h0 : 0 < P) (hP : P < 2 ^ 64) (a : Word) : fmul P a 0#64 = 0#64 := by
  refine toRing_inj (fmul_lt h0 hP _ _) (toNat_zero_lt h0) ?_
  rw [toRing_fmul h0 hP, toRing_zero, mul_zero]

/-- A product is the word 1 exactly when it is 1 in the ring. -/
theorem fmul_eq_one_iff (h1 : 1 < P) (hP : P < 2 ^ 64) :
    fmul P a b = 1#64 ↔ toRing P a * toRing P b = 1 := by
  rw [← toRing_fmul (by omega) hP, ← toRing_one P]
  exact ⟨congrArg _, toRing_inj (fmul_lt (by omega) hP _ _) (toNat_one_lt h1)⟩

/-- A product is the word 1 exactly when the integer product leaves the remainder 1. -/
theorem fmul_eq_one_iff_mod (h0 : 0 < P) (hP : P < 2 ^ 64) :
    fmul P a b = 1#64 ↔ a.toNat * b.toNat % P = 1 := by
  rw [← BitVec.toNat_inj, toNat_fmul h0 hP]
  rfl

/-! ### Powers: the square-and-multiply equations -/

@[simp] theorem fpow_zero (P : Nat) (a : Word) : fpow P a 0 = 1#64 := rfl

theorem fpow_two_mul (h1 : 1 < P) (hP : P < 2 ^ 64) (a : Word) (e : Nat) :
    fpow P a (2 * e) = fpow P (fmul P a a) e := by
  refine toRing_inj (fpow_lt h1 hP _ _) (fpow_lt h1 hP _ _) ?_
  rw [toRing_fpow h1 hP, toRing_fpow h1 hP, toRing_fmul (by omega) hP, pow_mul, pow_two]

theorem fpow_succ (h1 : 1 < P) (hP : P < 2 ^ 64) (a : Word) (e : Nat) :
    fpow P a (e + 1) = fmul P a (fpow P a e) := by
  refine toRing_inj (fpow_lt h1 hP _ _) (fmul_lt (by omega) hP _ _) ?_
  rw [toRing_fmul (by omega) hP, toRing_fpow h1 hP, toRing_fpow h1 hP, pow_succ']

/-! ### The inverse (R97) -/

theorem finv_lt (h1 : 1 < P) (hP : P < 2 ^ 64) (a : Word) : (finv P a).toNat < P := fpow_lt h1 hP a (P - 2)

theorem toRing_ne_zero (ha : a.toNat < P) (hne : a ≠ 0#64) : toRing P a ≠ 0 :=
  fun h => hne (toRing_inj ha (toNat_zero_lt (by omega)) (by rw [h, toRing_zero]))

/-- The Fermat power inverts: `a * a^(P-2) = a^(P-1) = 1`. -/
theorem fmul_finv (hp : P.Prime) (hP : P < 2 ^ 64) (ha : a.toNat < P) (hne : a ≠ 0#64) :
    fmul P a (finv P a) = 1#64 := by
  have := Fact.mk hp
  have h2 := hp.two_le
  rw [fmul_eq_one_iff hp.one_lt hP, finv, toRing_fpow hp.one_lt hP, ← pow_succ', show P - 2 + 1 = P - 1 by omega]
  exact ZMod.pow_card_sub_one_eq_one (toRing_ne_zero ha hne)

/-- A reduced word has at most one reduced inverse. -/
theorem eq_of_fmul_eq_one (h1 : 1 < P) (hP : P < 2 ^ 64) (hb : b.toNat < P) (hy : y.toNat < P)
    (hab : fmul P a b = 1#64) (hay : fmul P a y = 1#64) : y = b := by
  rw [fmul_eq_one_iff h1 hP] at hab hay
  exact toRing_inj hy hb (left_inv_eq_right_inv ((mul_comm _ _).trans hay) hab)

/-- The inverse of a nonzero word is the one reduced word that multiplies with it to 1. -/
theorem eq_finv_of_fmul_eq_one (hp : P.Prime) (hP : P < 2 ^ 64) (ha : a.toNat < P) (hne : a ≠ 0#64)
    (hy : y.toNat < P) (hay : fmul P a y = 1#64) : y = finv P a :=
  eq_of_fmul_eq_one hp.one_lt hP (finv_lt hp.one_lt hP a) hy (fmul_finv hp hP ha hne) hay

/-! ### The largest reduced word -/

/-- The largest reduced word, `P - 1` (R104). -/
def topWord (P : Nat) : Word := BitVec.ofNat 64 (P - 1)

theorem toNat_topWord (hP : P < 2 ^ 64) : (topWord P).toNat = P - 1 := toNat_ofNat_of_lt (by omega)

theorem topWord_lt (h0 : 0 < P) (hP : P < 2 ^ 64) : (topWord P).toNat < P := by
  rw [toNat_topWord hP]
  omega

/-- In the ring the largest reduced word is -1. -/
theorem toRing_topWord (h0 : 0 < P) (hP : P < 2 ^ 64) : toRing P (topWord P) = -1 := by
  rw [toRing, toNat_topWord hP, Nat.cast_sub (by omega), ZMod.natCast_self, Nat.cast_one, zero_sub]

theorem topWord_ne_zero (h1 : 1 < P) (hP : P < 2 ^ 64) : topWord P ≠ 0#64 := by
  intro h
  have := toNat_topWord hP
  simp only [h, BitVec.toNat_ofNat, Nat.zero_mod] at this
  omega

theorem toNat_fadd_topWord_topWord (h1 : 1 < P) (hP : P < 2 ^ 64) :
    (fadd P (topWord P) (topWord P)).toNat = P - 2 := by
  have ht := topWord_lt (by omega : 0 < P) hP
  rw [toNat_fadd ht ht hP, toNat_topWord hP, show P - 1 + (P - 1) = P - 2 + P by omega, Nat.add_mod_right,
    Nat.mod_eq_of_lt (by omega)]

theorem fadd_topWord_one (h1 : 1 < P) (hP : P < 2 ^ 64) : fadd P (topWord P) 1#64 = 0#64 := by
  have h0 : 0 < P := by omega
  have ht := topWord_lt h0 hP
  have ho := toNat_one_lt h1
  refine toRing_inj (fadd_lt ht ho hP) (toNat_zero_lt h0) ?_
  rw [toRing_fadd ht ho hP, toRing_topWord h0 hP, toRing_one, toRing_zero, neg_add_cancel]

theorem fsub_zero_one (h1 : 1 < P) (hP : P < 2 ^ 64) : fsub P 0#64 1#64 = topWord P := by
  have h0 : 0 < P := by omega
  have hz := toNat_zero_lt h0
  have ho := toNat_one_lt h1
  refine toRing_inj (fsub_lt hz ho hP) (topWord_lt h0 hP) ?_
  rw [toRing_fsub hz ho hP, toRing_topWord h0 hP, toRing_zero, toRing_one, zero_sub]

theorem fsub_zero_topWord (h1 : 1 < P) (hP : P < 2 ^ 64) : fsub P 0#64 (topWord P) = 1#64 := by
  have h0 : 0 < P := by omega
  have hz := toNat_zero_lt h0
  have ht := topWord_lt h0 hP
  refine toRing_inj (fsub_lt hz ht hP) (toNat_one_lt h1) ?_
  rw [toRing_fsub hz ht hP, toRing_topWord h0 hP, toRing_zero, toRing_one, zero_sub, neg_neg]

theorem fmul_topWord_topWord (h1 : 1 < P) (hP : P < 2 ^ 64) : fmul P (topWord P) (topWord P) = 1#64 := by
  rw [fmul_eq_one_iff h1 hP, toRing_topWord (by omega) hP, neg_mul_neg, mul_one]

theorem finv_one (hp : P.Prime) (hP : P < 2 ^ 64) : finv P 1#64 = 1#64 :=
  have h1 := toNat_one_lt hp.one_lt
  (eq_finv_of_fmul_eq_one hp hP h1 (by decide) h1 (fmul_one hP h1)).symm

theorem finv_topWord (hp : P.Prime) (hP : P < 2 ^ 64) : finv P (topWord P) = topWord P :=
  have ht := topWord_lt hp.pos hP
  (eq_finv_of_fmul_eq_one hp hP ht (topWord_ne_zero hp.one_lt hP) ht (fmul_topWord_topWord hp.one_lt hP)).symm

end Sys2Proof.Machine
end

section
/-! SUPPORT. The results of the units as words, and the field commands from issue to their end
(40_field_arithmetic.md R98 to R103). -/

namespace Sys2Proof.Machine

variable {s : State} {i : Instr}

/-! ### Results as words -/

theorem fadd_eq_ofNat {P : Nat} {a b : Word} (ha : a.toNat < P) (hb : b.toNat < P) (hP : P < 2 ^ 64) :
    fadd P a b = BitVec.ofNat 64 ((a.toNat + b.toNat) % P) := by
  rw [← toNat_fadd ha hb hP, BitVec.ofNat_toNat, BitVec.setWidth_eq]

theorem fsub_eq_ofNat {P : Nat} {a b : Word} (ha : a.toNat < P) (hb : b.toNat < P) (hP : P < 2 ^ 64) :
    fsub P a b = BitVec.ofNat 64 ((a.toNat + (P - b.toNat)) % P) := by
  rw [← toNat_fsub ha hb hP, BitVec.ofNat_toNat, BitVec.setWidth_eq]

theorem fmul_eq_ofNat (P : Nat) (a b : Word) : fmul P a b = BitVec.ofNat 64 (a.toNat * b.toNat % P) := by
  rw [fmul, fred, toNat_mulw]

theorem lowHalf_mulw (a b : Word) : lowHalf (mulw a b) = BitVec.ofNat 64 (a.toNat * b.toNat % 2 ^ 64) := by
  apply BitVec.eq_of_toNat_eq
  simp [lowHalf, toNat_mulw]

theorem highHalf_mulw (a b : Word) : highHalf (mulw a b) = BitVec.ofNat 64 (a.toNat * b.toNat / 2 ^ 64) := by
  apply BitVec.eq_of_toNat_eq
  simp [highHalf, toNat_mulw, Nat.shiftRight_eq_div_pow]

theorem fred_append (P : Nat) (hi lo : Word) :
    fred P (hi ++ lo : BitVec 128) = BitVec.ofNat 64 ((hi.toNat * 2 ^ 64 + lo.toNat) % P) := by
  rw [fred, toNat_append_eq_add, Nat.mul_comm]

/-! ### The checks -/

@[simp] theorem reduced_eq_true {P : Nat} {v : Word} : reduced P v = true ↔ v.toNat < P := by simp [reduced]

@[simp] theorem reduced_eq_false {P : Nat} {v : Word} : reduced P v = false ↔ P ≤ v.toNat := by simp [reduced]

@[simp] theorem State.checkTwoReduced_eq_none :
    s.checkTwoReduced = none ↔ s.opA.toNat < s.modulus ∧ s.opB.toNat < s.modulus := by
  simp [State.checkTwoReduced]

theorem State.checkTwoReduced_of_unreduced (h : s.modulus ≤ s.opA.toNat ∨ s.modulus ≤ s.opB.toNat) :
    s.checkTwoReduced = some (.fatal .unreduced) := by
  rw [State.checkTwoReduced, failIf_eq_some]
  simpa using h

@[simp] theorem checkFinv_eq_none : checkFinv s = none ↔ s.opA.toNat < s.modulus ∧ s.opA ≠ 0#64 := by
  simp [checkFinv]

theorem checkFinv_of_unreduced (h : s.modulus ≤ s.opA.toNat) : checkFinv s = some (.fatal .unreduced) := by
  rw [checkFinv, orElseCheck_eq_some, failIf_eq_some]
  exact .inl (by simpa using h)

/-- A zero operand raises INV_ZERO once it counts as reduced, which it does at any positive modulus. -/
theorem checkFinv_of_zero (h : s.opA = 0#64) (hP : 0 < s.modulus) : checkFinv s = some (.fatal .invZero) := by
  rw [checkFinv, orElseCheck_eq_some, failIf_eq_none, failIf_eq_some]
  exact .inr (by simpa [h, failIf] using hP)

/-! ### From issue to completion -/

/-- A command whose checks pass and whose execute step holds a scalar completes with that scalar in RES0. -/
theorem exec_of_scalar {lo : Word} (hr : s.Ready) (hc : checkOf i s = none)
    (hb : bodyOf i ((s.respond Response.okay).issue i) =
      ((((s.respond Response.okay).issue i).toPhase .exec).hold (.scalar lo)).commit) :
    exec i s = .next { s.completed i with res0 := lo } := by
  rw [exec_of_checked hr hc, hb]
  rfl

/-- A command of two operands (R98 to R100): with both reduced it completes with its result in RES0, and otherwise it
raises UNREDUCED. -/
theorem exec_of_twoReduced {lo v : Word} (hr : s.Ready) (hc : checkOf i s = s.checkTwoReduced)
    (hb : bodyOf i ((s.respond Response.okay).issue i) =
      ((((s.respond Response.okay).issue i).toPhase .exec).hold (.scalar lo)).commit)
    (hv : s.arg0.toNat < s.modulus → s.arg1.toNat < s.modulus → lo = v) :
    (s.arg0.toNat < s.modulus → s.arg1.toNat < s.modulus → exec i s = .next { s.completed i with res0 := v }) ∧
    (s.modulus ≤ s.arg0.toNat ∨ s.modulus ≤ s.arg1.toNat → EndsFatally i s FatalCode.unreduced.code) := by
  constructor
  · intro h0 h1
    rw [← hv h0 h1]
    exact exec_of_scalar hr (hc.trans (State.checkTwoReduced_eq_none.mpr ⟨h0, h1⟩)) hb
  · exact fun h => exec_endsFatally hr (hc.trans (State.checkTwoReduced_of_unreduced h))

/-- MULW has no check and completes with the two halves of the product (R101). -/
theorem exec_mulw (hr : s.Ready) : exec .mulw s = .next { s.completed .mulw with
    res0 := lowHalf (mulw s.arg0 s.arg1), res1 := highHalf (mulw s.arg0 s.arg1) } :=
  exec_of_checked hr rfl

end Sys2Proof.Machine
end

section
/-! PROOFS. The field units and the field commands (O8 to O16). -/

namespace Sys2Proof.Machine

/-- Settles O8: the adder is addition modulo `P` on reduced operands. -/
theorem faddAddsModuloP : Obligations.FaddAddsModuloP := by
  unfold Obligations.FaddAddsModuloP
  exact ⟨rfl, fun s hr => exec_of_twoReduced hr rfl rfl fun h0 h1 => fadd_eq_ofNat h0 h1 s.params.p.isLt⟩

/-- Settles O9: the subtractor is subtraction modulo `P` on reduced operands. -/
theorem fsubSubtractsModuloP : Obligations.FsubSubtractsModuloP := by
  unfold Obligations.FsubSubtractsModuloP
  exact ⟨rfl, fun s hr => exec_of_twoReduced hr rfl rfl fun h0 h1 => fsub_eq_ofNat h0 h1 s.params.p.isLt⟩

/-- Settles O10: the multiplier reduces the exact product. -/
theorem fmulMultipliesModuloP : Obligations.FmulMultipliesModuloP := by
  unfold Obligations.FmulMultipliesModuloP
  exact ⟨rfl, fun s hr => exec_of_twoReduced hr rfl rfl fun _ _ => fmul_eq_ofNat s.modulus s.arg0 s.arg1⟩

/-- Settles O11: the product fits 128 bits, so its halves are the remainder and the quotient by `2^64`. -/
theorem mulwGivesTheWholeProduct : Obligations.MulwGivesTheWholeProduct := by
  unfold Obligations.MulwGivesTheWholeProduct
  refine ⟨rfl, fun s hr => ?_⟩
  rw [← lowHalf_mulw, ← highHalf_mulw]
  exact exec_mulw hr

/-- Settles O12: the operand of the reducer is ARG1 above ARG0. -/
theorem fredReduces : Obligations.FredReduces := by
  unfold Obligations.FredReduces
  refine ⟨rfl, fun s hr => ?_⟩
  rw [← fred_append]
  exact exec_of_scalar hr rfl rfl

/-- Settles O13: RES0 is the Fermat power of ARG0, its one reduced inverse. -/
theorem finvInverts : Obligations.FinvInverts := by
  unfold Obligations.FinvInverts
  refine ⟨rfl, fun s hr => ⟨fun hC h0 hne => ?_, fun h => ?_, fun h hP => ?_⟩⟩
  · have hp : s.modulus.Prime := hC.prime
    have hP : s.modulus < 2 ^ 64 := s.params.p.isLt
    have hc : checkOf .finv s = none := checkFinv_eq_none.mpr ⟨h0, hne⟩
    refine ⟨finv s.modulus s.arg0, exec_of_scalar hr hc rfl, finv_lt hp.one_lt hP _, ?_, fun z hz hmul => ?_⟩
    · exact (fmul_eq_one_iff_mod hp.pos hP).mp (fmul_finv hp hP h0 hne)
    · exact eq_finv_of_fmul_eq_one hp hP h0 hne hz ((fmul_eq_one_iff_mod hp.pos hP).mpr hmul)
  · exact exec_endsFatally (i := .finv) hr (checkFinv_of_unreduced h)
  · exact exec_endsFatally (i := .finv) hr (checkFinv_of_zero h hP)

/-- Settles O14: squaring halves an even exponent, and an odd one is one factor more. -/
theorem fpowIsPower : Obligations.FpowIsPower := by
  unfold Obligations.FpowIsPower
  intro P a e h1 hP _
  refine ⟨toNat_fpow h1 hP a e, fpow_zero P a, fpow_two_mul h1 hP a e, ?_⟩
  rw [fpow_succ h1 hP, fpow_two_mul h1 hP]

/-- Settles O15: `finv` is the Fermat power by definition, and inverses modulo a prime are unique. -/
theorem finvIsTheUniqueInverse : Obligations.FinvIsTheUniqueInverse := by
  unfold Obligations.FinvIsTheUniqueInverse
  intro c a hC hpos ha
  have hp := hC.prime
  have hP : c.modulus < 2 ^ 64 := c.p.isLt
  have hne : a ≠ 0#64 := by
    rintro rfl
    exact absurd hpos (by decide)
  exact ⟨finv_lt hp.one_lt hP a, fmul_finv hp hP ha hne, rfl,
    fun y hy hay => eq_finv_of_fmul_eq_one hp hP ha hne hy hay⟩

/-- Settles O16: the laws hold in the ring of integers modulo `P`, where the largest reduced word is -1. -/
theorem fieldLaws : Obligations.FieldLaws := by
  unfold Obligations.FieldLaws
  intro C a b c hC ha hb hc
  have hp := hC.prime
  have h0 := hp.pos
  have h1 := hp.one_lt
  have hP : C.modulus < 2 ^ 64 := C.p.isLt
  exact ⟨fadd_comm hP ha hb, fadd_assoc hP ha hb hc, fmul_comm _ a b, fmul_assoc h0 hP a b c, fmul_fadd h0 hP a hb hc,
    fadd_zero hP ha, fmul_one hP ha, fmul_zero h0 hP a, fsub_eq_fadd_neg hP ha hb, fsub_self hP ha,
    fsub_fadd_cancel hP ha hb, fmul_finv hp hP ha, toNat_fadd_topWord_topWord h1 hP, fadd_topWord_one h1 hP,
    fsub_zero_one h1 hP, fsub_zero_topWord h1 hP, fmul_topWord_topWord h1 hP, finv_one hp hP, finv_topWord hp hP⟩

end Sys2Proof.Machine
end

section
/-! SUPPORT. The roots of unity, the inverses INIT stores beside them, and bit reversal
(41_twiddle_init.md R110 to R115). -/

namespace Sys2Proof.Machine

variable {c : Params} {k : Nat}

/-! ### The root of unity (R110) -/

/-- A power leaves the remainder `b` exactly when it is `b` in the ring. -/
theorem pow_mod_eq_toNat_iff {P : Nat} {a b : Word} (hb : b.toNat < P) (e : Nat) :
    a.toNat ^ e % P = b.toNat ↔ toRing P a ^ e = toRing P b := by
  rw [toRing, toRing, ← Nat.cast_pow, ZMod.natCast_eq_natCast_iff', Nat.mod_eq_of_lt hb]

theorem pow_mod_eq_one_iff {P : Nat} (h1 : 1 < P) (a : Word) (e : Nat) :
    a.toNat ^ e % P = 1 ↔ toRing P a ^ e = 1 := by
  rw [← toRing_one P]
  exact pow_mod_eq_toNat_iff (toNat_one_lt h1) e

theorem omega_lt (hC : c.Conforms) (k : Nat) : (omega c k).toNat < c.modulus := fpow_lt hC.prime.one_lt c.p.isLt _ _

theorem toRing_omega (hC : c.Conforms) (k : Nat) :
    toRing c.modulus (omega c k) = toRing c.modulus c.g ^ ((c.modulus - 1) / 2 ^ k) :=
  toRing_fpow hC.prime.one_lt c.p.isLt _ _

/-- Every size of the store divides `P - 1` (00_scope.md R6). -/
theorem two_pow_dvd_modulus_sub_one (hC : c.Conforms) (hk : k ≤ c.lognMax) : 2 ^ k ∣ c.modulus - 1 :=
  (pow_dvd_pow 2 (hk.trans hC.size_adicity)).trans (two_pow_twoAdicityUpTo_dvd 64 _)

/-- `G` has order `P - 1`, so its power with exponent `(P - 1) / 2^k` has order `2^k`. -/
theorem isPrimitiveRoot_omega (hC : c.Conforms) (hk : k ≤ c.lognMax) :
    IsPrimitiveRoot (toRing c.modulus (omega c k)) (2 ^ k) := by
  have hP := hC.modulus_large
  have ho : orderOf (toRing c.modulus c.g) = c.modulus - 1 := hC.generator
  have hroot : orderOf (toRing c.modulus (omega c k)) = 2 ^ k := by
    rw [toRing_omega hC, ← ho]
    exact orderOf_pow_orderOf_div (by omega) (ho ▸ two_pow_dvd_modulus_sub_one hC hk)
  exact hroot ▸ IsPrimitiveRoot.orderOf _

/-- The half power of `omega_k` has order 2, and -1 is the only element of order 2 in a field. -/
theorem toRing_omega_pow_half (hC : c.Conforms) (hk : k ≤ c.lognMax) (h1 : 1 ≤ k) :
    toRing c.modulus (omega c k) ^ 2 ^ (k - 1) = -1 := by
  have := Fact.mk hC.prime
  have hsplit : 2 ^ k = 2 ^ (k - 1) * 2 := by rw [← pow_succ, Nat.sub_add_cancel h1]
  exact ((isPrimitiveRoot_omega hC hk).pow (Nat.two_pow_pos k) hsplit).eq_neg_one_of_two_right

theorem omega_zero (hC : c.Conforms) : omega c 0 = 1#64 := by
  have h1 := hC.prime.one_lt
  have hroot := (isPrimitiveRoot_omega hC (Nat.zero_le _)).pow_eq_one
  rw [pow_zero, pow_one, ← toRing_one c.modulus] at hroot
  exact toRing_inj (omega_lt hC 0) (toNat_one_lt h1) hroot

/-- The root of a larger size is a root of the root of a smaller one. -/
theorem toRing_omega_add_pow (hC : c.Conforms) {d : Nat} (hd : k + d ≤ c.lognMax) :
    toRing c.modulus (omega c (k + d)) ^ 2 ^ d = toRing c.modulus (omega c k) := by
  have hdvd : 2 ^ d ∣ (c.modulus - 1) / 2 ^ k := by
    rw [Nat.dvd_div_iff_mul_dvd (two_pow_dvd_modulus_sub_one hC (by omega)), ← pow_add]
    exact two_pow_dvd_modulus_sub_one hC hd
  rw [toRing_omega hC, toRing_omega hC, ← pow_mul, pow_add, ← Nat.div_div_eq_div_mul, Nat.div_mul_cancel hdvd]

/-! ### The inverses (R111, R112, R114) -/

theorem omega_ne_zero (hC : c.Conforms) (hk : k ≤ c.lognMax) : omega c k ≠ 0#64 := by
  have := Fact.mk hC.prime
  intro h
  refine (isPrimitiveRoot_omega hC hk).ne_zero (Nat.two_pow_pos k).ne' ?_
  rw [h, toRing_zero]

theorem fmul_omega_finv (hC : c.Conforms) (hk : k ≤ c.lognMax) :
    fmul c.modulus (omega c k) (finv c.modulus (omega c k)) = 1#64 :=
  fmul_finv hC.prime c.p.isLt (omega_lt hC k) (omega_ne_zero hC hk)

/-- The inverse of `omega_k` is its last power below the order. -/
theorem finv_omega (hC : c.Conforms) (hk : k ≤ c.lognMax) :
    finv c.modulus (omega c k) = fpow c.modulus (omega c k) (2 ^ k - 1) := by
  have h1 := hC.prime.one_lt
  have hP : c.modulus < 2 ^ 64 := c.p.isLt
  refine (eq_finv_of_fmul_eq_one hC.prime hP (omega_lt hC k) (omega_ne_zero hC hk) (fpow_lt h1 hP _ _) ?_).symm
  rw [fmul_eq_one_iff h1 hP, toRing_fpow h1 hP, ← pow_succ', Nat.sub_add_cancel Nat.one_le_two_pow]
  exact (isPrimitiveRoot_omega hC hk).pow_eq_one

/-- A size of the store is a nonzero reduced word. -/
theorem two_pow_lt_modulus (hC : c.Conforms) (hk : k ≤ c.lognMax) : 2 ^ k < c.modulus :=
  calc 2 ^ k ≤ 2 ^ 63 := Nat.pow_le_pow_right (by omega) (by have := hC.size; omega)
    _ < c.modulus := hC.modulus_large

/-- `NINV` inverts the size modulo `P`. -/
theorem two_pow_mul_ninvOf_mod (hC : c.Conforms) (hk : k ≤ c.lognMax) :
    2 ^ k * (ninvOf c.modulus k).toNat % c.modulus = 1 := by
  have hP : c.modulus < 2 ^ 64 := c.p.isLt
  have hlt := two_pow_lt_modulus hC hk
  have hn : (BitVec.ofNat 64 (2 ^ k)).toNat = 2 ^ k := toNat_ofNat_of_lt (hlt.trans hP)
  have hne : BitVec.ofNat 64 (2 ^ k) ≠ 0#64 := by
    intro h
    rw [h] at hn
    exact (Nat.two_pow_pos k).ne hn
  have hinv := (fmul_eq_one_iff_mod hC.prime.pos hP).mp (fmul_finv hC.prime hP (by rwa [hn]) hne)
  rw [ninvOf, Nat.mod_eq_of_lt hlt]
  rwa [hn] at hinv

/-- Powers of inverse words are inverse to each other. -/
theorem fmul_fpow_fpow {P : Nat} {a b : Word} (h1 : 1 < P) (hP : P < 2 ^ 64) (h : fmul P a b = 1#64) (e : Nat) :
    fmul P (fpow P a e) (fpow P b e) = 1#64 := by
  rw [fmul_eq_one_iff h1 hP] at h ⊢
  rw [toRing_fpow h1 hP, toRing_fpow h1 hP, ← mul_pow, h, one_pow]

/-! ### Bit reversal (R115) -/

/-- The lowest bit becomes the highest one; the bits above it are reversed among themselves. -/
theorem bitReverse_succ (k i : Nat) : bitReverse (k + 1) i = 2 ^ k * (i % 2) + bitReverse k (i / 2) := by
  have hbit (b : Nat) : i / 2 ^ (b + 1) % 2 * 2 ^ (k + 1 - 1 - (b + 1)) = i / 2 / 2 ^ b % 2 * 2 ^ (k - 1 - b) := by
    rw [Nat.pow_succ', ← Nat.div_div_eq_div_mul, show k + 1 - 1 - (b + 1) = k - 1 - b by omega]
  simp only [bitReverse, List.range_succ_eq_map, List.map_cons, List.map_map, List.sum_cons, Function.comp_def,
    Nat.succ_eq_add_one, hbit]
  simp [Nat.mul_comm]

theorem bitReverse_lt (k i : Nat) : bitReverse k i < 2 ^ k := by
  induction k generalizing i with
  | zero => simp [bitReverse]
  | succ k ih =>
    have hlow := ih (i / 2)
    rw [bitReverse_succ, pow_succ]
    rcases Nat.mod_two_eq_zero_or_one i with hi | hi <;> rw [hi] <;> omega

/-- Bit `k-1-b` of the `k`-bit reversal is bit `b`. -/
theorem testBit_bitReverse (k i : Nat) {b : Nat} (hb : b < k) :
    (bitReverse k i).testBit (k - 1 - b) = i.testBit b := by
  induction k generalizing i b with
  | zero => omega
  | succ k ih =>
    rw [bitReverse_succ, Nat.testBit_two_pow_mul_add _ (bitReverse_lt k _)]
    cases b with
    | zero => simp [Nat.testBit_zero]
    | succ b =>
      rw [if_pos (by omega), show k + 1 - 1 - (b + 1) = k - 1 - b by omega, ih _ (by omega), Nat.testBit_succ]

/-- Reversing twice puts every bit back in its place. -/
theorem bitReverse_bitReverse {i : Nat} (hi : i < 2 ^ k) : bitReverse k (bitReverse k i) = i := by
  refine Nat.eq_of_testBit_eq fun j => ?_
  by_cases hj : j < k
  · have houter := testBit_bitReverse k (bitReverse k i) (b := k - 1 - j) (by omega)
    rw [show k - 1 - (k - 1 - j) = j by omega] at houter
    rw [houter, testBit_bitReverse k i hj]
  · have hpow : 2 ^ k ≤ 2 ^ j := Nat.pow_le_pow_right (by omega) (by omega)
    rw [Nat.testBit_lt_two_pow ((bitReverse_lt k _).trans_le hpow), Nat.testBit_lt_two_pow (hi.trans_le hpow)]

end Sys2Proof.Machine
end

section
/-! PROOFS. The values of the tables (O17, O18, O19). -/

namespace Sys2Proof.Machine

/-- Settles O17: `omega_k` is a primitive `2^k`-th root of unity in the field of integers modulo `P`. -/
theorem rootOfUnityHasItsOrder : Obligations.RootOfUnityHasItsOrder := by
  unfold Obligations.RootOfUnityHasItsOrder
  intro c k hC hk
  have h1 := hC.prime.one_lt
  have hP : c.modulus < 2 ^ 64 := c.p.isLt
  have hroot := isPrimitiveRoot_omega hC hk
  refine ⟨toNat_fpow h1 hP _ _, ?_, fun e he hlt => ?_, fun hpos => ?_, omega_zero hC, fun d hd => ?_⟩
  · exact (pow_mod_eq_one_iff h1 _ _).mpr hroot.pow_eq_one
  · rw [ne_eq, pow_mod_eq_one_iff h1]
    exact hroot.pow_ne_one_of_pos_of_lt he.ne' hlt
  · rw [← toNat_topWord hP, pow_mod_eq_toNat_iff (topWord_lt hC.prime.pos hP), toRing_topWord hC.prime.pos hP]
    exact toRing_omega_pow_half hC hk hpos
  · exact (pow_mod_eq_toNat_iff (omega_lt hC k) _).mpr (toRing_omega_add_pow hC hd)

/-- Settles O18: the inverse root inverts the root, and so do its powers entry by entry. -/
theorem inverseTablesInvert : Obligations.InverseTablesInvert := by
  unfold Obligations.InverseTablesInvert
  intro c k b hC hk hb
  have h1 := hC.prime.one_lt
  have hP : c.modulus < 2 ^ 64 := c.p.isLt
  have hinv := fmul_omega_finv hC hk
  refine ⟨?_, ?_, ?_, fun j hj => ?_⟩
  · rw [hb.root, hb.rootinv, hinv]
  · rw [hb.rootinv, finv_omega hC hk, toNat_fpow h1 hP]
  · rw [hb.ninv]
    exact two_pow_mul_ninvOf_mod hC hk
  · rw [hb.twf j hj, hb.twi j hj]
    exact fmul_fpow_fpow h1 hP hinv j

/-- Settles O19: bit by bit, from the recursion on the number of bits. -/
theorem bitReversalIsAnInvolution : Obligations.BitReversalIsAnInvolution := by
  unfold Obligations.BitReversalIsAnInvolution
  exact fun k i hi => ⟨bitReverse_lt k i, bitReverse_bitReverse hi, fun _ hb => testBit_bitReverse k i hb⟩

end Sys2Proof.Machine
end

section
/-! SUPPORT. INIT and TEARDOWN from issue to completion (41_twiddle_init.md R116 to R119). -/

namespace Sys2Proof.Machine

variable {s : State} {k : Nat}

/-! ### Ordered checks -/

theorem orElseCheck_of_none {a : Option Raise} (h : a = none) (f : Unit → Option Raise) : orElseCheck a f = f () := by
  rw [h, orElseCheck]

theorem orElseCheck_of_some {a : Option Raise} {r : Raise} (h : a = some r) (f : Unit → Option Raise) :
    orElseCheck a f = some r := by
  rw [h, orElseCheck]

theorem checkPow2_of_not_isPow2 {n : Nat} (h : ¬ IsPow2 n) : checkPow2 n = some (.fatal .notPow2) := by
  simp [checkPow2, failIf, ispow2_false_iff.mpr h]

theorem checkPow2_of_isPow2 {n : Nat} (h : IsPow2 n) : checkPow2 n = none := checkPow2_eq_none.mpr (ispow2_iff.mpr h)

/-! ### INIT (R116) -/

theorem checkInit_of_not_isPow2 (h : ¬ IsPow2 s.opN) : checkInit s = some (.fatal .notPow2) :=
  orElseCheck_of_some (checkPow2_of_not_isPow2 h) _

/-- Past its first check INIT compares the size with that of the store. -/
theorem checkInit_of_two_pow (h : s.opN = 2 ^ k) :
    checkInit s = failIf (decide (s.params.lognMax < k)) (.fail .capacity) := by
  rw [checkInit, orElseCheck_of_none (checkPow2_of_isPow2 ⟨k, h⟩), log2_eq h]

/-- Bundle `k` as INIT leaves it: with the values of R110 to R115, and valid. -/
def Bundle.initialise (c : Params) (k : Nat) (b : Bundle) : Bundle := { b.generate c k with valid := true }

theorem Bundle.initialise_holds (c : Params) (k : Nat) (b : Bundle) : (b.initialise c k).Holds c k :=
  (b.generate_holds c k).validate

/-- The state INIT leaves: the command has completed and bundle `k` is initialised. -/
def State.initialised (s : State) (k : Nat) : State :=
  { s.completed .init with bundles := s.bundles.modify k (Bundle.initialise s.params k) }

/-- INIT of a size of the store computes its bundle and then sets its VALID bit. -/
theorem exec_init (hr : s.Ready) (h : s.opN = 2 ^ k) (hk : k ≤ s.params.lognMax) :
    exec .init s = .next (s.initialised k) := by
  have hc : checkOf .init s = none := (checkInit_of_two_pow h).trans (by simp [hk])
  have hbody : bodyOf .init ((s.respond Response.okay).issue .init) = { s.completed .init with
      bundles := (s.bundles.modify (Nat.log2 s.opN) (Bundle.generate s.params (Nat.log2 s.opN))).modify
        (Nat.log2 s.opN) fun b => { b with valid := true } } := rfl
  rw [exec_of_checked hr hc, hbody, log2_eq h, List.modify_modify_eq]
  rfl

/-- Writing a table twice into a canonical memory is writing it once. -/
theorem Memory.writeFrom_range_twice {m : Memory} (h : m.wf = true) (f : Nat → Word) (n : Nat) :
    (m.writeFrom 0 ((List.range n).map f)).writeFrom 0 ((List.range n).map f) =
      m.writeFrom 0 ((List.range n).map f) := by
  refine Memory.writeFrom_eq_self (Memory.writeFrom_wf _ h 0) f fun x hx => ?_
  rw [Memory.get_writeFrom, if_pos (by simpa using hx)]
  simp [hx]

/-- A second INIT computes the same values (R117). -/
theorem Bundle.initialise_initialise {b : Bundle} (h : b.wf = true) (c : Params) (k : Nat) :
    (b.initialise c k).initialise c k = b.initialise c k := by
  simp only [Bundle.wf, Bool.and_eq_true] at h
  obtain ⟨⟨htwf, htwi⟩, hbrev⟩ := h
  simp only [Bundle.initialise, Bundle.generate, powerTable, bitReverseTable, Memory.writeFrom_range_twice htwf,
    Memory.writeFrom_range_twice htwi, Memory.writeFrom_range_twice hbrev]

theorem State.initialised_initialised (h : s.memoriesWf = true) (k : Nat) :
    (s.initialised k).initialised k = s.initialised k := by
  obtain ⟨-, -, -, -, hwf⟩ := (State.memoriesWf_iff s).mp h
  have hbundles : (s.bundles.modify k (Bundle.initialise s.params k)).modify k (Bundle.initialise s.params k) =
      s.bundles.modify k (Bundle.initialise s.params k) := by
    refine List.ext_getElem (by simp) fun j _ _ => ?_
    simp only [List.getElem_modify]
    split
    · exact Bundle.initialise_initialise (hwf _ (List.getElem_mem _)) s.params k
    · rfl
  exact congrArg (fun bs => ({ s.completed .init with bundles := bs } : State)) hbundles

/-! ### TEARDOWN (R118) -/

theorem validBits_of_invalid {bs : List Bundle} (h : ∀ b ∈ bs, b.valid = false) : validBits bs = 0 := by
  induction bs with
  | nil => rfl
  | cons b bs ih =>
    rw [List.forall_mem_cons] at h
    obtain ⟨hb, hbs⟩ := h
    simp [validBits, hb, ih hbs]

/-- The state TEARDOWN leaves: the command has completed and every bundle is invalid, with new unspecified bits. -/
def State.tornDown (s : State) : State :=
  { s.completed .teardown with
    bundles := bundlesUnspecified s.bundles.length s.draws, draws := s.draws + 4 * s.bundles.length }

/-- TEARDOWN has no check. -/
theorem exec_teardown (hr : s.Ready) : exec .teardown s = .next s.tornDown := exec_of_checked hr rfl

theorem State.tornDown_invalid (s : State) : ∀ b ∈ s.tornDown.bundles, b.valid = false := by
  intro b hb
  obtain ⟨e, rfl⟩ := mem_bundlesUnspecified hb
  rfl

theorem State.tornDown_ready (hr : s.Ready) : s.tornDown.Ready := ⟨rfl, hr.2⟩

/-- No size is initialised after TEARDOWN (R119). -/
theorem State.tornDown_uninit (s : State) (L : Nat) : s.tornDown.Uninit L := by
  refine .inr ?_
  unfold State.validBit
  split
  · exact s.tornDown_invalid _ (List.mem_of_getElem? ‹_›)
  · rfl

/-! ### Transforms of an uninitialised size (R119) -/

theorem checkNtt_of_uninit (hn : IsPow2 s.opN) (hu : s.Uninit (Nat.log2 s.opN)) :
    checkNtt s = some (.fatal .uninit) := by
  rw [checkNtt, orElseCheck_of_none (checkPow2_of_isPow2 hn), orElseCheck_of_some (State.checkBundle_of_uninit hu)]

theorem checkIntt_of_uninit (hn : IsPow2 s.opN) (hu : s.Uninit (Nat.log2 s.opN)) :
    checkIntt s = some (.fatal .uninit) :=
  checkNtt_of_uninit hn hu

theorem checkInttc_of_uninit (hn : IsPow2 s.opN) (hu : s.Uninit (Nat.log2 s.opN)) :
    checkInttc s = some (.fatal .uninit) := by
  rw [checkInttc, orElseCheck_of_none (checkPow2_of_isPow2 hn), orElseCheck_of_some (State.checkBundle_of_uninit hu)]

/-- NTTC reads the VALID bit of size `n · b` after its checks of size and result length (43_coset.md R152). -/
theorem checkNttc_of_uninit (hn : IsPow2 s.opN) (hm : IsPow2 s.opM) (hlt : s.opM < 2 ^ 64)
    (hlen : s.opResultLen = s.opM) (hu : s.Uninit (Nat.log2 s.opM)) : checkNttc s = some (.fatal .uninit) := by
  have hsize : failIf (decide (2 ^ 64 ≤ s.opM) || !ispow2 s.opM) (.fatal .notPow2) = none := by
    simpa using ⟨hlt, ispow2_iff.mpr hm⟩
  have hresult : failIf (!decide (s.opResultLen = s.opM)) (.fatal .resultLen) = none := by simpa using hlen
  rw [checkNttc, orElseCheck_of_none (checkPow2_of_isPow2 hn), orElseCheck_of_none hsize, orElseCheck_of_none hresult,
    orElseCheck_of_some (State.checkBundle_of_uninit hu)]

end Sys2Proof.Machine
end

section
/-! PROOFS. The commands INIT and TEARDOWN (O20, O21, O22). -/

namespace Sys2Proof.Machine

/-- Settles O20: the two checks of INIT in order, then bundle `log2 n` as `State.initialised` has it. -/
theorem initBuildsItsBundle : Obligations.InitBuildsItsBundle := by
  unfold Obligations.InitBuildsItsBundle
  refine ⟨rfl, fun s hr hlen => ⟨fun hn => ?_, fun k h hk => ?_, fun k h hk => ?_⟩⟩
  · exact exec_endsFatally (i := .init) hr (checkInit_of_not_isPow2 hn)
  · exact exec_callFails (i := .init) (c := .capacity) hr ((checkInit_of_two_pow h).trans (by simp [failIf, hk]))
  · have hin : k < s.bundles.length := by omega
    refine ⟨s.bundles.modify k (Bundle.initialise s.params k), s.bundles[k].initialise s.params k, exec_init hr h hk,
      List.length_modify _ _ _, ?_, rfl, Bundle.initialise_holds _ _ _, fun j hj => ?_⟩
    · simp [hin]
    · exact List.getElem?_modify_ne _ _ hj.symm

/-- Settles O21: INIT changes the status, which the second run leaves as it is, and a bundle whose canonical tables the
second run writes again with the same words. -/
theorem initIsIdempotent : Obligations.InitIsIdempotent := by
  unfold Obligations.InitIsIdempotent
  intro s t hinv hr h hk hexec
  obtain rfl : s.initialised (Nat.log2 s.arg0.toNat) = t := by simpa [exec_init hr h hk] using hexec
  have hagain := exec_init (s := s.initialised (Nat.log2 s.arg0.toNat)) ⟨rfl, hr.2⟩ h hk
  rwa [State.initialised_initialised hinv.canonical] at hagain

/-- Settles O22: TEARDOWN leaves no valid bundle, so every transform that comes to the check of its VALID bit raises
UNINIT. -/
theorem teardownInvalidatesEveryBundle : Obligations.TeardownInvalidatesEveryBundle := by
  unfold Obligations.TeardownInvalidatesEveryBundle
  refine ⟨rfl, fun s hr => ⟨s.tornDown, exec_teardown hr, rfl, s.tornDown_invalid, ?_, fun hn => ?_,
    fun hn hm hlt hlen => ?_⟩⟩
  · rw [State.validWord, validBits_of_invalid s.tornDown_invalid]
  · have hr' := State.tornDown_ready hr
    have hu := s.tornDown_uninit (Nat.log2 s.arg0.toNat)
    exact ⟨exec_endsFatally (i := .ntt) hr' (checkNtt_of_uninit hn hu),
      exec_endsFatally (i := .intt) hr' (checkIntt_of_uninit hn hu),
      exec_endsFatally (i := .inttc) hr' (checkInttc_of_uninit hn hu)⟩
  · exact exec_endsFatally (i := .nttc) (State.tornDown_ready hr)
      (checkNttc_of_uninit hn hm hlt hlen (s.tornDown_uninit _))

end Sys2Proof.Machine
end

section
/-! SUPPORT. NTT and INTT from issue to completion: their checks in order (42_transform.md R129; 60_exceptions.md R177)
and the commit of the pipeline's result (R127, R128, R130 to R139). -/

namespace Sys2Proof.Machine

variable {s t : State} {i : Instr} {L : Nat}

/-! ### The checks -/

/-- INTT makes the checks of NTT (R129). -/
theorem checkOf_eq_checkNtt (hi : i = .ntt ∨ i = .intt) (s : State) : checkOf i s = checkNtt s := by
  rcases hi with rfl | rfl <;> rfl

theorem checkNtt_of_not_isPow2 (h : ¬ IsPow2 s.opN) : checkNtt s = some (.fatal .notPow2) :=
  orElseCheck_of_some (checkPow2_of_not_isPow2 h) _

/-- Past the checks of size and bundle NTT scans its input. -/
theorem checkNtt_of_init (h : s.opN = 2 ^ L) (hu : ¬ s.Uninit L) : checkNtt s = s.checkInput s.opN := by
  rw [checkNtt, orElseCheck_of_none (checkPow2_of_isPow2 ⟨L, h⟩), log2_eq h,
    orElseCheck_of_none (State.checkBundle_of_init hu)]

theorem checkNtt_of_reduced (h : s.opN = 2 ^ L) (hu : ¬ s.Uninit L) (hin : s.InputReduced (2 ^ L)) :
    checkNtt s = none := by
  rw [checkNtt_of_init h hu, h]
  exact State.checkInput_of_reduced hin

/-! ### The kernels -/

theorem kernelOf_ntt (h : s.opN = 2 ^ L) :
    kernelOf .ntt s = some { logSize := L, inverse := false, pre := s.vin.read, post := fun _ v => v } := by
  rw [kernelOf, kernelNtt, log2_eq h]

theorem kernelOf_intt (h : s.opN = 2 ^ L) :
    kernelOf .intt s = some { logSize := L, inverse := true, pre := s.vin.read,
                              post := fun _ v => fmul s.modulus v (s.bundle L).ninv } := by
  rw [kernelOf, kernelIntt, log2_eq h]

/-! ### Completion -/

theorem State.NoDeviceFailure.devicePending (h : s.NoDeviceFailure) : s.devicePending = false := by
  rcases h with h | h <;> simp [State.devicePending, h]

/-- A transform that passes its checks, with no device failure pending, commits its result vector to VOUT and changes
nothing else the host can see. -/
theorem exec_transform {k : Kernel} (hr : s.Ready) (hc : checkOf i s = none) (hk : kernelOf i s = some k)
    (hd : s.NoDeviceFailure) : ∃ t, exec i s = .next t ∧ TransformKept s t ∧
      VoutHolds s t (2 ^ k.logSize) (s.resultOf k) ∧ t.devFault = s.devFault := by
  have hbody := bodyOf_of_kernel ((kernelOf_issued i s Response.okay).trans hk)
  obtain ⟨b0, b1, sel, he⟩ := runTransform_eq (k := k) (s := (s.respond Response.okay).issue i) hd.devicePending
  refine ⟨_, exec_of_checked hr hc, ?_⟩
  rw [hbody, he]
  refine ⟨⟨rfl, rfl, rfl, rfl, rfl, rfl, rfl, rfl, rfl, rfl, rfl, rfl, hr.2, rfl⟩,
    ⟨fun j hj => ?_, fun j hj => ?_⟩, rfl⟩
  · exact Memory.read_writeFrom_range s.vout (s.resultOf k) hj
  · exact Memory.read_writeFrom_range_outside s.vout (s.resultOf k) hj

/-- A transform that completes leaves the device as it found it (60_exceptions.md R179). -/
theorem State.NoDeviceFailure.of_transform {k : Kernel} (hd : s.NoDeviceFailure) (hr : s.Ready)
    (hc : checkOf i s = none) (hk : kernelOf i s = some k) (he : exec i s = .next t) : t.NoDeviceFailure := by
  obtain ⟨t', he', hkept, -, hdev⟩ := exec_transform hr hc hk hd
  obtain rfl : t' = t := by simpa [he'] using he
  rwa [State.NoDeviceFailure, hkept.params, hdev]

theorem State.BundleReady.not_uninit (h : s.BundleReady L) : ¬ s.Uninit L := by
  obtain ⟨hle, hvalid, -⟩ := h
  rintro (hlt | hinvalid)
  · omega
  · simp [hvalid] at hinvalid

/-- Whether a bundle is ready depends on the parameters and the registry alone. -/
theorem State.BundleReady.congr (h : s.BundleReady L) (hp : t.params = s.params) (hb : t.bundles = s.bundles) :
    t.BundleReady L := by
  rwa [State.BundleReady, State.validBit, State.bundle, hp, hb]

end Sys2Proof.Machine
end

section
/-! PROOFS. The checks and the completion of NTT and INTT (O23, O26, O27). -/

namespace Sys2Proof.Machine

/-- Settles O23: the checks of R129 one after another. -/
theorem nttAndInttCheckInOrder : Obligations.NttAndInttCheckInOrder := by
  unfold Obligations.NttAndInttCheckInOrder
  intro s hr i hi
  have hc := checkOf_eq_checkNtt hi s
  refine ⟨fun hn => ?_, fun L h => ⟨fun hu => ?_, fun hu hbad => ?_⟩⟩
  · exact exec_endsFatally (c := .notPow2) hr (hc.trans (checkNtt_of_not_isPow2 hn))
  · exact exec_endsFatally (c := .uninit) hr (hc.trans (checkNtt_of_uninit ⟨L, h⟩ (by rwa [State.opN, log2_eq h])))
  · have hscan := State.checkInput_of_unreduced hbad
    exact exec_endsFatally (c := .unreduced) hr (hc.trans ((checkNtt_of_init h hu).trans hscan))

/-- Settles O26: the result vector of the kernel of NTT is what the stages leave. -/
theorem nttCompletes : Obligations.NttCompletes := by
  unfold Obligations.NttCompletes
  intro s L hr h hu hin hd
  obtain ⟨t, he, hkept, hvout, -⟩ :=
    exec_transform (i := .ntt) hr (checkNtt_of_reduced h hu hin) (kernelOf_ntt h) hd
  exact ⟨t, he, hkept, hvout⟩

/-- Settles O27: the kernel of INTT rescales what the stages leave. -/
theorem inttCompletes : Obligations.InttCompletes := by
  unfold Obligations.InttCompletes
  intro s L hr h hu hin hd
  obtain ⟨t, he, hkept, hvout, -⟩ :=
    exec_transform (i := .intt) hr (checkNtt_of_reduced h hu hin) (kernelOf_intt h) hd
  exact ⟨t, he, hkept, hvout⟩

end Sys2Proof.Machine
end

section
/-! SUPPORT. The stages as the closed sum of R125, and the roots the tables are made of (42_transform.md R125, R126,
R148). -/

namespace Sys2Proof.Machine

variable {P L : Nat} {w : Word} {f : Nat → Word}

/-- The closed sum in the ring of integers modulo `P`. -/
theorem natCast_forwardSum (P m : Nat) (w : Word) (f : Nat → Word) (j : Nat) :
    (forwardSum P m w f j : ZMod P) = ∑ i ∈ Finset.range m, toRing P (f i) * toRing P w ^ (i * j) := by
  simp [forwardSum, toRing]

theorem forwardSum_lt (h0 : 0 < P) (m : Nat) (w : Word) (f : Nat → Word) (j : Nat) : forwardSum P m w f j < P :=
  Nat.mod_lt _ h0

/-- The closed sum of an element-wise sum is the sum of the closed sums (R149). -/
theorem forwardSum_fadd {g fg : Nat → Word} {m : Nat} (hP : P < 2 ^ 64)
    (h : ∀ i, i < m → (f i).toNat < P ∧ (g i).toNat < P ∧ fg i = fadd P (f i) (g i)) (w : Word) (j : Nat) :
    forwardSum P m w fg j = (forwardSum P m w f j + forwardSum P m w g j) % P := by
  have hterm : ∀ i ∈ Finset.range m, toRing P (fg i) * toRing P w ^ (i * j) =
      toRing P (f i) * toRing P w ^ (i * j) + toRing P (g i) * toRing P w ^ (i * j) := by
    intro i hi
    obtain ⟨hf, hg, hfg⟩ := h i (Finset.mem_range.mp hi)
    rw [hfg, toRing_fadd hf hg hP, add_mul]
  have hcast : (forwardSum P m w fg j : ZMod P) = (forwardSum P m w f j + forwardSum P m w g j : Nat) := by
    simp only [Nat.cast_add, natCast_forwardSum, Finset.sum_congr rfl hterm, Finset.sum_add_distrib]
  have hmod := (ZMod.natCast_eq_natCast_iff' _ _ _).mp hcast
  rwa [forwardSum, Nat.mod_mod, ← forwardSum] at hmod

/-- All `L` stages with the powers of `w` as table leave the forward transform, in natural order (R148): the last stage
of `stockham_cell`, where the stride is 1. -/
theorem stockham_eq_forwardSum {tw : Nat → Word} (h1 : 1 < P) (hP : P < 2 ^ 64)
    (hf : ∀ i, i < 2 ^ L → (f i).toNat < P) (htw : ∀ e, e < 2 ^ L / 2 → tw e = fpow P w e)
    (hw : 1 ≤ L → toRing P w ^ 2 ^ (L - 1) = -1) {j : Nat} (hj : j < 2 ^ L) :
    (stockham P tw L L f j).toNat = forwardSum P (2 ^ L) w f j := by
  have h0 : 0 < P := by omega
  have htable : ∀ e, e < 2 ^ L / 2 → toRing P (tw e) = toRing P w ^ e := fun e he => by
    rw [htw e he, toRing_fpow h1 hP]
  have hcell := stockham_cell h1 hP hf htable hw L le_rfl 0 j (by simp) hj
  simp only [Nat.sub_self, pow_zero, Nat.zero_add, Nat.one_mul] at hcell
  rw [← natCast_forwardSum, toRing, ZMod.natCast_eq_natCast_iff'] at hcell
  rwa [Nat.mod_eq_of_lt (stockham_lt h0 hP hf L le_rfl j hj), Nat.mod_eq_of_lt (forwardSum_lt h0 _ _ _ _)] at hcell

/-! ### The inverse root (R111) -/

variable {c : Params} {k : Nat}

theorem toRing_finv_omega [Fact c.modulus.Prime] (hC : c.Conforms) (hk : k ≤ c.lognMax) :
    toRing c.modulus (finv c.modulus (omega c k)) = (toRing c.modulus (omega c k))⁻¹ :=
  eq_inv_of_mul_eq_one_right ((fmul_eq_one_iff hC.prime.one_lt c.p.isLt).mp (fmul_omega_finv hC hk))

theorem toRing_finv_omega_pow_half (hC : c.Conforms) (hk : k ≤ c.lognMax) (h1 : 1 ≤ k) :
    toRing c.modulus (finv c.modulus (omega c k)) ^ 2 ^ (k - 1) = -1 := by
  have := Fact.mk hC.prime
  rw [toRing_finv_omega hC hk, inv_pow, toRing_omega_pow_half hC hk h1, inv_neg_one]

/-- In the ring `NINV` inverts the size (R112). -/
theorem two_pow_mul_toRing_ninvOf (hC : c.Conforms) (hk : k ≤ c.lognMax) :
    (2 : ZMod c.modulus) ^ k * toRing c.modulus (ninvOf c.modulus k) = 1 := by
  have h := congrArg (Nat.cast (R := ZMod c.modulus)) (two_pow_mul_ninvOf_mod hC hk)
  simpa [toRing] using h

/-- The table of size 1 holds `NINV[0] = 1`. -/
theorem ninvOf_zero (hC : c.Conforms) : ninvOf c.modulus 0 = 1#64 := by
  rw [ninvOf, pow_zero, Nat.mod_eq_of_lt hC.prime.one_lt]
  exact finv_one hC.prime c.p.isLt

/-! ### The inverse transform undoes the forward one (R149) -/

/-- The powers of a primitive `n`-th root of unity are orthogonal. -/
theorem sum_pow_mul_inv_pow {K : Type} [Field K] {w : K} {n : Nat} (hw : IsPrimitiveRoot w n) {u i : Nat} (hu : u < n)
    (hi : i < n) : ∑ j ∈ Finset.range n, w ^ (u * j) * w⁻¹ ^ (j * i) = if u = i then (n : K) else 0 := by
  have hw0 : w ≠ 0 := hw.ne_zero (by omega)
  have hterm (j : Nat) : w ^ (u * j) * w⁻¹ ^ (j * i) = (w ^ u * w⁻¹ ^ i) ^ j := by
    rw [mul_pow, ← pow_mul, ← pow_mul, Nat.mul_comm j i]
  have hone : (w ^ u * w⁻¹ ^ i) ^ n = 1 := by
    rw [mul_pow, pow_right_comm w, pow_right_comm w⁻¹, inv_pow, hw.pow_eq_one]
    simp
  simp only [hterm]
  split
  · subst u
    simp [hw0]
  · rename_i hne
    have hz : w ^ u * w⁻¹ ^ i - 1 ≠ 0 := fun h => hne <| hw.pow_inj hu hi <| by
      rwa [sub_eq_zero, inv_pow, mul_inv_eq_one₀ (pow_ne_zero i hw0)] at h
    have hgeom := geom_sum_mul (w ^ u * w⁻¹ ^ i) n
    rw [hone, sub_self] at hgeom
    exact (mul_eq_zero.mp hgeom).resolve_right hz

/-- The sum with the inverse root over the sums with the root gives each coefficient `n` times. -/
theorem inverse_sum_of_sums {K : Type} [Field K] {w : K} {n : Nat} (hw : IsPrimitiveRoot w n) (a : Nat → K) {i : Nat}
    (hi : i < n) : ∑ j ∈ Finset.range n, (∑ u ∈ Finset.range n, a u * w ^ (u * j)) * w⁻¹ ^ (j * i) = n * a i := by
  calc ∑ j ∈ Finset.range n, (∑ u ∈ Finset.range n, a u * w ^ (u * j)) * w⁻¹ ^ (j * i)
      = ∑ u ∈ Finset.range n, a u * ∑ j ∈ Finset.range n, w ^ (u * j) * w⁻¹ ^ (j * i) := by
        simp only [Finset.sum_mul, Finset.mul_sum, mul_assoc]
        exact Finset.sum_comm
    _ = ∑ u ∈ Finset.range n, a u * if u = i then (n : K) else 0 :=
        Finset.sum_congr rfl fun u hu => by rw [sum_pow_mul_inv_pow hw (Finset.mem_range.mp hu) hi]
    _ = n * a i := by simp [hi, mul_comm]

/-- The inverse sum over the forward sums of a reduced vector, times the inverse of the size, is the vector (R149). -/
theorem ninvOf_mul_inverse_forwardSum {g : Nat → Word} (hC : c.Conforms) (hk : k ≤ c.lognMax)
    (hg : ∀ j, j < 2 ^ k → (g j).toNat = forwardSum c.modulus (2 ^ k) (omega c k) f j) {i : Nat} (hi : i < 2 ^ k)
    (hf : (f i).toNat < c.modulus) :
    (ninvOf c.modulus k).toNat * forwardSum c.modulus (2 ^ k) (finv c.modulus (omega c k)) g i % c.modulus =
      (f i).toNat := by
  have := Fact.mk hC.prime
  rw [← Nat.mod_eq_of_lt hf, ← ZMod.natCast_eq_natCast_iff', Nat.cast_mul, natCast_forwardSum,
    toRing_finv_omega hC hk]
  have hsums : ∀ j ∈ Finset.range (2 ^ k), toRing c.modulus (g j) * (toRing c.modulus (omega c k))⁻¹ ^ (j * i) =
      (∑ u ∈ Finset.range (2 ^ k), toRing c.modulus (f u) * toRing c.modulus (omega c k) ^ (u * j)) *
        (toRing c.modulus (omega c k))⁻¹ ^ (j * i) := fun j hj => by
    rw [toRing, hg j (Finset.mem_range.mp hj), natCast_forwardSum]
  rw [Finset.sum_congr rfl hsums, inverse_sum_of_sums (isPrimitiveRoot_omega hC hk) _ hi, ← mul_assoc,
    mul_comm _ ((2 ^ k : Nat) : ZMod c.modulus), Nat.cast_pow, Nat.cast_ofNat, two_pow_mul_toRing_ninvOf hC hk, one_mul]

end Sys2Proof.Machine
end

section
/-! PROOFS. What NTT and INTT compute (O30, O31, O32, O34, O36, O39). -/

namespace Sys2Proof.Machine

/-- Settles O30: in the ring the half power of `w` is -1, which is what the stages need. -/
theorem stockhamIsTheForwardSum : Obligations.StockhamIsTheForwardSum := by
  unfold Obligations.StockhamIsTheForwardSum
  intro c L w f hC _ _ _ hhalf hf j hj
  have hP : c.modulus < 2 ^ 64 := c.p.isLt
  have h0 := hC.prime.pos
  refine stockham_eq_forwardSum hC.prime.one_lt hP hf (fun _ _ => rfl) (fun h1 => ?_) hj
  rw [← toRing_topWord h0 hP, ← pow_mod_eq_toNat_iff (topWord_lt h0 hP), toNat_topWord hP]
  exact hhalf h1

/-- Settles O31: the stages with the powers of `omega_L` as table. -/
theorem nttEvaluatesAtRootPowers : Obligations.NttEvaluatesAtRootPowers := by
  unfold Obligations.NttEvaluatesAtRootPowers
  intro s L hC hr h hb hin hd
  obtain ⟨t, he, hkept, hinside, houtside⟩ := nttCompletes s L hr h hb.not_uninit hin hd
  obtain ⟨hL, -, hholds⟩ := hb
  refine ⟨t, he, hkept, fun j hj => ?_, houtside⟩
  rw [hinside j hj]
  exact stockham_eq_forwardSum hC.prime.one_lt s.params.p.isLt hin hholds.twf (toRing_omega_pow_half hC hL) hj

/-- Settles O32: the stages with the powers of the inverse root as table, and the rescale. -/
theorem inttInterpolates : Obligations.InttInterpolates := by
  unfold Obligations.InttInterpolates
  intro s L hC hr h hb hin hd
  have h1 : 1 < s.modulus := hC.prime.one_lt
  have hP : s.modulus < 2 ^ 64 := s.params.p.isLt
  obtain ⟨t, he, hkept, hinside, houtside⟩ := inttCompletes s L hr h hb.not_uninit hin hd
  obtain ⟨hL, -, hholds⟩ := hb
  refine ⟨t, he, hkept, fun i hi => ?_, houtside⟩
  rw [hinside i hi, toNat_fmul (by omega) hP, Nat.mul_comm, hholds.rootinv,
    stockham_eq_forwardSum h1 hP hin hholds.twi (toRing_finv_omega_pow_half hC hL) hi]

/-- What a run of NTT has left in VOUT (R125). -/
theorem vout_of_ntt {s t : State} {L : Nat} (hC : s.params.Conforms) (hr : s.Ready) (h : s.arg0.toNat = 2 ^ L)
    (hb : s.BundleReady L) (hin : s.InputReduced (2 ^ L)) (hd : s.NoDeviceFailure) (he : exec .ntt s = .next t) :
    TransformKept s t ∧ ∀ j, j < 2 ^ L →
      (t.vout.read j).toNat = forwardSum s.modulus (2 ^ L) (omega s.params L) s.vin.read j := by
  obtain ⟨t', he', hkept, hinside, -⟩ := nttEvaluatesAtRootPowers s L hC hr h hb hin hd
  obtain rfl : t' = t := by simpa [he'] using he
  exact ⟨hkept, hinside⟩

/-- Settles O34: the powers of `omega_L` are orthogonal and `NINV` inverts the size. -/
theorem inttUndoesNtt : Obligations.InttUndoesNtt := by
  unfold Obligations.InttUndoesNtt
  intro s t v L hC hr h hb hin hd he hv
  obtain ⟨hkept, hsum⟩ := vout_of_ntt hC hr h hb hin hd he
  have hd' := hd.of_transform (i := .ntt) hr (checkNtt_of_reduced h hb.not_uninit hin) (kernelOf_ntt h) he
  have hb' : State.BundleReady { t with vin := v } L := hb.congr hkept.params hkept.bundles
  have hm : State.modulus { t with vin := v } = s.modulus := congrArg Params.modulus hkept.params
  have hbundle : State.bundle { t with vin := v } L = s.bundle L := by simp [State.bundle, hkept.bundles]
  have hv' : ∀ j, j < 2 ^ L → (v.read j).toNat = forwardSum s.modulus (2 ^ L) (omega s.params L) s.vin.read j :=
    fun j hj => by rw [hv j hj, hsum j hj]
  have hin' : State.InputReduced { t with vin := v } (2 ^ L) := fun j hj => by
    rw [hm, hv' j hj]
    exact forwardSum_lt hC.prime.pos _ _ _ _
  obtain ⟨u, heu, -, hinside, -⟩ := inttInterpolates { t with vin := v } L (hkept.params.symm ▸ hC)
    ⟨hkept.busy, hkept.fault⟩ (hkept.arg0.symm ▸ h) hb' hin' hd'
  obtain ⟨hL, -, hholds⟩ := hb
  refine ⟨u, heu, fun i hi => BitVec.eq_of_toNat_eq ?_⟩
  rw [hinside i hi, hm, hbundle, hholds.ninv, hholds.rootinv]
  exact ninvOf_mul_inverse_forwardSum hC hL hv' hi (hin i hi)

/-- Settles O36: the closed sum is linear in the input. -/
theorem nttIsLinear : Obligations.NttIsLinear := by
  unfold Obligations.NttIsLinear
  intro s t1 t2 t3 v1 v2 v3 L hC hr h hb hd hv he1 he2 he3 j hj
  have hP : s.modulus < 2 ^ 64 := s.params.p.isLt
  have h0 : 0 < s.modulus := hC.prime.pos
  have run {v : Memory} {t : State} (hred : ∀ i, i < 2 ^ L → (v.read i).toNat < s.modulus)
      (he : exec .ntt { s with vin := v } = .next t) :
      (t.vout.read j).toNat = forwardSum s.modulus (2 ^ L) (omega s.params L) v.read j := by
    obtain ⟨-, hsum⟩ := vout_of_ntt (s := { s with vin := v }) hC hr h hb hred hd he
    exact hsum j hj
  have h1 := run (fun i hi => (hv i hi).1) he1
  have h2 := run (fun i hi => (hv i hi).2.1) he2
  have h3 := run (fun i hi => by
    obtain ⟨hlt1, hlt2, hsum⟩ := hv i hi
    rw [hsum]
    exact fadd_lt hlt1 hlt2 hP) he3
  apply BitVec.eq_of_toNat_eq
  rw [h3, toNat_fadd (h1 ▸ forwardSum_lt h0 _ _ _ _) (h2 ▸ forwardSum_lt h0 _ _ _ _) hP, h1, h2]
  exact forwardSum_fadd hP hv _ j

/-- Settles O39: without stages the input goes to the output, and `NINV[0]` is 1. -/
theorem sizeOneCopies : Obligations.SizeOneCopies := by
  unfold Obligations.SizeOneCopies
  intro s hC hr harg hb hin hd i hi
  have h : s.arg0.toNat = 2 ^ 0 := by rw [harg]; rfl
  rcases hi with rfl | rfl
  · obtain ⟨t, he, hkept, hinside, houtside⟩ := nttCompletes s 0 hr h hb.not_uninit hin hd
    exact ⟨t, he, hkept, hinside 0 Nat.one_pos, houtside⟩
  · obtain ⟨t, he, hkept, hinside, houtside⟩ := inttCompletes s 0 hr h hb.not_uninit hin hd
    obtain ⟨-, -, hholds⟩ := hb
    refine ⟨t, he, hkept, ?_, houtside⟩
    have hninv : (s.bundle 0).ninv = 1#64 := hholds.ninv.trans (ninvOf_zero hC)
    rw [hinside 0 Nat.one_pos, hninv]
    exact fmul_one s.params.p.isLt (hin 0 Nat.one_pos)

end Sys2Proof.Machine
end

section
/-! SUPPORT. The steps of a stage (42_transform.md R133 to R137): when a butterfly and the barrier are enabled, what they
write, and what any schedule of butterflies leaves. -/

namespace Sys2Proof.Machine

variable {s u u' : State} {i : Instr} {k : Kernel} {j : Nat}

/-! ### Enabled steps -/

theorem State.coreStep_of_enabled (hb : s.busy = true) (hp : s.phase = .stage) (hj : j < 2 ^ s.l / 2)
    (hn : j ∉ s.doneset) (hi : decodeOpcode s.cur = some i) (hk : kernelOf i s = some k) :
    s.coreStep j = some (s.butterfly k.inverse j) := by
  simp [State.coreStep, hb, hp, hj, hn, hi, hk]

/-- A busy block in a stage runs a transform, and DONESET lists butterflies of the stage in rising order. -/
theorem State.Inv.inStage (h : s.Inv) (hb : s.busy = true) (hp : s.phase = .stage) :
    (∃ i k, decodeOpcode s.cur = some i ∧ kernelOf i s = some k) ∧ s.t < s.l ∧ s.doneset.Pairwise (· < ·) ∧
      ∀ j ∈ s.doneset, j < 2 ^ s.l / 2 := by
  obtain ⟨i, hi, hseq⟩ := h.inFlight hb
  simp only [State.sequencing, hp] at hseq
  obtain ⟨-, -, ⟨k, hk, -⟩, hlt, -, hsort, hbelow⟩ := hseq
  exact ⟨⟨i, k, hi, hk⟩, hlt, hsort, hbelow⟩

theorem State.Inv.coreStep_isSome_iff (h : s.Inv) (hb : s.busy = true) :
    (∃ s', s.coreStep j = some s') ↔ s.phase = .stage ∧ j < 2 ^ s.l / 2 ∧ j ∉ s.doneset := by
  constructor
  · rintro ⟨s', hs⟩
    obtain ⟨-, hp, hj, hn, -⟩ := State.coreStep_cases hs
    exact ⟨hp, hj, hn⟩
  · rintro ⟨hp, hj, hn⟩
    obtain ⟨⟨i, k, hi, hk⟩, -⟩ := h.inStage hb hp
    exact ⟨_, State.coreStep_of_enabled hb hp hj hn hi hk⟩

/-- The barrier's test: DONESET is the whole range exactly when it misses no butterfly. -/
theorem State.Inv.stageDone_iff (h : s.Inv) (hb : s.busy = true) (hp : s.phase = .stage) :
    s.stageDone = true ↔ ∀ j, j < 2 ^ s.l / 2 → j ∈ s.doneset := by
  obtain ⟨-, -, hsort, hbelow⟩ := h.inStage hb hp
  rw [State.stageDone, decide_eq_true_iff]
  constructor
  · intro hall j hj
    rwa [hall, List.mem_range]
  · exact fun hall => eq_range_of_rising hsort fun j => ⟨hbelow j, hall j⟩

/-- In a stage the sequencer waits for the butterflies and then takes the barrier (R135). -/
theorem State.Inv.seqStep_of_stage (h : s.Inv) (hb : s.busy = true) (hp : s.phase = .stage)
    (hd : s.devicePending = false) : s.seqStep = if s.stageDone then some s.barrierStep else none := by
  obtain ⟨⟨i, k, hi, hk⟩, -⟩ := h.inStage hb hp
  simp [State.seqStep, State.pipelineStep, hb, hp, hi, hk, hd]

/-! ### What a butterfly writes (R133) -/

/-- The lower of a butterfly's two cells takes `a + t·b`. -/
theorem State.stageValue_low (s : State) (inv : Bool) (hj : j < 2 ^ s.l / 2) : s.stageValue inv j =
    fadd s.modulus (s.src.read (j + (j - j % 2 ^ (s.l - 1 - s.t))))
      (fmul s.modulus (s.twiddle inv (j - j % 2 ^ (s.l - 1 - s.t)))
        (s.src.read (j + (j - j % 2 ^ (s.l - 1 - s.t)) + 2 ^ (s.l - 1 - s.t)))) := by
  simp [State.stageValue, stageCell, hj]

/-- The upper one takes `a - t·b`. -/
theorem State.stageValue_high (s : State) (inv : Bool) (j : Nat) : s.stageValue inv (j + 2 ^ s.l / 2) =
    fsub s.modulus (s.src.read (j + (j - j % 2 ^ (s.l - 1 - s.t))))
      (fmul s.modulus (s.twiddle inv (j - j % 2 ^ (s.l - 1 - s.t)))
        (s.src.read (j + (j - j % 2 ^ (s.l - 1 - s.t)) + 2 ^ (s.l - 1 - s.t)))) := by
  simp [State.stageValue, stageCell]

theorem State.butterfly_read_low (s : State) (inv : Bool) (hj : j < 2 ^ s.l / 2) :
    (s.butterfly inv j).dst.read j = s.stageValue inv j := by
  rw [State.butterfly_dst s inv hj, Memory.read_write_other _ (by omega), Memory.read_write_same]

theorem State.butterfly_read_high (s : State) (inv : Bool) (hj : j < 2 ^ s.l / 2) :
    (s.butterfly inv j).dst.read (j + 2 ^ s.l / 2) = s.stageValue inv (j + 2 ^ s.l / 2) := by
  rw [State.butterfly_dst s inv hj, Memory.read_write_same]

theorem State.butterfly_read_other (s : State) (inv : Bool) (hj : j < 2 ^ s.l / 2) {x : Nat} (hlow : x ≠ j)
    (hhigh : x ≠ j + 2 ^ s.l / 2) : (s.butterfly inv j).dst.read x = s.dst.read x := by
  rw [State.butterfly_dst s inv hj, Memory.read_write_other _ hhigh, Memory.read_write_other _ hlow]

@[simp] theorem State.butterfly_src (s : State) (inv : Bool) (j : Nat) : (s.butterfly inv j).src = s.src :=
  State.setDst_src _ _

/-- A butterfly changes its destination buffer and DONESET alone. -/
theorem State.butterfly_frame (s : State) (inv : Bool) (j : Nat) : s.butterfly inv j =
    { s with buf0 := (s.butterfly inv j).buf0, buf1 := (s.butterfly inv j).buf1
             doneset := (s.butterfly inv j).doneset } := by
  obtain ⟨m, he, -⟩ := s.butterfly_eq inv j
  rw [he]
  cases hs : s.sel <;> simp [State.setDst, hs]

/-! ### Schedules of butterflies (R136, R137) -/

/-- The state `u` is `s` after some butterflies of the stage that the command `i` is in: nothing has changed that the
rest of the stage depends on. -/
structure WithinStage (i : Instr) (k : Kernel) (s u : State) : Prop where
  inv : u.Inv
  busy : u.busy = true
  phase : u.phase = .stage
  current : decodeOpcode u.cur = some i
  kernel : kernelOf i u = some k
  l : u.l = s.l
  lanes : u.params.lanes = s.params.lanes
  recorded : u.StageRecorded k.inverse
  whole : u.wholeStage k.inverse = s.wholeStage k.inverse

theorem WithinStage.coreStep (h : WithinStage i k s u) (hs : u.coreStep j = some u') : WithinStage i k s u' := by
  have hinv := h.inv.coreStep hs
  obtain ⟨-, -, hj, -, i', k', hi, hk, rfl⟩ := State.coreStep_cases hs
  obtain rfl : i = i' := by simpa [h.current] using hi
  obtain rfl : k = k' := by simpa [h.kernel] using hk
  have hrec := h.recorded.butterfly hj
  have hwhole := State.wholeStage_butterfly h.inv.canonical k.inverse hj
  obtain ⟨b0, b1, d, he⟩ : ∃ b0 b1 d, u.butterfly k.inverse j = { u with buf0 := b0, buf1 := b1, doneset := d } :=
    ⟨_, _, _, u.butterfly_frame k.inverse j⟩
  rw [he] at hinv hrec hwhole ⊢
  have hkernel := (kernelOf_congr i rfl rfl rfl rfl rfl rfl).trans h.kernel
  exact ⟨hinv, h.busy, h.phase, h.current, hkernel, h.l, h.lanes, hrec, hwhole.trans h.whole⟩

/-- Entry `j` of a round leaves butterfly `j` done, whether it was or not. -/
theorem WithinStage.mem_doneset_getD (h : WithinStage i k s u) (hj : j < 2 ^ s.l / 2) (x : Nat) :
    x ∈ ((u.coreStep j).getD u).doneset ↔ x = j ∨ x ∈ u.doneset := by
  by_cases hn : j ∈ u.doneset
  · have hnone : u.coreStep j = none := by simp [State.coreStep, hn]
    simp only [hnone, Option.getD_none, iff_or_self]
    rintro rfl
    exact hn
  · rw [State.coreStep_of_enabled h.busy h.phase (h.l ▸ hj) hn h.current h.kernel]
    exact mem_insertIndex

theorem WithinStage.getD (h : WithinStage i k s u) (j : Nat) : WithinStage i k s ((u.coreStep j).getD u) := by
  cases hs : u.coreStep j with
  | none => exact h
  | some u' => exact h.coreStep hs

/-- Any list of butterflies of the stage is done one after another. -/
theorem WithinStage.foldl (js : List Nat) (h : WithinStage i k s u) (hjs : ∀ j ∈ js, j < 2 ^ s.l / 2) :
    WithinStage i k s (js.foldl (fun u j => (u.coreStep j).getD u) u) ∧
      ∀ x, x ∈ (js.foldl (fun u j => (u.coreStep j).getD u) u).doneset ↔ x ∈ js ∨ x ∈ u.doneset := by
  induction js generalizing u with
  | nil => exact ⟨h, by simp⟩
  | cons j js ih =>
    rw [List.forall_mem_cons] at hjs
    obtain ⟨hj, hjs⟩ := hjs
    obtain ⟨hend, hmem⟩ := ih (h.getD j) hjs
    refine ⟨hend, fun x => ?_⟩
    rw [List.foldl_cons, hmem, h.mem_doneset_getD hj, List.mem_cons]
    tauto

/-- A round of at most LANES butterflies takes them all (log 17). -/
theorem WithinStage.coreRound_eq_foldl (h : WithinStage i k s u) {js : List Nat} (hlen : js.length ≤ s.params.lanes) :
    u.coreRound js = js.foldl (fun u j => (u.coreStep j).getD u) u := by
  rw [State.coreRound, h.lanes, List.take_of_length_le hlen]

/-- The rounds together take every butterfly that stands in one of them (R137). -/
theorem WithinStage.rounds (rounds : List (List Nat)) (h : WithinStage i k s u)
    (hlen : ∀ js ∈ rounds, js.length ≤ s.params.lanes) (hjs : ∀ j ∈ rounds.flatten, j < 2 ^ s.l / 2) :
    WithinStage i k s (rounds.foldl State.coreRound u) ∧
      ∀ x, x ∈ (rounds.foldl State.coreRound u).doneset ↔ x ∈ rounds.flatten ∨ x ∈ u.doneset := by
  induction rounds generalizing u with
  | nil => exact ⟨h, by simp⟩
  | cons js rounds ih =>
    simp only [List.flatten_cons, List.forall_mem_append, List.forall_mem_cons] at hlen hjs
    obtain ⟨hlen, hlens⟩ := hlen
    obtain ⟨hlow, hlows⟩ := hjs
    obtain ⟨hround, hmem⟩ := h.foldl js hlow
    rw [← h.coreRound_eq_foldl hlen] at hround hmem
    obtain ⟨hend, hmems⟩ := ih hround hlens hlows
    refine ⟨hend, fun x => ?_⟩
    rw [List.foldl_cons, hmems, hmem, List.flatten_cons, List.mem_append]
    tauto

end Sys2Proof.Machine
end

section
/-! PROOFS. The steps of a stage (O41, O42, O43). -/

namespace Sys2Proof.Machine

/-- Settles O41: the enabled step of core `j` is its butterfly. -/
theorem butterflyStepRule : Obligations.ButterflyStepRule := by
  unfold Obligations.ButterflyStepRule
  intro s j hinv hb
  refine ⟨hinv.coreStep_isSome_iff hb, fun s' i k hs hi hk => ?_⟩
  obtain ⟨-, -, hj, -, i', k', hi', hk', rfl⟩ := State.coreStep_cases hs
  obtain rfl : i = i' := by simpa [hi] using hi'
  obtain rfl : k = k' := by simpa [hk] using hk'
  intro e a tb
  exact ⟨(s.butterfly_read_low _ hj).trans (s.stageValue_low _ hj),
    (s.butterfly_read_high _ hj).trans (s.stageValue_high _ j),
    fun x hlow hhigh => s.butterfly_read_other _ hj hlow hhigh, s.butterfly_src _ _,
    fun x => mem_insertIndex, s.butterfly_frame _ _⟩

/-- Settles O42: the sequencer's step in a stage is the barrier. -/
theorem barrierStepRule : Obligations.BarrierStepRule := by
  unfold Obligations.BarrierStepRule
  intro s hinv hp hd
  have hb : s.busy = true := hinv.busyPhase.mpr (by simp [hp])
  rw [hinv.seqStep_of_stage hb hp hd.devicePending, ← hinv.stageDone_iff hb hp]
  refine ⟨by simp, fun s' hs => ?_⟩
  obtain ⟨-, rfl⟩ : s.stageDone = true ∧ s.barrierStep = s' := by simpa using hs
  rw [State.barrierStep, hp]

/-- Settles O43: every butterfly records its two cells, so the barrier finds the whole stage in the destination. -/
theorem butterflyOrderIsIrrelevant : Obligations.ButterflyOrderIsIrrelevant := by
  unfold Obligations.ButterflyOrderIsIrrelevant
  intro s i k rounds hinv hb hp hnone hi hk hlen hperm
  have hstart : WithinStage i k s s := ⟨hinv, hb, hp, hi, hk, rfl, rfl, .of_none hnone, rfl⟩
  obtain ⟨hend, hmem⟩ := hstart.rounds rounds hlen fun j hj => List.mem_range.mp (hperm.mem_iff.mp hj)
  have hdone := (hend.inv.stageDone_iff hend.busy hend.phase).mpr fun j hj =>
    (hmem j).mpr (.inl (hperm.mem_iff.mpr (List.mem_range.mpr (hend.l ▸ hj))))
  obtain ⟨-, hlt, -⟩ := hend.inv.inStage hend.busy hend.phase
  refine ⟨hdone, ?_⟩
  rw [State.barrierStep_eq_wholeStage hend.inv.canonical hend.recorded (by omega) hdone, hend.whole]

end Sys2Proof.Machine
end

section
/-! SUPPORT. NTTC and INTTC from issue to completion: their checks in order (43_coset.md R150, R152, R155;
60_exceptions.md R177) and the vectors they commit (R152, R153, R155). -/

namespace Sys2Proof.Machine

variable {s t : State} {i : Instr} {L : Nat}

/-! ### The checks -/

/-- What NTTC and INTTC check once their sizes and their bundle have passed: the offset, then the input (R150). -/
def State.checkOffsetAndInput (s : State) : Option Raise := orElseCheck s.checkOffset fun _ => s.checkInput s.opN

theorem State.checkOffsetAndInput_of_unreducedOffset (h : s.modulus ≤ s.opOffset.toNat) :
    s.checkOffsetAndInput = some (.fatal .unreduced) := by
  have hfirst : failIf (!reduced s.modulus s.opOffset) (.fatal .unreduced) = some (.fatal .unreduced) := by
    simpa [failIf_eq_some] using h
  exact orElseCheck_of_some (orElseCheck_of_some hfirst _) _

theorem State.checkOffsetAndInput_of_zeroOffset (h : s.opOffset = 0#64) (hP : 0 < s.modulus) :
    s.checkOffsetAndInput = some (.fatal .zeroOffset) := by
  have hfirst : failIf (!reduced s.modulus s.opOffset) (.fatal .unreduced) = none := by simpa [h] using hP
  have hsecond : failIf (decide (s.opOffset = 0#64)) (.fatal .zeroOffset) = some (.fatal .zeroOffset) := by
    simpa [failIf_eq_some] using h
  exact orElseCheck_of_some ((orElseCheck_of_none hfirst _).trans hsecond) _

theorem State.checkOffsetAndInput_of_offset (hlt : s.opOffset.toNat < s.modulus) (hne : s.opOffset ≠ 0#64) :
    s.checkOffsetAndInput = s.checkInput s.opN :=
  orElseCheck_of_none (State.checkOffset_eq_none.mpr ⟨hlt, hne⟩) _

theorem checkInttc_of_not_isPow2 (h : ¬ IsPow2 s.opN) : checkInttc s = some (.fatal .notPow2) :=
  orElseCheck_of_some (checkPow2_of_not_isPow2 h) _

theorem checkInttc_of_init (h : s.opN = 2 ^ L) (hu : ¬ s.Uninit L) : checkInttc s = s.checkOffsetAndInput := by
  rw [checkInttc, orElseCheck_of_none (checkPow2_of_isPow2 ⟨L, h⟩), log2_eq h,
    orElseCheck_of_none (State.checkBundle_of_init hu), State.checkOffsetAndInput]

theorem checkNttc_of_not_isPow2 (h : ¬ IsPow2 s.opN) : checkNttc s = some (.fatal .notPow2) :=
  orElseCheck_of_some (checkPow2_of_not_isPow2 h) _

theorem checkNttc_of_blownUp_not_isPow2 (hn : IsPow2 s.opN) (h : 2 ^ 64 ≤ s.opM ∨ ¬ IsPow2 s.opM) :
    checkNttc s = some (.fatal .notPow2) := by
  have hsize : failIf (decide (2 ^ 64 ≤ s.opM) || !ispow2 s.opM) (.fatal .notPow2) = some (.fatal .notPow2) := by
    simpa [failIf_eq_some, ispow2_false_iff] using h
  rw [checkNttc, orElseCheck_of_none (checkPow2_of_isPow2 hn), orElseCheck_of_some hsize]

/-- Past its two checks of size NTTC compares the result length, then goes on to bundle, offset and input. -/
theorem checkNttc_of_two_pow (hn : IsPow2 s.opN) (hm : s.opM = 2 ^ L) (hlt : s.opM < 2 ^ 64) : checkNttc s =
    orElseCheck (failIf (!decide (s.opResultLen = s.opM)) (.fatal .resultLen)) fun _ =>
      orElseCheck (s.checkBundle L) fun _ => s.checkOffsetAndInput := by
  have hsize : failIf (decide (2 ^ 64 ≤ s.opM) || !ispow2 s.opM) (.fatal .notPow2) = none := by
    simpa using ⟨hlt, ispow2_iff.mpr ⟨L, hm⟩⟩
  rw [checkNttc, orElseCheck_of_none (checkPow2_of_isPow2 hn), orElseCheck_of_none hsize, log2_eq hm]
  rfl

theorem checkNttc_of_resultLen (hn : IsPow2 s.opN) (hm : s.opM = 2 ^ L) (hlt : s.opM < 2 ^ 64)
    (hlen : s.opResultLen ≠ s.opM) : checkNttc s = some (.fatal .resultLen) := by
  have hresult : failIf (!decide (s.opResultLen = s.opM)) (.fatal .resultLen) = some (.fatal .resultLen) := by
    simpa [failIf_eq_some] using hlen
  rw [checkNttc_of_two_pow hn hm hlt, orElseCheck_of_some hresult]

theorem checkNttc_of_init (hn : IsPow2 s.opN) (hm : s.opM = 2 ^ L) (hlt : s.opM < 2 ^ 64)
    (hlen : s.opResultLen = s.opM) (hu : ¬ s.Uninit L) : checkNttc s = s.checkOffsetAndInput := by
  have hresult : failIf (!decide (s.opResultLen = s.opM)) (.fatal .resultLen) = none := by simpa using hlen
  rw [checkNttc_of_two_pow hn hm hlt, orElseCheck_of_none hresult, orElseCheck_of_none (State.checkBundle_of_init hu)]

/-! ### Operands that pass -/

/-- The operands of NTTC pass its checks for a result of size `2^L` (R152). -/
structure State.NttcOperands (s : State) (L : Nat) : Prop where
  size : IsPow2 s.opN
  blownUp : s.opM = 2 ^ L
  word : 2 ^ L < 2 ^ 64
  result : s.opResultLen = 2 ^ L
  init : ¬ s.Uninit L
  offset : s.opOffset.toNat < s.modulus
  offset_ne : s.opOffset ≠ 0#64
  input : s.InputReduced s.opN

/-- A size whose bundle is ready fits a word. -/
theorem State.BundleReady.two_pow_lt (h : s.BundleReady L) (hC : s.params.Conforms) :
    2 ^ L < 2 ^ 64 := by
  obtain ⟨hL, -⟩ := h
  exact (two_pow_lt_modulus hC hL).trans s.params.p.isLt

theorem State.NttcOperands.checkNttc (h : s.NttcOperands L) : checkNttc s = none := by
  rw [checkNttc_of_init h.size h.blownUp (h.blownUp ▸ h.word) (h.result.trans h.blownUp.symm) h.init,
    State.checkOffsetAndInput_of_offset h.offset h.offset_ne]
  exact State.checkInput_of_reduced h.input

theorem State.NttcOperands.opN_le (h : s.NttcOperands L) : s.opN ≤ 2 ^ L :=
  Nat.le_of_dvd (Nat.two_pow_pos L) (h.blownUp ▸ Nat.dvd_mul_right _ _)

theorem checkInttc_of_operands (h : s.opN = 2 ^ L) (hu : ¬ s.Uninit L) (hoff : s.opOffset.toNat < s.modulus)
    (hne : s.opOffset ≠ 0#64) (hin : s.InputReduced (2 ^ L)) : checkInttc s = none := by
  rw [checkInttc_of_init h hu, State.checkOffsetAndInput_of_offset hoff hne, h]
  exact State.checkInput_of_reduced hin

/-! ### The kernels -/

/-- The first `n` coefficients, each times its power of the offset `h`, and zeros above (R150, R153). -/
def shiftPadded (P n : Nat) (h : Word) (c : Nat → Word) (i : Nat) : Word :=
  if i < n then fmul P (c i) (fpow P h i) else 0#64

/-- The input vector of the stages of NTTC. -/
def State.cosetInput (s : State) : Nat → Word := shiftPadded s.modulus s.opN s.opOffset s.vin.read

theorem kernelOf_nttc (h : s.opM = 2 ^ L) :
    kernelOf .nttc s = some { logSize := L, inverse := false, pre := s.cosetInput, post := fun _ v => v } := by
  rw [kernelOf, kernelNttc, log2_eq h]
  rfl

theorem kernelOf_inttc (h : s.opN = 2 ^ L) :
    kernelOf .inttc s = some { logSize := L, inverse := true, pre := s.vin.read,
                               post := fun i v => fmul s.modulus (fmul s.modulus v (s.bundle L).ninv)
                                 (fpow s.modulus (finv s.modulus s.opOffset) i) } := by
  rw [kernelOf, kernelInttc, log2_eq h]
  rfl

end Sys2Proof.Machine
end

section
/-! PROOFS. The checks and the completion of NTTC and INTTC (O24, O25, O28, O29). -/

namespace Sys2Proof.Machine

/-- Settles O24: the checks of R152 one after another, the last three as in INTTC. -/
theorem nttcChecksInOrder : Obligations.NttcChecksInOrder := by
  unfold Obligations.NttcChecksInOrder
  intro s hr n m
  have ends {c : FatalCode} : checkNttc s = some (.fatal c) → EndsFatally .nttc s c.code :=
    exec_endsFatally (i := .nttc) hr
  refine ⟨fun hn => ends (checkNttc_of_not_isPow2 hn), fun hn hm => ends (checkNttc_of_blownUp_not_isPow2 hn hm),
    fun L hn hm hlt => ⟨fun hlen => ends (checkNttc_of_resultLen hn hm hlt hlen), fun hlen hu => ?_,
      fun hlen hu hoff => ?_, fun hlen hu hP hzero => ?_, fun hlen hu hoff hne hbad => ?_⟩⟩
  · have hL : Nat.log2 s.opM = L := log2_eq hm
    exact ends (checkNttc_of_uninit hn ⟨L, hm⟩ hlt hlen (hL.symm ▸ hu))
  all_goals have hc := checkNttc_of_init hn hm hlt hlen hu
  · exact ends (hc.trans (State.checkOffsetAndInput_of_unreducedOffset hoff))
  · exact ends (hc.trans (State.checkOffsetAndInput_of_zeroOffset hzero hP))
  · have hscan := State.checkInput_of_unreduced hbad
    exact ends (hc.trans ((State.checkOffsetAndInput_of_offset hoff hne).trans hscan))

/-- Settles O25: the checks of R155 one after another, the last three as in NTTC. -/
theorem inttcChecksInOrder : Obligations.InttcChecksInOrder := by
  unfold Obligations.InttcChecksInOrder
  intro s hr
  have ends {c : FatalCode} : checkInttc s = some (.fatal c) → EndsFatally .inttc s c.code :=
    exec_endsFatally (i := .inttc) hr
  refine ⟨fun hn => ends (checkInttc_of_not_isPow2 hn), fun L h => ⟨fun hu => ?_, fun hu hoff => ?_,
    fun hu hP hzero => ?_, fun hu hoff hne hbad => ?_⟩⟩
  · exact ends (checkInttc_of_uninit ⟨L, h⟩ (by rwa [State.opN, log2_eq h]))
  all_goals have hc := checkInttc_of_init h hu
  · exact ends (hc.trans (State.checkOffsetAndInput_of_unreducedOffset hoff))
  · exact ends (hc.trans (State.checkOffsetAndInput_of_zeroOffset hzero hP))
  · have hscan := State.checkInput_of_unreduced hbad
    exact ends (hc.trans ((State.checkOffsetAndInput_of_offset hoff hne).trans hscan))

/-- Settles O28: the kernel of NTTC runs the stages on the shifted, padded input. -/
theorem nttcCompletes : Obligations.NttcCompletes := by
  unfold Obligations.NttcCompletes
  intro s L hr hn hm hlt hlen hu hoff hne hin hd
  have hops : s.NttcOperands L := ⟨hn, hm, hlt, hlen, hu, hoff, hne, hin⟩
  obtain ⟨t, he, hkept, hvout, -⟩ := exec_transform (i := .nttc) hr hops.checkNttc (kernelOf_nttc hm) hd
  exact ⟨t, he, hkept, hvout⟩

/-- Settles O29: the kernel of INTTC rescales what the stages leave and takes the offset powers off. -/
theorem inttcCompletes : Obligations.InttcCompletes := by
  unfold Obligations.InttcCompletes
  intro s L hr h hu hoff hne hin hd
  obtain ⟨t, he, hkept, hvout, -⟩ :=
    exec_transform (i := .inttc) hr (checkInttc_of_operands h hu hoff hne hin) (kernelOf_inttc h) hd
  exact ⟨t, he, hkept, hvout⟩

end Sys2Proof.Machine
end

section
/-! SUPPORT. The shifted vector as coefficients of the polynomial on the coset, and back (43_coset.md R150, R151,
R155 to R158). -/

namespace Sys2Proof.Machine

variable {P n L : Nat} {h w : Word} {f : Nat → Word}

/-! ### The closed sum on the coset (R151) -/

/-- `f(h · w^j)` for the polynomial with the coefficients `c[0..n-1]` (R151). -/
def cosetSum (P n : Nat) (h w : Word) (c : Nat → Word) (j : Nat) : Nat :=
  (∑ i ∈ Finset.range n, (c i).toNat * h.toNat ^ i * w.toNat ^ (i * j)) % P

theorem natCast_cosetSum (P n : Nat) (h w : Word) (c : Nat → Word) (j : Nat) : (cosetSum P n h w c j : ZMod P) =
    ∑ i ∈ Finset.range n, toRing P (c i) * toRing P h ^ i * toRing P w ^ (i * j) := by
  simp [cosetSum, toRing]

theorem shiftPadded_lt (h0 : 0 < P) (hP : P < 2 ^ 64) (n : Nat) (h : Word) (c : Nat → Word) (i : Nat) :
    (shiftPadded P n h c i).toNat < P := by
  unfold shiftPadded
  split
  · exact fmul_lt h0 hP _ _
  · exact toNat_zero_lt h0

theorem toRing_shiftPadded (h1 : 1 < P) (hP : P < 2 ^ 64) (n : Nat) (h : Word) (c : Nat → Word) (i : Nat) :
    toRing P (shiftPadded P n h c i) = if i < n then toRing P (c i) * toRing P h ^ i else 0 := by
  unfold shiftPadded
  split
  · rw [toRing_fmul (by omega) hP, toRing_fpow h1 hP]
  · exact toRing_zero P

/-- The padding adds nothing to the closed sum of the shifted vector (R153). -/
theorem forwardSum_shiftPadded {m : Nat} (h1 : 1 < P) (hP : P < 2 ^ 64) (hnm : n ≤ m) (h w : Word) (c : Nat → Word)
    (j : Nat) : forwardSum P m w (shiftPadded P n h c) j = cosetSum P n h w c j := by
  have hcast : (forwardSum P m w (shiftPadded P n h c) j : ZMod P) = (cosetSum P n h w c j : Nat) := by
    rw [natCast_forwardSum, natCast_cosetSum, ← Finset.sum_subset (Finset.range_subset_range.mpr hnm)]
    · refine Finset.sum_congr rfl fun i hi => ?_
      rw [toRing_shiftPadded h1 hP, if_pos (Finset.mem_range.mp hi)]
    · intro i _ hi
      rw [toRing_shiftPadded h1 hP, if_neg (by simpa using hi), zero_mul]
  rw [ZMod.natCast_eq_natCast_iff'] at hcast
  simpa only [forwardSum, cosetSum, Nat.mod_mod] using hcast

/-- Every `2^d`-th value on the finer coset is one on the coarser (R157). -/
theorem cosetSum_omega_add {c : Params} {M d : Nat} (hC : c.Conforms) (hd : M + d ≤ c.lognMax) (n : Nat) (h : Word)
    (f : Nat → Word) (j : Nat) : cosetSum c.modulus n h (omega c (M + d)) f (2 ^ d * j) =
      cosetSum c.modulus n h (omega c M) f j := by
  have hcast : (cosetSum c.modulus n h (omega c (M + d)) f (2 ^ d * j) : ZMod c.modulus) =
      (cosetSum c.modulus n h (omega c M) f j : Nat) := by
    rw [natCast_cosetSum, natCast_cosetSum]
    refine Finset.sum_congr rfl fun i _ => ?_
    rw [Nat.mul_left_comm, pow_mul, toRing_omega_add_pow hC hd]
  rw [ZMod.natCast_eq_natCast_iff'] at hcast
  simpa only [cosetSum, Nat.mod_mod] using hcast

/-! ### Back from the coset (R155, R156) -/

/-- The stages with the inverse table on the forward sums, rescaled, give the vector back (R149). -/
theorem rescaled_stockham_forwardSum {c : Params} {b : Bundle} {g : Nat → Word} (hC : c.Conforms) (hL : L ≤ c.lognMax)
    (hb : b.Holds c L) (hf : ∀ i, i < 2 ^ L → (f i).toNat < c.modulus)
    (hg : ∀ j, j < 2 ^ L → (g j).toNat = forwardSum c.modulus (2 ^ L) (omega c L) f j) {i : Nat} (hi : i < 2 ^ L) :
    fmul c.modulus (stockham c.modulus b.twi.read L L g i) b.ninv = f i := by
  have hP : c.modulus < 2 ^ 64 := c.p.isLt
  have hlt : ∀ j, j < 2 ^ L → (g j).toNat < c.modulus := fun j hj => hg j hj ▸ forwardSum_lt hC.prime.pos _ _ _ _
  apply BitVec.eq_of_toNat_eq
  rw [toNat_fmul hC.prime.pos hP, Nat.mul_comm, hb.ninv,
    stockham_eq_forwardSum hC.prime.one_lt hP hlt hb.twi (toRing_finv_omega_pow_half hC hL) hi]
  exact ninvOf_mul_inverse_forwardSum hC hL hg hi (hf i hi)

/-- The powers of the inverse offset undo the shift (R150). -/
theorem fmul_fpow_fpow_finv {a : Word} (hp : P.Prime) (hP : P < 2 ^ 64) (hh : h.toNat < P) (hne : h ≠ 0#64)
    (ha : a.toNat < P) (i : Nat) : fmul P (fmul P a (fpow P h i)) (fpow P (finv P h) i) = a := by
  rw [fmul_assoc hp.pos hP, fmul_fpow_fpow hp.one_lt hP (fmul_finv hp hP hh hne), fmul_one hP ha]

theorem shiftPadded_unshift (hp : P.Prime) (hP : P < 2 ^ 64) (hh : h.toNat < P) (hne : h ≠ 0#64)
    (hf : ∀ i, i < n → (f i).toNat < P) (i : Nat) :
    fmul P (shiftPadded P n h f i) (fpow P (finv P h) i) = if i < n then f i else 0#64 := by
  unfold shiftPadded
  split
  · exact fmul_fpow_fpow_finv hp hP hh hne (hf i ‹_›) i
  · rw [fmul_comm, fmul_zero hp.pos hP]

/-- INTTC of the forward sums of a vector gives the vector times the powers of the inverse offset (R155). -/
theorem inttc_of_forwardSum {s : State} (hC : s.params.Conforms) (hr : s.Ready)
    (h : s.arg0.toNat = 2 ^ L) (hb : s.BundleReady L) (hoff : s.arg1.toNat < s.modulus) (hne : s.arg1 ≠ 0#64)
    (hd : s.NoDeviceFailure) (hf : ∀ i, i < 2 ^ L → (f i).toNat < s.modulus)
    (hv : ∀ j, j < 2 ^ L → (s.vin.read j).toNat = forwardSum s.modulus (2 ^ L) (omega s.params L) f j) :
    ∃ t, exec .inttc s = .next t ∧ ∀ i, i < 2 ^ L →
      t.vout.read i = fmul s.modulus (f i) (fpow s.modulus (finv s.modulus s.arg1) i) := by
  have hin : s.InputReduced (2 ^ L) := fun j hj => hv j hj ▸ forwardSum_lt hC.prime.pos _ _ _ _
  obtain ⟨t, he, -, hinside, -⟩ := inttcCompletes s L hr h hb.not_uninit hoff hne hin hd
  obtain ⟨hL, -, hholds⟩ := hb
  refine ⟨t, he, fun i hi => ?_⟩
  rw [hinside i hi]
  exact congrArg (fmul s.modulus · _) (rescaled_stockham_forwardSum hC hL hholds hf hv hi)

/-! ### The offset 1 (R158) -/

theorem fpow_one (h1 : 1 < P) (hP : P < 2 ^ 64) (e : Nat) : fpow P 1#64 e = 1#64 :=
  toRing_inj (fpow_lt h1 hP _ _) (toNat_one_lt h1) (by rw [toRing_fpow h1 hP, toRing_one, one_pow])

/-- Without padding the shift by 1 changes nothing. -/
theorem shiftPadded_one (h1 : 1 < P) (hP : P < 2 ^ 64) {i : Nat} (hi : i < n) (hf : (f i).toNat < P) :
    shiftPadded P n 1#64 f i = f i := by
  rw [shiftPadded, if_pos hi, fpow_one h1 hP, fmul_one hP hf]

/-- The stages read nothing of the input but its first `2^L` cells (42_transform.md R136 b). -/
theorem stockham_congr {tw g : Nat → Word} (hfg : ∀ i, i < 2 ^ L → f i = g i) {T : Nat} (hT : T ≤ L) :
    ∀ i, i < 2 ^ L → stockham P tw L T f i = stockham P tw L T g i := by
  induction T with
  | zero => exact hfg
  | succ T ih => exact fun i hi => stageCell_congr (ih (by omega)) hi (by omega)

variable {s t : State} {i : Instr}

/-- VOUT after a transform that completes, as a memory and not only cell by cell. -/
theorem vout_of_transform {k : Kernel} (hr : s.Ready) (hc : checkOf i s = none) (hk : kernelOf i s = some k)
    (hd : s.NoDeviceFailure) (he : exec i s = .next t) :
    t.vout = s.vout.writeFrom 0 ((List.range (2 ^ k.logSize)).map (s.resultOf k)) := by
  obtain ⟨b0, b1, sel, hrun⟩ := runTransform_eq (k := k) (s := (s.respond Response.okay).issue i) hd.devicePending
  rw [exec_of_checked hr hc, bodyOf_of_kernel ((kernelOf_issued i s Response.okay).trans hk), hrun] at he
  obtain rfl := Host.Outcome.next.inj he
  rfl

/-- Two transforms of one size that agree in their result cells leave the same VOUT. -/
theorem exists_vout_eq {i' : Instr} {k k' : Kernel} (hr : s.Ready) (hd : s.NoDeviceFailure)
    (hc : checkOf i s = none) (hk : kernelOf i s = some k) (hc' : checkOf i' s = none) (hk' : kernelOf i' s = some k')
    (hsize : k.logSize = k'.logSize) (h : ∀ j, j < 2 ^ k.logSize → s.resultOf k j = s.resultOf k' j) :
    ∃ t u, exec i s = .next t ∧ exec i' s = .next u ∧ t.vout = u.vout := by
  obtain ⟨t, he⟩ := exec_is_next i s
  obtain ⟨u, he'⟩ := exec_is_next i' s
  refine ⟨t, u, he, he', ?_⟩
  rw [vout_of_transform hr hc hk hd he, vout_of_transform hr hc' hk' hd he', ← hsize,
    List.map_congr_left fun j hj => h j (List.mem_range.mp hj)]

end Sys2Proof.Machine
end

section
/-! PROOFS. What NTTC and INTTC compute (O33, O35, O37, O38). -/

namespace Sys2Proof.Machine

/-- Settles O33: the stages leave the closed sum of the shifted vector, whose padding adds nothing. -/
theorem nttcEvaluatesOnTheCoset : Obligations.NttcEvaluatesOnTheCoset := by
  unfold Obligations.NttcEvaluatesOnTheCoset
  intro s L hC hr hn hm hlen hb hoff hne hin hd
  have h1 : 1 < s.modulus := hC.prime.one_lt
  have hP : s.modulus < 2 ^ 64 := s.params.p.isLt
  have hops : s.NttcOperands L := ⟨hn, hm, hb.two_pow_lt hC, hlen, hb.not_uninit, hoff, hne, hin⟩
  obtain ⟨t, he, hkept, hinside, houtside⟩ :=
    nttcCompletes s L hr hn hm hops.word hlen hops.init hoff hne hin hd
  obtain ⟨hL, -, hholds⟩ := hb
  refine ⟨t, he, hkept, fun j hj => ?_, houtside⟩
  rw [hinside j hj]
  exact (stockham_eq_forwardSum h1 hP (fun i _ => shiftPadded_lt (by omega) hP _ _ _ i) hholds.twf
    (toRing_omega_pow_half hC hL) hj).trans (forwardSum_shiftPadded h1 hP hops.opN_le _ _ _ j)

/-- Settles O35: INTTC gives the shifted, padded vector back and then takes the offset powers off. -/
theorem inttcUndoesNttc : Obligations.InttcUndoesNttc := by
  unfold Obligations.InttcUndoesNttc
  intro s t v L hC hr hn hm hlen hb hoff hne hin hd he hv
  have h1 : 1 < s.modulus := hC.prime.one_lt
  have hP : s.modulus < 2 ^ 64 := s.params.p.isLt
  have hops : s.NttcOperands L := ⟨hn, hm, hb.two_pow_lt hC, hlen, hb.not_uninit, hoff, hne, hin⟩
  obtain ⟨t', he', hkept, hsum, -⟩ := nttcEvaluatesOnTheCoset s L hC hr hn hm hlen hb hoff hne hin hd
  obtain rfl : t' = t := by simpa [he'] using he
  have hd' := hd.of_transform (i := .nttc) hr hops.checkNttc (kernelOf_nttc hm) he
  have hp : State.modulus { t' with vin := v, arg0 := t'.arg3 } = s.modulus := congrArg Params.modulus hkept.params
  obtain ⟨u, heu, hinside⟩ := inttc_of_forwardSum (s := { t' with vin := v, arg0 := t'.arg3 }) (f := s.cosetInput)
    (hkept.params.symm ▸ hC) ⟨hkept.busy, hkept.fault⟩ (hkept.arg3.symm ▸ hlen) (hb.congr hkept.params hkept.bundles)
    (by rw [hp, hkept.arg1]; exact hoff) (hkept.arg1.symm ▸ hne) hd'
    (fun i _ => hp.symm ▸ shiftPadded_lt (by omega) hP _ _ _ i) (fun j hj => by
      rw [hp, hkept.params, hv j hj, hsum j hj]
      exact (forwardSum_shiftPadded h1 hP hops.opN_le _ _ _ j).symm)
  refine ⟨u, heu, fun i hi => ?_⟩
  rw [hinside i hi, hp, hkept.arg1]
  exact shiftPadded_unshift hC.prime hP hoff hne hin i

/-- Settles O37: the `2^d`-th power of the root of the larger size is the root of the smaller one. -/
theorem blowupSelection : Obligations.BlowupSelection := by
  unfold Obligations.BlowupSelection
  intro s t t1 L M hC hr h hm hlen hb hb1 hoff hne hin hd he he1 j hj
  have hpow : 2 ^ M * s.arg2.toNat = 2 ^ L := h ▸ hm
  obtain ⟨d, rfl⟩ : ∃ d, L = M + d :=
    Nat.exists_eq_add_of_le ((Nat.pow_dvd_pow_iff_le_right (le_refl 2)).mp ⟨_, hpow.symm⟩)
  have hblow : s.arg2.toNat = 2 ^ d := Nat.eq_of_mul_eq_mul_left (Nat.two_pow_pos M) (hpow.trans (pow_add 2 M d))
  have hin' : s.InputReduced s.arg0.toNat := h.symm ▸ hin
  obtain ⟨t', he', -, hsum, -⟩ := nttcEvaluatesOnTheCoset s (M + d) hC hr ⟨M, h⟩ hm hlen hb hoff hne hin' hd
  obtain rfl : t' = t := by simpa [he'] using he
  obtain ⟨t1', he1', -, hsum1, -⟩ := nttcEvaluatesOnTheCoset { s with arg2 := 1#64, arg3 := s.arg0 } M hC hr ⟨M, h⟩
    ((Nat.mul_one _).trans h) h hb1 hoff hne hin' hd
  obtain rfl : t1' = t1 := by simpa [he1'] using he1
  obtain ⟨hL, -, -⟩ := hb
  have hlt : 2 ^ d * j < 2 ^ (M + d) := by
    rw [pow_add, Nat.mul_comm]
    exact Nat.mul_lt_mul_of_pos_right hj (Nat.two_pow_pos d)
  apply BitVec.eq_of_toNat_eq
  rw [hblow, hsum _ hlt, hsum1 j hj]
  exact cosetSum_omega_add hC hL _ _ _ j

/-- Settles O38: the shift by 1 changes neither the input of the stages nor the rescaled output. -/
theorem identityOffsetIsNoOffset : Obligations.IdentityOffsetIsNoOffset := by
  unfold Obligations.IdentityOffsetIsNoOffset
  intro s L hC hr h hb hone hin hd
  have hprime : s.modulus.Prime := hC.prime
  have h1 := hprime.one_lt
  have hP : s.modulus < 2 ^ 64 := s.params.p.isLt
  have hn : s.opN = 2 ^ L := h
  have hu := hb.not_uninit
  have hoff : s.opOffset.toNat < s.modulus := by rw [State.opOffset, hone]; exact toNat_one_lt h1
  have hne : s.opOffset ≠ 0#64 := by rw [State.opOffset, hone]; decide
  refine ⟨fun hblow hlen => ?_, ?_⟩
  · have hm : s.opM = 2 ^ L := by rw [State.opM, State.opBlowup, hblow]; exact (Nat.mul_one _).trans hn
    have hops : s.NttcOperands L :=
      ⟨⟨L, hn⟩, hm, hb.two_pow_lt hC, (congrArg BitVec.toNat hlen).trans h, hu, hoff, hne, hn.symm ▸ hin⟩
    refine exists_vout_eq (i := .nttc) (i' := .ntt) hr hd hops.checkNttc (kernelOf_nttc hm)
      (checkNtt_of_reduced h hu hin) (kernelOf_ntt h) rfl fun j hj => stockham_congr (fun i hi => ?_) le_rfl j hj
    rw [State.cosetInput, State.opOffset, hone]
    exact shiftPadded_one h1 hP (hn.symm ▸ hi) (hin i hi)
  · refine exists_vout_eq (i := .inttc) (i' := .intt) hr hd (checkInttc_of_operands h hu hoff hne hin)
      (kernelOf_inttc h) (checkNtt_of_reduced h hu hin) (kernelOf_intt h) rfl fun j _ => ?_
    have hshift : fpow s.modulus (finv s.modulus s.opOffset) j = 1#64 := by
      rw [State.opOffset, hone, finv_one hprime hP, fpow_one h1 hP]
    simp only [State.resultOf, hshift]
    exact fmul_one hP (fmul_lt (by omega) hP _ _)

end Sys2Proof.Machine
end

section
/-! SUPPORT. The ways a step can stop the model (93_implementation_defined.md U15; 60_exceptions.md R182; log 18,
log 20), and a transform that a device execution failure ends (60_exceptions.md R179, R175). -/

namespace Sys2Proof.Machine

variable {s : State} {i : Instr}

/-! ### The stops of a step -/

/-- The check of the parameters is the only refusal of a step (93_implementation_defined.md U15; log 18). -/
theorem step_eq_refused_iff : step s = .refused .parameters ↔ s.params.wellFormed = false := by
  cases hw : s.params.wellFormed with
  | true => simp [step, hw, State.advance_ne_refused]
  | false => simp [step, hw]

theorem State.callWord_is_next (s : State) (w : Word) : ∃ s', s.callWord w = .next s' := by
  unfold State.callWord
  split
  · exact exec_is_next _ s
  · exact ⟨_, rfl⟩

/-- A block with BUSY = 1 that meets the structural invariant goes on (60_exceptions.md R182). -/
theorem State.Inv.runBlock_is_next (h : s.Inv) (hb : s.busy = true) : ∃ s', s.runBlock = .next s' := by
  obtain ⟨s', hs⟩ := h.blockStep_exists hb
  exact ⟨s', by rw [State.runBlock, hs]⟩

/-- Every script entry is carried out: the only one that can stop is a wait, which lets a busy block go on. -/
theorem State.Inv.perform_is_next (h : s.Inv) (e : Event) : ∃ s', State.perform e s = .next s' := by
  cases e with
  | call w => exact s.callWord_is_next w
  | wait =>
    rw [State.perform]
    split
    · next hb => exact (h.withScript (.wait :: s.script)).runBlock_is_next hb
    · exact ⟨_, rfl⟩
  | rst | txn | bus | seq | cores | devFault => exact ⟨_, rfl⟩

/-- From a state that meets the structural invariant a step past the check of the parameters never stops
(60_exceptions.md R182; log 20). -/
theorem State.Inv.step_is_next (h : s.Inv) (hw : s.params.wellFormed = true) : ∃ s', step s = .next s' := by
  rw [step, if_pos hw, State.advance]
  split
  · split
    · next hb => exact h.runBlock_is_next hb
    · exact ⟨s, rfl⟩
  · next e rest _ => exact (h.withScript rest).perform_is_next e

/-! ### A device execution failure -/

/-- A transform that passes its checks with a device failure pending is ended in its first execute step. -/
theorem exec_of_devicePending {k : Kernel} (hr : s.Ready) (hc : checkOf i s = none) (hk : kernelOf i s = some k)
    (hd : s.devicePending = true) : exec i s =
      .next ((((s.respond Response.okay).issue i).toPhase .load).takeDevice (2 ^ k.logSize)) := by
  have hissued : ((s.respond Response.okay).issue i).devicePending = true := hd
  rw [exec_of_checked hr hc, bodyOf_of_kernel ((kernelOf_issued i s Response.okay).trans hk), runTransform,
    if_pos hissued]

/-- The result cells become the words of a new draw, and no other cell of VOUT changes (60_exceptions.md R179;
log 3). -/
theorem State.takeDevice_voutHolds (s : State) (n : Nat) :
    VoutHolds s (s.takeDevice n) n (Config.freeWord s.draws) where
  inside := fun _ hj => Memory.read_writeFrom_range s.vout (Config.freeWord s.draws) hj
  outside := fun _ hj => Memory.read_writeFrom_range_outside s.vout (Config.freeWord s.draws) hj

end Sys2Proof.Machine
end

section
/-! PROOFS. A device failure ends a transform, and a step never sticks (O40, O51). -/

namespace Sys2Proof.Machine

/-- Settles O40: the failure is taken in the first execute step, which writes the result cells alone. -/
theorem deviceFailureEndsATransform : Obligations.DeviceFailureEndsATransform := by
  unfold Obligations.DeviceFailureEndsATransform
  intro i s k hr hc hk hdev hpend
  have hd : s.devicePending = true := by simp [State.devicePending, hdev, hpend]
  obtain ⟨hinside, houtside⟩ :=
    (((s.respond Response.okay).issue i).toPhase .load).takeDevice_voutHolds (2 ^ k.logSize)
  exact ⟨_, exec_of_devicePending hr hc hk hd, ⟨rfl, rfl⟩, rfl, rfl, rfl, rfl, hinside, houtside, rfl, rfl, rfl,
    rfl, rfl, rfl, rfl, rfl, rfl, rfl⟩

/-- Settles O51: the check of the parameters decides R4 to R7, and past it only a busy block without an enabled step
could stop. -/
theorem stepNeverSticks : Obligations.StepNeverSticks := by
  unfold Obligations.StepNeverSticks
  refine ⟨fun s => ?_, fun s hC hinv => hinv.step_is_next (Params.wellFormed_iff.mpr hC)⟩
  rw [step_eq_refused_iff, ← Params.wellFormed_iff, Bool.not_eq_true]

end Sys2Proof.Machine
end

section
/-! SUPPORT. The views of STATUS and VALID after the reset action (70_reset_and_hazards.md R201). -/

namespace Sys2Proof.Machine

/-- Reset leaves no bundle valid (10_state.md R39). -/
theorem State.rstAction_invalid (s : State) : ∀ b ∈ s.rstAction.bundles, b.valid = false := by
  intro b hb
  obtain ⟨e, rfl⟩ := mem_bundlesUnspecified hb
  rfl

/-- STATUS reads 0 where its four flags are clear (10_state.md R23). -/
theorem State.statusWord_eq_zero {s : State} (hbusy : s.busy = false) (hdone : s.done = false) (hfail : s.fail = false)
    (hfault : s.fault = false) : s.statusWord = 0#64 := by
  rw [State.statusWord, hbusy, hdone, hfail, hfault]
  decide

/-- VALID reads 0 after reset. -/
theorem State.rstAction_validWord (s : State) : s.rstAction.validWord = 0#64 := by
  rw [State.validWord, validBits_of_invalid s.rstAction_invalid]

end Sys2Proof.Machine
end

section
/-! PROOFS. The reset action (O59). -/

namespace Sys2Proof.Machine

/-- Settles O59: the step is the reset action on the state past the script entry. That action builds every field anew;
of what `s` holds it uses the parameters, the number of the next draw and the script alone. -/
theorem resetActionRule : Obligations.ResetActionRule := by
  unfold Obligations.ResetActionRule
  intro s rest hw hs
  have hstep : step s = .next (s.withScript rest).rstAction := step_of_script hw hs
  exact ⟨_, hstep, rfl, rfl, rfl, rfl, rfl, rfl, rfl, State.statusWord_eq_zero rfl rfl rfl rfl, rfl,
    State.rstAction_validWord _, rfl, rfl, rfl, rfl, rfl, rfl, rfl, rfl, rfl, rfl, rfl, bundlesUnspecified_length _ _,
    State.rstAction_invalid _, rfl⟩

end Sys2Proof.Machine
end
